-- ==== Sys2Proof/Word.lean ====
section
/-! DEFINITION. The carrier of NUM values and the record of operations that a NUM instance supplies (spec 00_scope.md R7). -/

namespace Sys2Proof

/-- A NUM value, held as the 32-bit pattern that the ports transfer (20_memory.md R104). -/
abbrev NUM := BitVec 32

/-- A byte is 8 bits (00_scope.md R10). -/
abbrev Byte := BitVec 8

/-- The NUM value 0.0: the all-zero pattern, in every instance the model knows (log 2). -/
abbrev NUM.zero : NUM := 0#32

/-- The numerics record NUM (00_scope.md R7): the arithmetic, the comparisons, `floor` and the four
transcendental functions. `rat n d` is the NUM value nearest n/d: it gives the literals of the rules and
the conversion of an exact integer (R8). -/
structure Numerics where
  add  : NUM → NUM → NUM
  sub  : NUM → NUM → NUM
  mul  : NUM → NUM → NUM
  div  : NUM → NUM → NUM
  sqrt : NUM → NUM
  neg  : NUM → NUM
  abs  : NUM → NUM
  lt   : NUM → NUM → Bool
  le   : NUM → NUM → Bool
  floor : NUM → Int
  rat  : Int → Nat → NUM
  pi   : NUM
  sin  : NUM → NUM
  cos  : NUM → NUM
  exp2 : NUM → NUM
  pow  : NUM → NUM → NUM
deriving Inhabited

end Sys2Proof
end

