-- ==== Sys2Proof/Syntax.lean ====
section
/-! DEFINITION. The instructions of the block: one constructor per row of spec/opcode_table.json (30_encoding.md R150). -/

namespace Sys2Proof

/-- The two host agents (10_state.md R30). -/
inductive HostAgent where
  | midi
  | ui
deriving DecidableEq, Repr

/-- A word of one of the five ports, decoded (30_encoding.md R141 to R145). Integer fields are naturals (R8);
their ranges are `Instr.wellFormed`. SET and GET carry the agent that wrote the register port (R410, R412; log 24). -/
inductive Instr where
  -- format M: chan [19:16], d1 [14:8], d2 [6:0]
  | midiNoteOff (chan note vel : Nat)
  | midiNoteOn (chan note vel : Nat)
  | midiCc (chan index value : Nat)
  | midiPolyPressure (chan d1 d2 : Nat)
  | midiProgram (chan d1 d2 : Nat)
  | midiChannelPressure (chan d1 d2 : Nat)
  | midiPitchBend (chan d1 d2 : Nat)
  | midiSystem (chan d1 d2 : Nat)
  | midiNoStatus (b0 b1 b2 : Nat)
  -- format S: id [14:8], q [7:0]
  | set (a : HostAgent) (id q : Nat)
  | get (a : HostAgent) (id q : Nat)
  -- format N: note [6:0]
  | nqNoteOff (note : Nat)
  | nqNoteOn (note : Nat)
  -- format U: v [31:0]
  | updAttackMs (v : NUM)
  | updReleaseMs (v : NUM)
  | updHarmSpacing (v : NUM)
  | updHarmExponent (v : NUM)
  | updFilterCutoff (v : NUM)
  | updFilterResonance (v : NUM)
  | updFilterGainDb (v : NUM)
  | updFilterType (v : NUM)
  | updDelayTimeS (v : NUM)
  | updDelayFeedback (v : NUM)
  | updDelayMix (v : NUM)
  | updDelayFreeze (v : NUM)
  | updDelayReverse (v : NUM)
  | updDelayInterp (v : NUM)
  | updDelayTopology (v : NUM)
  | updReverbRt60S (v : NUM)
  | updReverbMix (v : NUM)
  -- format C: B [31:0]
  | render (b : Nat)
deriving DecidableEq, Repr

end Sys2Proof
end

