-- ==== Sys2Proof/WellFormed.lean ====
section
/-! DEFINITION. Which instructions a port word can hold: every integer field within its bits (30_encoding.md R141 to R145). -/

namespace Sys2Proof

/-- A channel message of format M: 4 bits of channel and two 7-bit data bytes (R141). -/
def midiFieldsOk (chan d1 d2 : Nat) : Bool := chan < 16 && d1 < 128 && d2 < 128

/-- Every field fits the bits its format gives it. -/
def Instr.wellFormed : Instr → Bool
  | .midiNoteOff c n v => midiFieldsOk c n v
  | .midiNoteOn c n v => midiFieldsOk c n v
  | .midiCc c i v => midiFieldsOk c i v
  | .midiPolyPressure c a b => midiFieldsOk c a b
  | .midiProgram c a b => midiFieldsOk c a b
  | .midiChannelPressure c a b => midiFieldsOk c a b
  | .midiPitchBend c a b => midiFieldsOk c a b
  | .midiSystem c a b => midiFieldsOk c a b
  | .midiNoStatus b0 b1 b2 => b0 < 128 && b1 < 256 && b2 < 256
  | .set _ id q => id < 128 && q < 256
  | .get _ id q => id < 128 && q < 256
  | .nqNoteOff n => n < 128
  | .nqNoteOn n => n < 128
  | .updAttackMs _ => true
  | .updReleaseMs _ => true
  | .updHarmSpacing _ => true
  | .updHarmExponent _ => true
  | .updFilterCutoff _ => true
  | .updFilterResonance _ => true
  | .updFilterGainDb _ => true
  | .updFilterType _ => true
  | .updDelayTimeS _ => true
  | .updDelayFeedback _ => true
  | .updDelayMix _ => true
  | .updDelayFreeze _ => true
  | .updDelayReverse _ => true
  | .updDelayInterp _ => true
  | .updDelayTopology _ => true
  | .updReverbRt60S _ => true
  | .updReverbMix _ => true
  | .render b => b < 2 ^ 32

end Sys2Proof
end

