-- ==== Sys2Proof/Decode.lean ====
section
/-! DEFINITION. Port words, the decoder of each port (30_encoding.md R140 to R161), and the encoder after it. -/

namespace Sys2Proof

/-! ### Port words -/

/-- The five formats (R140). -/
inductive Format where
  | m | s | n | u | c
deriving DecidableEq, Repr

/-- A word at one of the five ports, of the width R140 gives the port. The register port's word comes with the
host agent that wrote it (log 24). -/
inductive PortWord where
  | m (w : BitVec 24)
  | s (a : HostAgent) (w : BitVec 16)
  | n (w : BitVec 16)
  | u (w : BitVec 40)
  | c (w : BitVec 32)
deriving DecidableEq, Repr

def PortWord.format : PortWord → Format
  | .m _ => .m
  | .s _ _ => .s
  | .n _ => .n
  | .u _ => .u
  | .c _ => .c

/-- The word's bits as a number, bit 0 least significant (R10). -/
def PortWord.bits : PortWord → Nat
  | .m w => w.toNat
  | .s _ w => w.toNat
  | .n w => w.toNat
  | .u w => w.toNat
  | .c w => w.toNat

/-- The field of `width` bits whose lowest bit is bit `lo`, as an unsigned integer (R10, R146). -/
def bitField (w lo width : Nat) : Nat := w / 2 ^ lo % 2 ^ width

/-- Why a word has no row of R150. -/
inductive DecodeError where
  /-- format M, bit 23 = 1 and bit 15 or bit 7 = 1 (R455): the MIDI agent ignores it -/
  | malformedDataByte
  /-- format M, no status row: no 24-bit word is of this kind -/
  | noMidiRow
  /-- format N word of neither NQ row (R472): discarded when popped -/
  | unknownNoteWord
  /-- format U, id in 17..255 (R447): UNKNOWN_ID_POLICY decides -/
  | unknownUpdateId
  /-- fewer bytes than the port's word has (only `decodeBytes`) -/
  | shortWord
deriving DecidableEq, Repr

/-! ### The opcode map as the spec writes it (R150) -/

/-- One row of R150: a word of the format is selected when `word AND mask = pattern`. -/
structure OpRow where
  mnemonic : String
  format   : Format
  pattern  : Nat
  mask     : Nat
deriving DecidableEq, Repr

/-- The rows of format M (R150). -/
def midiRows : List OpRow :=
  [ ⟨"MIDI_NOTE_OFF", .m, 0x800000, 0xF08080⟩
  , ⟨"MIDI_NOTE_ON", .m, 0x900000, 0xF08080⟩
  , ⟨"MIDI_CC", .m, 0xB00000, 0xF08080⟩
  , ⟨"MIDI_POLY_PRESSURE", .m, 0xA00000, 0xF08080⟩
  , ⟨"MIDI_PROGRAM", .m, 0xC00000, 0xF08080⟩
  , ⟨"MIDI_CHANNEL_PRESSURE", .m, 0xD00000, 0xF08080⟩
  , ⟨"MIDI_PITCH_BEND", .m, 0xE00000, 0xF08080⟩
  , ⟨"MIDI_SYSTEM", .m, 0xF00000, 0xF08080⟩
  , ⟨"MIDI_NO_STATUS", .m, 0x000000, 0x800000⟩ ]

/-- The rows of format S (R150). -/
def registerRows : List OpRow :=
  [ ⟨"SET", .s, 0x0000, 0x8000⟩
  , ⟨"GET", .s, 0x8000, 0x8000⟩ ]

/-- The rows of format N (R150). -/
def noteRows : List OpRow :=
  [ ⟨"NQ_NOTE_OFF", .n, 0x8000, 0xFF80⟩
  , ⟨"NQ_NOTE_ON", .n, 0x9000, 0xFF80⟩ ]

/-- The rows of format U (R150). -/
def updateRows : List OpRow :=
  [ ⟨"UPD_ATTACK_MS", .u, 0x0000000000, 0xFF00000000⟩
  , ⟨"UPD_RELEASE_MS", .u, 0x0100000000, 0xFF00000000⟩
  , ⟨"UPD_HARM_SPACING", .u, 0x0200000000, 0xFF00000000⟩
  , ⟨"UPD_HARM_EXPONENT", .u, 0x0300000000, 0xFF00000000⟩
  , ⟨"UPD_FILTER_CUTOFF", .u, 0x0400000000, 0xFF00000000⟩
  , ⟨"UPD_FILTER_RESONANCE", .u, 0x0500000000, 0xFF00000000⟩
  , ⟨"UPD_FILTER_GAIN_DB", .u, 0x0600000000, 0xFF00000000⟩
  , ⟨"UPD_FILTER_TYPE", .u, 0x0700000000, 0xFF00000000⟩
  , ⟨"UPD_DELAY_TIME_S", .u, 0x0800000000, 0xFF00000000⟩
  , ⟨"UPD_DELAY_FEEDBACK", .u, 0x0900000000, 0xFF00000000⟩
  , ⟨"UPD_DELAY_MIX", .u, 0x0A00000000, 0xFF00000000⟩
  , ⟨"UPD_DELAY_FREEZE", .u, 0x0B00000000, 0xFF00000000⟩
  , ⟨"UPD_DELAY_REVERSE", .u, 0x0C00000000, 0xFF00000000⟩
  , ⟨"UPD_DELAY_INTERP", .u, 0x0D00000000, 0xFF00000000⟩
  , ⟨"UPD_DELAY_TOPOLOGY", .u, 0x0E00000000, 0xFF00000000⟩
  , ⟨"UPD_REVERB_RT60_S", .u, 0x0F00000000, 0xFF00000000⟩
  , ⟨"UPD_REVERB_MIX", .u, 0x1000000000, 0xFF00000000⟩ ]

/-- The rows of format C (R150). -/
def callbackRows : List OpRow :=
  [ ⟨"RENDER", .c, 0x00000000, 0x00000000⟩ ]

/-- R150, all 31 rows. -/
def opcodeTable : List OpRow := midiRows ++ registerRows ++ noteRows ++ updateRows ++ callbackRows

/-- Does the row select the word (R150)? -/
def OpRow.selects (r : OpRow) (w : PortWord) : Bool :=
  r.format == w.format && (w.bits &&& r.mask) == r.pattern

/-- Two rows of one format that no word can both match: they differ in a bit both masks fix. -/
def OpRow.disjoint (r t : OpRow) : Bool :=
  r.format != t.format || (r.pattern &&& (r.mask &&& t.mask)) != (t.pattern &&& (r.mask &&& t.mask))

/-- The mnemonic of an instruction's row. -/
def Instr.mnemonic : Instr → String
  | .midiNoteOff .. => "MIDI_NOTE_OFF"
  | .midiNoteOn .. => "MIDI_NOTE_ON"
  | .midiCc .. => "MIDI_CC"
  | .midiPolyPressure .. => "MIDI_POLY_PRESSURE"
  | .midiProgram .. => "MIDI_PROGRAM"
  | .midiChannelPressure .. => "MIDI_CHANNEL_PRESSURE"
  | .midiPitchBend .. => "MIDI_PITCH_BEND"
  | .midiSystem .. => "MIDI_SYSTEM"
  | .midiNoStatus .. => "MIDI_NO_STATUS"
  | .set .. => "SET"
  | .get .. => "GET"
  | .nqNoteOff .. => "NQ_NOTE_OFF"
  | .nqNoteOn .. => "NQ_NOTE_ON"
  | .updAttackMs .. => "UPD_ATTACK_MS"
  | .updReleaseMs .. => "UPD_RELEASE_MS"
  | .updHarmSpacing .. => "UPD_HARM_SPACING"
  | .updHarmExponent .. => "UPD_HARM_EXPONENT"
  | .updFilterCutoff .. => "UPD_FILTER_CUTOFF"
  | .updFilterResonance .. => "UPD_FILTER_RESONANCE"
  | .updFilterGainDb .. => "UPD_FILTER_GAIN_DB"
  | .updFilterType .. => "UPD_FILTER_TYPE"
  | .updDelayTimeS .. => "UPD_DELAY_TIME_S"
  | .updDelayFeedback .. => "UPD_DELAY_FEEDBACK"
  | .updDelayMix .. => "UPD_DELAY_MIX"
  | .updDelayFreeze .. => "UPD_DELAY_FREEZE"
  | .updDelayReverse .. => "UPD_DELAY_REVERSE"
  | .updDelayInterp .. => "UPD_DELAY_INTERP"
  | .updDelayTopology .. => "UPD_DELAY_TOPOLOGY"
  | .updReverbRt60S .. => "UPD_REVERB_RT60_S"
  | .updReverbMix .. => "UPD_REVERB_MIX"
  | .render .. => "RENDER"

/-! ### The decoder -/

/-- A well-formed channel or system message, by its status nibble (R141, R150). -/
def decodeStatus (kind chan d1 d2 : Nat) : Except DecodeError Instr :=
  match kind with
  | 0x8 => .ok (.midiNoteOff chan d1 d2)
  | 0x9 => .ok (.midiNoteOn chan d1 d2)
  | 0xA => .ok (.midiPolyPressure chan d1 d2)
  | 0xB => .ok (.midiCc chan d1 d2)
  | 0xC => .ok (.midiProgram chan d1 d2)
  | 0xD => .ok (.midiChannelPressure chan d1 d2)
  | 0xE => .ok (.midiPitchBend chan d1 d2)
  | 0xF => .ok (.midiSystem chan d1 d2)
  | _ => .error .noMidiRow

/-- Format M (R141). Bit 23 = 0 is row MIDI_NO_STATUS whatever the other bits are; with bit 23 = 1 a data byte
whose top bit is set has no row (R160, R455). -/
def decodeM (w : Nat) : Except DecodeError Instr :=
  if bitField w 23 1 = 0 then .ok (.midiNoStatus (bitField w 16 7) (bitField w 8 8) (bitField w 0 8))
  else if bitField w 15 1 = 1 ∨ bitField w 7 1 = 1 then .error .malformedDataByte
  else decodeStatus (bitField w 20 4) (bitField w 16 4) (bitField w 8 7) (bitField w 0 7)

/-- Format S (R142): bit 15 = 0 is SET, 1 is GET. -/
def decodeS (a : HostAgent) (w : Nat) : Except DecodeError Instr :=
  if bitField w 15 1 = 0 then .ok (.set a (bitField w 8 7) (bitField w 0 8))
  else .ok (.get a (bitField w 8 7) (bitField w 0 8))

/-- Format N (R143): kind 0x80 or 0x90, and bit 7 clear. -/
def decodeN (w : Nat) : Except DecodeError Instr :=
  if bitField w 7 9 = 0x100 then .ok (.nqNoteOff (bitField w 0 7))
  else if bitField w 7 9 = 0x120 then .ok (.nqNoteOn (bitField w 0 7))
  else .error .unknownNoteWord

/-- The update row of a parameter id (R150, R401). -/
def decodeUpdate (id : Nat) (v : NUM) : Except DecodeError Instr :=
  match id with
  | 0 => .ok (.updAttackMs v)
  | 1 => .ok (.updReleaseMs v)
  | 2 => .ok (.updHarmSpacing v)
  | 3 => .ok (.updHarmExponent v)
  | 4 => .ok (.updFilterCutoff v)
  | 5 => .ok (.updFilterResonance v)
  | 6 => .ok (.updFilterGainDb v)
  | 7 => .ok (.updFilterType v)
  | 8 => .ok (.updDelayTimeS v)
  | 9 => .ok (.updDelayFeedback v)
  | 10 => .ok (.updDelayMix v)
  | 11 => .ok (.updDelayFreeze v)
  | 12 => .ok (.updDelayReverse v)
  | 13 => .ok (.updDelayInterp v)
  | 14 => .ok (.updDelayTopology v)
  | 15 => .ok (.updReverbRt60S v)
  | 16 => .ok (.updReverbMix v)
  | _ => .error .unknownUpdateId

/-- Format U (R144): id in bits [39:32], the binary32 pattern v in bits [31:0]. -/
def decodeU (w : Nat) : Except DecodeError Instr :=
  decodeUpdate (bitField w 32 8) (BitVec.ofNat 32 (bitField w 0 32))

/-- The instruction a port word holds (R150): decoded against the rows of its own port only (R140). -/
def decode : PortWord → Except DecodeError Instr
  | .m w => decodeM w.toNat
  | .s a w => decodeS a w.toNat
  | .n w => decodeN w.toNat
  | .u w => decodeU w.toNat
  | .c w => .ok (.render w.toNat)

/-- The first `k` bytes of a list as one number, the first byte most significant (R103 for format M). -/
def takeBytes : Nat → List Byte → Nat → Option (Nat × List Byte)
  | 0, bs, acc => some (acc, bs)
  | _ + 1, [], _ => none
  | k + 1, b :: bs, acc => takeBytes k bs (acc * 256 + b.toNat)

/-- Decoding from bytes, total on every list: a MIDI message arrives as status, first data, second data byte (R103).
The other formats move whole and their byte order is unobservable (R104); the same order is used (log 29).
The bytes after the word are left over. -/
def decodeBytes (f : Format) (a : HostAgent) (bs : List Byte) : Except DecodeError (Instr × List Byte) :=
  let width := match f with
    | .m => 3
    | .s => 2
    | .n => 2
    | .u => 5
    | .c => 4
  match takeBytes width bs 0 with
  | none => .error .shortWord
  | some (w, rest) =>
    let word : PortWord := match f with
      | .m => .m (BitVec.ofNat 24 w)
      | .s => .s a (BitVec.ofNat 16 w)
      | .n => .n (BitVec.ofNat 16 w)
      | .u => .u (BitVec.ofNat 40 w)
      | .c => .c (BitVec.ofNat 32 w)
    match decode word with
    | .ok i => .ok (i, rest)
    | .error e => .error e

/-! ### The encoder -/

/-- A format M word from its status nibble, channel and data bytes (R141). -/
def statusWord (kind chan d1 d2 : Nat) : PortWord :=
  .m (BitVec.ofNat 24 (kind * 2 ^ 20 + chan * 2 ^ 16 + d1 * 2 ^ 8 + d2))

/-- The format U word of an update (R144). -/
def updateWord (id : Nat) (v : NUM) : PortWord :=
  .u (BitVec.ofNat 40 (id * 2 ^ 32 + v.toNat))

/-- The N word of a note event (R143): kind byte 0x80 (NoteOff) or 0x90 (NoteOn) and the note. -/
def noteOffWord (note : Nat) : BitVec 16 := BitVec.ofNat 16 (0x8000 + note)
def noteOnWord (note : Nat) : BitVec 16 := BitVec.ofNat 16 (0x9000 + note)

/-- The port word of a well-formed instruction, from R141 to R145 and R170. -/
def encode : Instr → PortWord
  | .midiNoteOff c n v => statusWord 0x8 c n v
  | .midiNoteOn c n v => statusWord 0x9 c n v
  | .midiCc c i v => statusWord 0xB c i v
  | .midiPolyPressure c a b => statusWord 0xA c a b
  | .midiProgram c a b => statusWord 0xC c a b
  | .midiChannelPressure c a b => statusWord 0xD c a b
  | .midiPitchBend c a b => statusWord 0xE c a b
  | .midiSystem c a b => statusWord 0xF c a b
  | .midiNoStatus b0 b1 b2 => .m (BitVec.ofNat 24 (b0 * 2 ^ 16 + b1 * 2 ^ 8 + b2))
  | .set a id q => .s a (BitVec.ofNat 16 (id * 2 ^ 8 + q))
  | .get a id q => .s a (BitVec.ofNat 16 (2 ^ 15 + id * 2 ^ 8 + q))
  | .nqNoteOff n => .n (noteOffWord n)
  | .nqNoteOn n => .n (noteOnWord n)
  | .updAttackMs v => updateWord 0 v
  | .updReleaseMs v => updateWord 1 v
  | .updHarmSpacing v => updateWord 2 v
  | .updHarmExponent v => updateWord 3 v
  | .updFilterCutoff v => updateWord 4 v
  | .updFilterResonance v => updateWord 5 v
  | .updFilterGainDb v => updateWord 6 v
  | .updFilterType v => updateWord 7 v
  | .updDelayTimeS v => updateWord 8 v
  | .updDelayFeedback v => updateWord 9 v
  | .updDelayMix v => updateWord 10 v
  | .updDelayFreeze v => updateWord 11 v
  | .updDelayReverse v => updateWord 12 v
  | .updDelayInterp v => updateWord 13 v
  | .updDelayTopology v => updateWord 14 v
  | .updReverbRt60S v => updateWord 15 v
  | .updReverbMix v => updateWord 16 v
  | .render b => .c (BitVec.ofNat 32 b)

/-! ### Table words: the host's numbering of an instruction by width and number -/

/-- The port of a table word of `nbits` bits. The 16-bit rows of formats S and N share words
(0x80nn and 0x90nn are both an NQ row and a GET): those words are taken as format N, whose rows fix more bits (log 12). -/
def tablePortWord (nbits w : Nat) : Option PortWord :=
  match nbits with
  | 24 => some (.m (BitVec.ofNat 24 w))
  | 16 =>
    match decodeN (w % 2 ^ 16) with
    | .ok _ => some (.n (BitVec.ofNat 16 w))
    | .error _ => some (.s .ui (BitVec.ofNat 16 w))
  | 40 => some (.u (BitVec.ofNat 40 w))
  | 32 => some (.c (BitVec.ofNat 32 w))
  | _ => none

/-- What the decoder reads from a table word. -/
def decodeTableWord (nbits w : Nat) : Option Instr :=
  match tablePortWord nbits w with
  | none => none
  | some pw =>
    match decode pw with
    | .ok i => some i
    | .error _ => none

end Sys2Proof
end

