-- ==== Sys2Proof/Config.lean ====
section
/-! DEFINITION. The configuration record CFG (spec 00_scope.md R5), the source's constants, and the values the spec leaves free. -/

namespace Sys2Proof

/-! ### Constants the source states (R5) -/

/-- Reverb stage count. -/
abbrev NSTAGES : Nat := 6
/-- Filter stage count (D52). -/
abbrev NFILT : Nat := 1
/-- Top quantized parameter value. -/
abbrev QMAX : Nat := 35
/-- Size of the tag alphabet. -/
abbrev NSYM : Nat := 36
/-- The largest parameter id the engine has a target for (R401, R404). -/
abbrev MAX_ID : Nat := 16

/-! ### Selections of the open functions -/

/-- Where `sin`, `cos`, `pow` and `exp2` of the binary32 instance come from (R7, U6; log 3). -/
inductive MathsLib where
  /-- the platform maths library: total functions with no accuracy promised, so uninterpreted here -/
  | platform
  /-- the evaluation the spec's own numbers were made with: correctly rounded (R401, R561, 95_test_vectors.md) -/
  | correctlyRounded
deriving DecidableEq, Repr

/-- Which NUM the block is built with (R7, U6; log 2). -/
inductive NumericsSel where
  /-- IEEE 754 binary32, round to nearest even: the reference instance -/
  | binary32 (lib : MathsLib)
  /-- any other instance over 32-bit patterns: nothing is known of its operations -/
  | other
deriving DecidableEq, Repr

/-- Which normalisation function `osc_norm` is (R256, U7; log 21). -/
inductive OscNormSel where
  /-- the reference function: the sum of the included partials' gains -/
  | sumOfGains
  /-- any other function of (count, e, s): uninterpreted -/
  | other
deriving DecidableEq, Repr

/-- What an unknown parameter id does (R5, U1). -/
inductive UnknownIdPolicy where
  | fault
  | ignore
deriving DecidableEq, Repr

/-- The fault codes (60_exceptions.md R500). -/
inductive FaultCode where
  | noAudioDevice
  | noMidiPort
  | unsupportedFormat
  | dupId
  | dupTag
  | unknownId
  | invalidDescriptor
deriving DecidableEq, Repr

/-- What construction is told of its environment (R502): the three Booleans of the out-of-scope startup layer. -/
structure Env where
  audioDevice : Bool
  formatOk    : Bool
  midiPort    : Bool
deriving DecidableEq, Repr

/-- A parameter descriptor (47_parameter_interface.md R400). -/
structure Descriptor where
  id       : Nat
  name     : String
  tag      : Char
  min      : NUM
  max      : NUM
  skew     : NUM
  defaultQ : Nat
deriving DecidableEq, Repr

/-- The configuration record CFG (00_scope.md R5). It is plain data: the open functions are held as selections.
`OUT_FORMAT` is out of scope (R4) and has no field. -/
structure Cfg where
  fs             : NUM
  n              : Nat
  ch             : Nat
  midiChannel    : Nat
  ptable         : List Descriptor
  envMsMin       : NUM
  envMsMax       : NUM
  maxPartials    : Nat
  oscNorm        : OscNormSel
  fbScale        : NUM
  delayMaxS      : NUM
  revMaxS        : NUM
  reverbDelaysMs : List NUM
  updDepth       : Nat
  noteDepth      : Nat
  unknownId      : UnknownIdPolicy
  mixGain        : NUM
  num            : NumericsSel
deriving DecidableEq, Repr

/-- Does the configuration select the IEEE binary32 instance of NUM? -/
def Cfg.isBinary32 (c : Cfg) : Bool :=
  match c.num with
  | .binary32 _ => true
  | .other => false

/-! ### Free values: constants with no body -/

/-- The operations of a NUM instance that is not binary32 (log 2). -/
opaque Config.otherNumerics : Numerics
/-- The platform library's functions (R7; log 3). -/
opaque Config.platformSin : NUM → NUM
opaque Config.platformCos : NUM → NUM
opaque Config.platformExp2 : NUM → NUM
opaque Config.platformPow : NUM → NUM → NUM
/-- The power function where nothing is stated: a negative base in the reference evaluation, pow(1, NaN) in any library
(log 3). -/
opaque Config.powUnstated : NUM → NUM → NUM
/-- Sign and payload of the quiet NaN that a binary32 operation returns (log 5). -/
opaque Config.nanSign : NUM → NUM → Bool
opaque Config.nanPayload : NUM → NUM → BitVec 22
/-- `floor` of a NaN or an infinity, which no integer is (log 6). -/
opaque Config.floorUnstated : NUM → Int
/-- A count taken by `floor` where the floor is negative (log 6). -/
opaque Config.countUnstated : NUM → Nat
/-- `wrap(v, C)` for a NUM v outside [-C, 2C), where R11 states nothing (log 7). -/
opaque Config.wrapUnstated : NUM → NUM → NUM
/-- An `osc_norm` that is not the reference function (log 21). -/
opaque Config.otherOscNorm : Nat → NUM → Nat → NUM

end Sys2Proof
end

