-- ==== Sys2Proof/Machine/Float.lean ====
section
/-! DEFINITION. IEEE 754 binary32 with round to nearest even, the arithmetic of the reference NUM (spec 00_scope.md R7). -/

namespace Sys2Proof.Machine

/-! A pattern is sign, 8 exponent bits, 23 fraction bits. Every finite value is a whole multiple of the least
subnormal 2^-149, so a finite operand is read as an integer count of that unit, the exact result is formed in
integers or as a quotient of integers, and one function rounds. -/

/-- The magnitude bits: all but the sign. They are ordered as the magnitudes are. -/
def f32Mag (x : NUM) : Nat := x.toNat % 2 ^ 31

/-- The sign bit. -/
def f32Neg (x : NUM) : Bool := decide (2 ^ 31 ≤ x.toNat)

/-- The magnitude bits of infinity. -/
abbrev f32InfMag : Nat := 0x7F800000

def f32IsNaN (x : NUM) : Bool := decide (f32InfMag < f32Mag x)
def f32IsInf (x : NUM) : Bool := f32Mag x == f32InfMag
def f32IsFinite (x : NUM) : Bool := decide (f32Mag x < f32InfMag)

/-- A pattern from its sign and magnitude bits. -/
def f32Pack (neg : Bool) (mag : Nat) : NUM := BitVec.ofNat 32 (mag + if neg then 2 ^ 31 else 0)

/-- The finite magnitude as a count of 2^-149. -/
def f32UnitsOfMag (mag : Nat) : Nat :=
  if mag < 2 ^ 23 then mag else (mag % 2 ^ 23 + 2 ^ 23) * 2 ^ (mag / 2 ^ 23 - 1)

def f32Units (x : NUM) : Nat := f32UnitsOfMag (f32Mag x)

/-- The finite value as a signed count of 2^-149. -/
def f32Int (x : NUM) : Int := if f32Neg x then -(f32Units x : Int) else (f32Units x : Int)

/-- The magnitude bits of (n / d) · 2^-149, rounded to nearest, ties to even. With the quotient scaled down by
2^s so that 24 bits are left, the rounded 24 bits and s are the magnitude bits: s · 2^23 + m. A magnitude that
rounds past the largest finite one is infinity. -/
def f32RoundMag (n d : Nat) : Nat :=
  let q := n / d
  let s := if q < 2 ^ 24 then 0 else Nat.log2 q - 23
  let d' := d * 2 ^ s
  let m := n / d'
  let r := n % d'
  let up := d' < 2 * r || (2 * r == d' && m % 2 == 1)
  Nat.min (s * 2 ^ 23 + m + (if up then 1 else 0)) f32InfMag

/-- The quiet NaN an operation on `x` and `y` returns: IEEE 754 fixes that it is a quiet NaN and leaves its sign
and payload open (log 5). -/
def f32NaN (x y : NUM) : NUM :=
  f32Pack (Config.nanSign x y) (0x7FC00000 + (Config.nanPayload x y).toNat)

/-- Negation flips the sign bit. -/
def f32Negate (x : NUM) : NUM := f32Pack (!f32Neg x) (f32Mag x)

/-- The absolute value clears the sign bit. -/
def f32Abs (x : NUM) : NUM := f32Pack false (f32Mag x)

/-- x + y. An exact zero sum is +0 unless both operands are negative zeros. -/
def f32Add (x y : NUM) : NUM :=
  if f32IsNaN x || f32IsNaN y then f32NaN x y
  else if f32IsInf x then
    if f32IsInf y && f32Neg x != f32Neg y then f32NaN x y else x
  else if f32IsInf y then y
  else
    let z := f32Int x + f32Int y
    if z = 0 then f32Pack (f32Neg x && f32Neg y) 0
    else f32Pack (decide (z < 0)) (f32RoundMag z.natAbs 1)

/-- x − y. -/
def f32Sub (x y : NUM) : NUM := f32Add x (f32Negate y)

/-- x × y: the product of the counts is a count of 2^-298. -/
def f32Mul (x y : NUM) : NUM :=
  if f32IsNaN x || f32IsNaN y then f32NaN x y
  else if f32IsInf x || f32IsInf y then
    if f32Mag x == 0 || f32Mag y == 0 then f32NaN x y
    else f32Pack (f32Neg x != f32Neg y) f32InfMag
  else f32Pack (f32Neg x != f32Neg y) (f32RoundMag (f32Units x * f32Units y) (2 ^ 149))

/-- x ÷ y. -/
def f32Div (x y : NUM) : NUM :=
  if f32IsNaN x || f32IsNaN y then f32NaN x y
  else if f32IsInf x then
    if f32IsInf y then f32NaN x y else f32Pack (f32Neg x != f32Neg y) f32InfMag
  else if f32IsInf y then f32Pack (f32Neg x != f32Neg y) 0
  else if f32Mag y == 0 then
    if f32Mag x == 0 then f32NaN x y else f32Pack (f32Neg x != f32Neg y) f32InfMag
  else f32Pack (f32Neg x != f32Neg y) (f32RoundMag (f32Units x * 2 ^ 149) (f32Units y))

/-- Newton's iteration for the integer square root, from a start at least as large as the root. -/
def natRootStep : Nat → Nat → Nat → Nat
  | 0, _, x => x
  | fuel + 1, n, x =>
    let y := (x + n / x) / 2
    if y < x then natRootStep fuel n y else x

/-- The greatest integer whose square is at most `n`. -/
def natRoot (n : Nat) : Nat := if n = 0 then 0 else natRootStep 300 n (2 ^ (Nat.log2 n / 2 + 1))

/-- The square root. The root of u · 2^-149 is √(u · 2^149) counts of 2^-149; where the integer root is not exact a
half is added, which stands for the part cut off (it lies far below the rounding position). -/
def f32Sqrt (x : NUM) : NUM :=
  if f32IsNaN x then f32NaN x x
  else if f32Mag x == 0 then x
  else if f32Neg x then f32NaN x x
  else if f32IsInf x then x
  else
    let n := f32Units x * 2 ^ 149
    let r := natRoot n
    f32Pack false (f32RoundMag (if r * r = n then 2 * r else 2 * r + 1) 2)

/-- The place of a value in the order of the reals; both zeros are at 0. -/
def f32Key (x : NUM) : Int := if f32Neg x then -(f32Mag x : Int) else (f32Mag x : Int)

/-- IEEE comparisons: false when an operand is a NaN (R11). -/
def f32Lt (x y : NUM) : Bool := !f32IsNaN x && !f32IsNaN y && decide (f32Key x < f32Key y)
def f32Le (x y : NUM) : Bool := !f32IsNaN x && !f32IsNaN y && decide (f32Key x ≤ f32Key y)

/-- `floor`: the exact integer (R7); of a NaN or an infinity no integer is the floor (log 6). -/
def f32Floor (x : NUM) : Int := if f32IsFinite x then f32Int x / (2 ^ 149 : Int) else Config.floorUnstated x

/-- The binary32 value nearest n / d. -/
def f32OfRat (n : Int) (d : Nat) : NUM :=
  if n = 0 then NUM.zero else f32Pack (decide (n < 0)) (f32RoundMag (n.natAbs * 2 ^ 149) d)

/-- The binary32 value nearest π (R11). -/
def f32Pi : NUM := 0x40490FDB#32

end Sys2Proof.Machine
end

