-- ==== Sys2Proof/Machine/Maths.lean ====
section
/-! DEFINITION. `sin`, `cos`, `exp2` and `pow` of binary32, evaluated in 256-bit fixed point and rounded once: the values
the spec's own numbers were made with (R401, R561, 95_test_vectors.md), and the two function tables of the binary32 instance (log 3, 4). -/

namespace Sys2Proof.Machine

/-- Fraction bits of the fixed-point numbers. -/
abbrev fixBits : Nat := 256

/-- ⌊π · 2^256⌋ -/
def fixPi : Nat := 0x3243f6a8885a308d313198a2e03707344a4093822299f31d0082efa98ec4e6c89

/-- ⌊ln 2 · 2^256⌋ -/
def fixLn2 : Nat := 0xb17217f7d1cf79abc9e3b39803f2f6af40f343267298b62d8a0d175b8baafa2b

/-- A count of 2^-149 as fixed point. -/
def fixOfUnits (u : Nat) : Nat := u * 2 ^ (fixBits - 149)

/-- Σ of `term`, −term·r²/(k(k+1)), … : the alternating series of the sine (from term = r, k = 2) and of the cosine
(from term = 1, k = 1), with r2 = r². -/
def fixTrig : Nat → Nat → Nat → Nat → Int → Int → Int
  | 0, _, _, _, _, acc => acc
  | fuel + 1, r2, k, term, sign, acc =>
    if term = 0 then acc
    else fixTrig fuel r2 (k + 2) (term * r2 / 2 ^ fixBits / (k * (k + 1))) (-sign) (acc + sign * term)

/-- sin r for fixed-point r in [0, π/2]. -/
def fixSin (r : Nat) : Int := fixTrig 48 (r * r / 2 ^ fixBits) 2 r 1 0

/-- cos r for fixed-point r in [0, π/2]. -/
def fixCos (r : Nat) : Int := fixTrig 48 (r * r / 2 ^ fixBits) 1 (2 ^ fixBits) 1 0

/-- sin (x + quarter · π/2) for fixed-point x ≥ 0. -/
def fixSinFrom (quarter x : Nat) : Int :=
  let t := x % (2 * fixPi)
  let q := 2 * t / fixPi
  let r := t - q * fixPi / 2
  match (q + quarter) % 4 with
  | 0 => fixSin r
  | 1 => fixCos r
  | 2 => -fixSin r
  | _ => -fixCos r

/-- A fixed-point value rounded to binary32. -/
def f32OfFix (v : Int) : NUM := f32Pack (decide (v < 0)) (f32RoundMag v.natAbs (2 ^ (fixBits - 149)))

/-- The correctly rounded sine; of a zero it is that zero. -/
def f32SinCR (x : NUM) : NUM :=
  if !f32IsFinite x then f32NaN x x
  else if f32Mag x == 0 then x
  else
    let v := fixSinFrom 0 (fixOfUnits (f32Units x))
    f32OfFix (if f32Neg x then -v else v)

/-- The correctly rounded cosine. -/
def f32CosCR (x : NUM) : NUM :=
  if !f32IsFinite x then f32NaN x x
  else f32OfFix (fixSinFrom 1 (fixOfUnits (f32Units x)))

/-- Σ yᵏ/k! from the term given. -/
def fixExpSeries : Nat → Nat → Nat → Nat → Nat → Nat
  | 0, _, _, _, acc => acc
  | fuel + 1, y, k, term, acc =>
    if term = 0 then acc else fixExpSeries fuel y (k + 1) (term * y / 2 ^ fixBits / k) (acc + term)

/-- exp l for a fixed-point l, rounded to binary32. The mantissa is first brought to 160 fraction bits, so that a
result that is exact (a power that is a whole number, say) is met exactly. -/
def f32ExpOfFix (l : Int) : NUM :=
  let i := l / (fixLn2 : Int)
  if 128 ≤ i then f32Pack false f32InfMag
  else if i < -151 then NUM.zero
  else
    let m := (fixExpSeries 80 (l % (fixLn2 : Int)).toNat 1 (2 ^ fixBits) 0 + 2 ^ 95) / 2 ^ 96
    f32Pack false (f32RoundMag (m * 2 ^ (i + 151).toNat) (2 ^ 162))

/-- The correctly rounded 2^x. -/
def f32Exp2CR (x : NUM) : NUM :=
  if f32IsNaN x then f32NaN x x
  else if f32IsInf x then (if f32Neg x then NUM.zero else x)
  else
    let l : Int := (fixOfUnits (f32Units x) : Int) * (fixLn2 : Int) / (2 ^ fixBits : Int)
    f32ExpOfFix (if f32Neg x then (-(fixOfUnits (f32Units x) : Int)) * (fixLn2 : Int) / (2 ^ fixBits : Int) else l)

/-- Σ tᵏ/k over the odd k from the term given, with t2 = t². -/
def fixAtanhSeries : Nat → Nat → Nat → Nat → Nat → Nat
  | 0, _, _, _, acc => acc
  | fuel + 1, t2, k, term, acc =>
    if term = 0 then acc else fixAtanhSeries fuel t2 (k + 2) (term * t2 / 2 ^ fixBits) (acc + term / k)

/-- ln of u · 2^-149 for u > 0: ln u = 2 atanh((u − 2^k)/(u + 2^k)) + k ln 2 with 2^k ≤ u < 2^(k+1). -/
def fixLnOfUnits (u : Nat) : Int :=
  let k := Nat.log2 u
  let t := (u - 2 ^ k) * 2 ^ fixBits / (u + 2 ^ k)
  2 * (fixAtanhSeries 96 (t * t / 2 ^ fixBits) 1 t 0 : Int) + ((k : Int) - 149) * (fixLn2 : Int)

/-- The correctly rounded x^y of operands that are no NaN, for x > 0 (R7 uses no other base but 0). The special bases and
exponents are those of IEEE 754's power function, and a negative base gives an uninterpreted value. -/
def f32PowCR (x y : NUM) : NUM :=
  if f32Neg x then Config.powUnstated x y
  else if f32Mag x == 0 then (if f32Neg y then f32Pack false f32InfMag else NUM.zero)
  else if x == 0x3F800000#32 then x
  else if f32IsInf y then
    if (f32Mag x < 0x3F800000) == f32Neg y then f32Pack false f32InfMag else NUM.zero
  else if f32IsInf x then (if f32Neg y then NUM.zero else x)
  else f32ExpOfFix (fixLnOfUnits (f32Units x) * f32Int y / (2 ^ 149 : Int))

/-! ### The two maths libraries -/

/-- `sin`. sin(0) = 0 is the spec's own (R253), and a NaN operand gives a NaN (U5: a NaN cutoff makes the coefficients
NaN), whatever the library. -/
def libSin (l : MathsLib) (x : NUM) : NUM :=
  if f32IsNaN x then f32NaN x x
  else if f32Mag x == 0 then x
  else match l with
    | .platform => Config.platformSin x
    | .correctlyRounded => f32SinCR x

/-- `cos`. A NaN operand gives a NaN (U5), whatever the library. -/
def libCos (l : MathsLib) (x : NUM) : NUM :=
  if f32IsNaN x then f32NaN x x
  else match l with
    | .platform => Config.platformCos x
    | .correctlyRounded => f32CosCR x

/-- `exp2`. exp2(0) = 1 is the spec's own (95_test_vectors.md, "Provenance of the numbers"). -/
def libExp2 (l : MathsLib) (x : NUM) : NUM :=
  if f32Mag x == 0 then 0x3F800000#32
  else match l with
    | .platform => Config.platformExp2 x
    | .correctlyRounded => f32Exp2CR x

/-- `pow`. In every library pow(x, 0) = 1 and pow(0, y) = 0 for y > 0 (R7); a NaN base, or a NaN exponent of a base
other than 1, gives a NaN (U5: a NaN gain makes the coefficients of PK NaN); and for y = +∞ the value is 1 at x = 1 and
+∞ at x > 1 (U5: an infinite exponent leaves partial 1 its gain 1 and gives the others gain 0). pow(1, NaN) is stated
nowhere (log 3). -/
def libPow (l : MathsLib) (x y : NUM) : NUM :=
  if f32Mag y == 0 then 0x3F800000#32
  else if f32IsNaN x then f32NaN x y
  else if f32IsNaN y then (if x == 0x3F800000#32 then Config.powUnstated x y else f32NaN x y)
  else if f32Mag x == 0 && f32Lt NUM.zero y then NUM.zero
  else if y == 0x7F800000#32 && x == 0x3F800000#32 then 0x3F800000#32
  else if y == 0x7F800000#32 && f32Lt 0x3F800000#32 x then y
  else match l with
    | .platform => Config.platformPow x y
    | .correctlyRounded => f32PowCR x y

/-- The binary32 instance of NUM with the given maths library (R7). -/
def binary32 (l : MathsLib) : Numerics where
  add := f32Add
  sub := f32Sub
  mul := f32Mul
  div := f32Div
  sqrt := f32Sqrt
  neg := f32Negate
  abs := f32Abs
  lt := f32Lt
  le := f32Le
  floor := f32Floor
  rat := f32OfRat
  pi := f32Pi
  sin := libSin l
  cos := libCos l
  exp2 := libExp2 l
  pow := libPow l

end Sys2Proof.Machine
end

