-- ==== Sys2Proof/Machine/Prims.lean ====
section
/-! DEFINITION. The NUM instance a configuration selects, and the pseudocode primitives of 00_scope.md R11 over it. -/

namespace Sys2Proof.Machine

/-- The NUM record of a selection (R7, U6; log 2). -/
def numericsOf : NumericsSel → Numerics
  | .binary32 l => binary32 l
  | .other => Config.otherNumerics

end Sys2Proof.Machine

namespace Sys2Proof

/-- The NUM record of a configuration. -/
def Cfg.nm (c : Cfg) : Numerics := Machine.numericsOf c.num

/-- An exact integer as a NUM value (R8). -/
def Numerics.ofInt (m : Numerics) (i : Int) : NUM := m.rat i 1
def Numerics.ofNat (m : Numerics) (n : Nat) : NUM := m.rat (n : Int) 1

/-- A NaN is what does not compare with itself (R11: every comparison with a NaN is false). -/
def Numerics.isNaN (m : Numerics) (x : NUM) : Bool := !m.le x x

/-- A finite value: x − x compares with itself, which it does not for a NaN or an infinity. -/
def Numerics.isFinite (m : Numerics) (x : NUM) : Bool := m.le (m.sub x x) (m.sub x x)

/-- `clamp(v, lo, hi)` (R11): a NaN `v` is returned unchanged. -/
def Numerics.clamp (m : Numerics) (v lo hi : NUM) : NUM :=
  if m.lt v lo then lo else if m.lt hi v then hi else v

/-- `max(a, b)` (R11): `a` if a > b, else `b`. -/
def Numerics.max (m : Numerics) (a b : NUM) : NUM := if m.lt b a then a else b

/-- `min(a, b)` (R11): `a` if a < b, else `b`. -/
def Numerics.min (m : Numerics) (a b : NUM) : NUM := if m.lt a b then a else b

/-- `frac(v)` = v − floor(v) (R11). -/
def Numerics.frac (m : Numerics) (v : NUM) : NUM := m.sub v (m.ofInt (m.floor v))

/-- `round_half_up(v)` = floor(v + 0.5) (R11). -/
def Numerics.roundHalfUp (m : Numerics) (v : NUM) : Int := m.floor (m.add v (m.rat 1 2))

/-- `floor(v)` where the rule needs a count; where the floor is negative the count is unstated (log 6). -/
def Numerics.floorNat (m : Numerics) (v : NUM) : Nat :=
  let z := m.floor v
  if 0 ≤ z then z.toNat else Config.countUnstated v

/-- The three cases of `wrap(v, C)` for a NUM v with −C ≤ v < 2C (R11). -/
def Numerics.wrapOnce (m : Numerics) (v c : NUM) : NUM :=
  if m.lt v NUM.zero then m.add v c
  else if m.le c v then m.sub v c
  else v

/-- `wrap(v, C)` for a NUM v with −C ≤ v < 2C (R11). A rounded result that reaches C is wrapped once more, so that a
pointer stays below C as R45 and R50 have it (log 8). Outside [−C, 2C) R11 states no value (log 7). -/
def Numerics.wrap (m : Numerics) (v c : NUM) : NUM :=
  if m.le (m.neg c) v && m.lt v (m.mul (m.ofNat 2) c) then
    let x := m.wrapOnce v c
    if m.le c x then m.sub x c else x
  else Config.wrapUnstated v c

/-- `wrap(v, C)` for an integer v: v mod C in [0, C) (R11). -/
def wrapInt (v : Int) (c : Nat) : Nat := (v % (c : Int)).toNat

end Sys2Proof
end

