-- ==== Sys2Proof/Machine/Operands.lean ====
section
/-! DEFINITION. Operand assembly: quantized values, the parameter table's descriptors, tags, RESOLVE and DISC, and the sizes a configuration gives (30_encoding.md R146, 47_parameter_interface.md section 1, 00_scope.md R6). -/

namespace Sys2Proof.Machine

/-! ### Quantized values -/

/-- `q_eff = min(q, 35)` (R146, R410). -/
def saturateQ (q : Nat) : Nat := Nat.min q QMAX

/-- A CC value rescaled to a quantized value: min(35, floor(d2 × 36 / 127)) in exact integers (R146, R453). -/
def ccQuantize (d2 : Nat) : Nat := Nat.min QMAX (d2 * 36 / 127)

/-! ### The descriptors -/

/-- The alphabet index of a tag (R403): '0'..'9' are 0..9 and 'a'..'z' are 10..35. -/
def tagIndex (t : Char) : Option Nat :=
  let k := t.toNat
  if 48 ≤ k ∧ k ≤ 57 then some (k - 48)
  else if 97 ≤ k ∧ k ≤ 122 then some (k - 97 + 10)
  else none

/-- The descriptor of an id, if the id is one of PTABLE's. -/
def descriptorOf (c : Cfg) (id : Nat) : Option Descriptor := c.ptable.find? (fun d => d.id == id)

/-- Is the id one of PTABLE's (R410, R412, R447)? -/
def knownId (c : Cfg) (id : Nat) : Bool := (descriptorOf c id).isSome

/-- The descriptor a CC index is bound to (R403, R453): indexes of 36 and above are never bound. -/
def ccBinding (c : Cfg) (k : Nat) : Option Descriptor :=
  if NSYM ≤ k then none else c.ptable.find? (fun d => tagIndex d.tag == some k)

/-- RESOLVE (R402): min + (q / 35)^skew × (max − min). -/
def resolve (m : Numerics) (d : Descriptor) (q : Nat) : NUM :=
  let t := m.div (m.ofNat q) (m.ofNat 35)
  m.add d.min (m.mul (m.pow t d.skew) (m.sub d.max d.min))

/-- DISC(v, lo, hi) = clamp(round_half_up(v), lo, hi), and `lo` for a NaN (R406). An infinity goes to the bound on its
side (U5): the comparisons with the bounds come first because an infinity has no integer floor. -/
def disc (m : Numerics) (v : NUM) (lo hi : Nat) : Nat :=
  if m.isNaN v then lo
  else if m.lt v (m.ofNat lo) then lo
  else if m.lt (m.ofNat hi) v then hi
  else
    let z := m.roundHalfUp v
    if z < (lo : Int) then lo else if (hi : Int) < z then hi else z.toNat

/-! ### Sizes and legality of a configuration -/

/-- The capacity of a ring buffer of maximum time `t` seconds: floor(FS × t) (R6, R320). A negative floor is no count of
samples and stands as 0, which is below the 16 that a legal configuration needs. -/
def capacityOf (c : Cfg) (t : NUM) : Nat := (c.nm.floor (c.nm.mul c.fs t)).toNat

/-- C_MAIN and C_REV (R6). -/
def cMain (c : Cfg) : Nat := capacityOf c c.delayMaxS
def cRev (c : Cfg) : Nat := capacityOf c c.revMaxS

/-- A delay in milliseconds as samples: ms / 1000 × FS (R6, R380, R560 step 9). -/
def msToSamples (c : Cfg) (ms : NUM) : NUM := c.nm.mul (c.nm.div ms (c.nm.ofNat 1000)) c.fs

/-- The largest delay of a ring buffer of capacity `cap`: the NUM value of C − 4 (R322, R323). -/
def maxDelay (m : Numerics) (cap : Nat) : NUM := m.ofInt ((cap : Int) - 4)

/-- Is a ring buffer of maximum time `t` large enough: floor(FS × t) ≥ 16 (R6)? A product that is a NaN or an infinity
has no floor (R7), so its capacity meets no bound (log 35). -/
def capacityLegal (c : Cfg) (t : NUM) : Bool := c.nm.isFinite (c.nm.mul c.fs t) && 16 ≤ capacityOf c t

/-- Is the configuration legal (R6)? A model refuses an illegal one. R5 describes the six base delays as distinct and of
about 10 to 50 ms and R6 lists no such bound: delays that are equal or lie outside are accepted (log 34). -/
def cfgLegal (c : Cfg) : Bool :=
  capacityLegal c c.delayMaxS && capacityLegal c c.revMaxS
  && c.reverbDelaysMs.length == NSTAGES
  && c.reverbDelaysMs.all (fun d => c.nm.le (msToSamples c d) (maxDelay c.nm (cRev c)))
  && c.nm.lt NUM.zero c.fs
  && c.nm.lt NUM.zero c.envMsMin && c.nm.le c.envMsMin c.envMsMax
  && 1 ≤ c.maxPartials
  && c.nm.isFinite c.fbScale
  && 1 ≤ c.n && 1 ≤ c.ch && 1 ≤ c.updDepth && 1 ≤ c.noteDepth
  && c.midiChannel < 16

end Sys2Proof.Machine
end

