-- ==== Sys2Proof/Machine/Memory.lean ====
section
/-! DEFINITION. The sample memory of a ring buffer (spec 20_memory.md R101): whole NUM elements by index, held sparsely in one canonical form (log 9). -/

namespace Sys2Proof.Machine

/-- The listed elements (index, value): indexes strictly rising, and no element equal to what an unlisted index
reads as. -/
abbrev Memory := List (Nat × NUM)

/-- What an unlisted index reads as: 0.0, the reset contents of BUF (R321). -/
def Memory.unlisted : NUM := NUM.zero

/-- `MemRead(rb, i)` (R101): no side effect. -/
def Memory.read : Memory → Nat → NUM
  | [], _ => Memory.unlisted
  | (j, x) :: rest, i => if i = j then x else Memory.read rest i

/-- An element in front of a list, unless it holds what an unlisted index reads as. -/
def Memory.consCell (i : Nat) (v : NUM) (rest : Memory) : Memory :=
  if v = Memory.unlisted then rest else (i, v) :: rest

/-- `MemWrite(rb, i, v)` (R101): changes one element. -/
def Memory.write : Memory → Nat → NUM → Memory
  | [], i, v => Memory.consCell i v []
  | (j, x) :: rest, i, v =>
    if i < j then Memory.consCell i v ((j, x) :: rest)
    else if i = j then Memory.consCell i v rest
    else (j, x) :: Memory.write rest i v

/-- Are the indexes strictly rising above `lo`, below `c`, and is no element the unlisted value? -/
def Memory.wfFrom (c : Nat) : Nat → Memory → Bool
  | _, [] => true
  | lo, (i, v) :: rest => lo ≤ i && i < c && v != Memory.unlisted && Memory.wfFrom c (i + 1) rest

/-- The canonical form of a sample memory of capacity `c`. -/
def Memory.wf (c : Nat) (m : Memory) : Bool := Memory.wfFrom c 0 m

end Sys2Proof.Machine
end

