-- ==== Sys2Proof/Machine/Units.lean ====
section
/-! DEFINITION. The registers of the block's units as records of plain data (spec 10_state.md R40 to R47). -/

namespace Sys2Proof.Machine

/-! ### Flag types (R33) -/

/-- `ENV_STATE[i]` (R41). -/
inductive EnvState where
  | off | attack | sustain | release
deriving DecidableEq, Repr

/-- `FLT_TYPE` (R44), codes 0..3. -/
inductive FilterType where
  | lp | hp | bp | pk
deriving DecidableEq, Repr

/-- `RB.INTERP` (R45), codes 0..2. -/
inductive Interp where
  | none | linear | allpass
deriving DecidableEq, Repr

/-- `DL_TOPO` (R46), codes 0..2. -/
inductive Topology where
  | plain | allpass | comb
deriving DecidableEq, Repr

/-! ### Units -/

/-- One voice (R41): `ENV_STATE[i]`, `ENV_VAL[i]`, `LAST_NOTE[i]`, `FREQ[i]`, `PHASE[i]`. -/
structure Voice where
  envState : EnvState
  envVal   : NUM
  lastNote : Option Nat
  freq     : NUM
  phase    : NUM
deriving DecidableEq, Repr

/-- The envelope registers all voices share (R42): `ENV_ATT_MS`, `ENV_REL_MS`, `ENV_INC`, `ENV_DEC`. -/
structure EnvRegs where
  attMs : NUM
  relMs : NUM
  inc   : NUM
  dec   : NUM
deriving DecidableEq, Repr

/-- The oscillator registers all voices share (R43): `OSC_SPACING`, `OSC_EXP`. -/
structure OscRegs where
  spacing  : Nat
  exponent : NUM
deriving DecidableEq, Repr

/-- The filter unit (R44): the parameters, the coefficient set and the three history samples. -/
structure Biquad where
  kind : FilterType
  fc   : NUM
  q    : NUM
  gdb  : NUM
  b0   : NUM
  b1   : NUM
  b2   : NUM
  a1   : NUM
  a2   : NUM
  z1   : NUM
  z2   : NUM
  fb   : NUM
deriving DecidableEq, Repr

/-- A ring buffer (R45). Its capacity C is configuration (R6) and is handed to the operations. -/
structure RingBuf where
  buf      : Memory
  w        : Nat
  r        : NUM
  step     : NUM
  act      : NUM
  goal     : NUM
  frozen   : Bool
  frzS     : Nat
  frzStart : Nat
  frzOff   : NUM
  rev      : Bool
  interp   : Interp
  apPrev   : NUM
deriving DecidableEq, Repr

/-- The main delay line (R46): `DL.RB`, `DL_FB`, `DL_MIX`, `DL_TOPO`. -/
structure DelayLine where
  rb   : RingBuf
  fb   : NUM
  mix  : NUM
  topo : Topology
deriving DecidableEq, Repr

/-- A reverb stage (R47): `RV[j].RB` and `RV_G[j]`; its topology is ALLPASS (R380). -/
structure Stage where
  rb : RingBuf
  g  : NUM
deriving DecidableEq, Repr

/-- The reverb (R47): the stages 0..5 in order, `RV_RT60`, `RV_MIX`. -/
structure Reverb where
  stages : List Stage
  rt60   : NUM
  mix    : NUM
deriving DecidableEq, Repr

/-- The state ENGINE alone reads and writes (R49): voice bank, filter, delay, reverb. -/
structure Engine where
  alloc  : List Nat
  voices : List Voice
  env    : EnvRegs
  osc    : OscRegs
  flt    : Biquad
  dl     : DelayLine
  rv     : Reverb
deriving DecidableEq, Repr

end Sys2Proof.Machine
end

