-- ==== Sys2Proof/Machine/Flags.lean ====
section
/-! DEFINITION. The values of the flag-type fields (10_state.md R33): how a resolved NUM value selects each of them (47_parameter_interface.md R406, R432 to R444), and the envelope's note transitions (42_envelope.md R221, R222). -/

namespace Sys2Proof.Machine

/-- The topology tag of a filter code (R437). -/
def filterTypeOfCode : Nat → FilterType
  | 0 => .lp
  | 1 => .hp
  | 2 => .bp
  | _ => .pk

/-- The interpolation mode of a code (R443). -/
def interpOfCode : Nat → Interp
  | 0 => .none
  | 1 => .linear
  | _ => .allpass

/-- The delay topology of a code (R444). -/
def topologyOfCode : Nat → Topology
  | 0 => .plain
  | 1 => .allpass
  | _ => .comb

/-- `OSC_SPACING <- DISC(v, 1, 2)` (R432). -/
def spacingFlag (m : Numerics) (v : NUM) : Nat := disc m v 1 2

/-- `(LP, HP, BP, PK)[DISC(v, 0, 3)]` (R437). -/
def filterTypeFlag (m : Numerics) (v : NUM) : FilterType := filterTypeOfCode (disc m v 0 3)

/-- `(NONE, LINEAR, ALLPASS)[DISC(v, 0, 2)]` (R443). -/
def interpFlag (m : Numerics) (v : NUM) : Interp := interpOfCode (disc m v 0 2)

/-- `(PLAIN, ALLPASS, COMB)[DISC(v, 0, 2)]` (R444). -/
def topologyFlag (m : Numerics) (v : NUM) : Topology := topologyOfCode (disc m v 0 2)

/-- `DISC(v, 0, 1) = 1`: the freeze flag (R441) and the reverse flag (R442). -/
def boolFlag (m : Numerics) (v : NUM) : Bool := disc m v 0 1 == 1

/-- ENV_NOTE_ON (R221): Attack from any state. -/
def envNoteOnState (_ : EnvState) : EnvState := .attack

/-- ENV_NOTE_OFF (R222): Attack and Sustain go to Release; Off and Release stay. -/
def envNoteOffState : EnvState → EnvState
  | .attack => .release
  | .sustain => .release
  | .off => .off
  | .release => .release

end Sys2Proof.Machine
end

