-- ==== Sys2Proof/Machine/Filter.lean ====
section
/-! DEFINITION. The biquad filter (44_biquad.md). -/

namespace Sys2Proof.Machine

/-- `clamp(v, 1, 0.49 × FS)` (R281). -/
def legalCutoff (c : Cfg) (v : NUM) : NUM := c.nm.clamp v (c.nm.ofNat 1) (c.nm.mul (c.nm.rat 49 100) c.fs)

/-- `clamp(v, 0.01, 1000)` (R281). -/
def legalResonance (c : Cfg) (v : NUM) : NUM := c.nm.clamp v (c.nm.rat 1 100) (c.nm.ofNat 1000)

/-- `clamp(v, −120, 120)` (R436). -/
def legalGainDb (c : Cfg) (v : NUM) : NUM := c.nm.clamp v (c.nm.ofInt (-120)) (c.nm.ofNat 120)

/-- The numerator and denominator of a topology before normalisation. -/
structure RawCoeffs where
  b0 : NUM
  b1 : NUM
  b2 : NUM
  a0 : NUM
  a1 : NUM
  a2 : NUM
deriving DecidableEq, Repr

/-- The closed forms R283 to R286 from cos w, alpha and A. -/
def rawCoeffs (m : Numerics) (kind : FilterType) (cs alpha a : NUM) : RawCoeffs :=
  let one := m.ofNat 1
  let two := m.ofNat 2
  let m2cs := m.mul (m.ofInt (-2)) cs
  match kind with
  | .lp =>
    { b0 := m.div (m.sub one cs) two, b1 := m.sub one cs, b2 := m.div (m.sub one cs) two,
      a0 := m.add one alpha, a1 := m2cs, a2 := m.sub one alpha }
  | .hp =>
    { b0 := m.div (m.add one cs) two, b1 := m.neg (m.add one cs), b2 := m.div (m.add one cs) two,
      a0 := m.add one alpha, a1 := m2cs, a2 := m.sub one alpha }
  | .bp =>
    { b0 := alpha, b1 := m.ofNat 0, b2 := m.neg alpha,
      a0 := m.add one alpha, a1 := m2cs, a2 := m.sub one alpha }
  | .pk =>
    { b0 := m.add one (m.mul alpha a), b1 := m2cs, b2 := m.sub one (m.mul alpha a),
      a0 := m.add one (m.div alpha a), a1 := m2cs, a2 := m.sub one (m.div alpha a) }

/-- BQ_COEFFS (R282): only the five coefficients change. -/
def bqCoeffs (c : Cfg) (f : Biquad) : Biquad :=
  let m := c.nm
  let w := m.div (m.mul (m.mul (m.ofNat 2) m.pi) f.fc) c.fs
  let alpha := m.div (m.sin w) (m.mul (m.ofNat 2) f.q)
  let a := m.pow (m.ofNat 10) (m.div f.gdb (m.ofNat 40))
  let k := rawCoeffs m f.kind (m.cos w) alpha a
  { f with
    b0 := m.div k.b0 k.a0
    b1 := m.div k.b1 k.a0
    b2 := m.div k.b2 k.a0
    a1 := m.div k.a1 k.a0
    a2 := m.div k.a2 k.a0 }

/-- `clamp(v, −100, 100)`: the clamp on a history tap (R290). -/
def clampTap (m : Numerics) (v : NUM) : NUM := m.clamp v (m.ofInt (-100)) (m.ofNat 100)

/-- The resonance feedback term t = clamp(FB_SCALE × FLT_Q × FLT_FB, −4.5, 4.5) (R290). -/
def feedbackTerm (c : Cfg) (f : Biquad) : NUM :=
  c.nm.clamp (c.nm.mul (c.nm.mul c.fbScale f.q) f.fb) (c.nm.rat (-9) 2) (c.nm.rat 9 2)

/-- The filter's input u = clamp(x + t, −5, 5) (R290). -/
def filterInput (c : Cfg) (f : Biquad) (x : NUM) : NUM :=
  c.nm.clamp (c.nm.add x (feedbackTerm c f)) (c.nm.ofInt (-5)) (c.nm.ofNat 5)

/-- BQ_PROCESS(x) (R290): transposed direct form II with clamped taps. -/
def bqProcess (c : Cfg) (f : Biquad) (x : NUM) : NUM × Biquad :=
  let m := c.nm
  let u := filterInput c f x
  let y := m.add (m.mul f.b0 u) f.z1
  (y, { f with
    z1 := clampTap m (m.add (m.sub (m.mul f.b1 u) (m.mul f.a1 y)) f.z2)
    z2 := clampTap m (m.sub (m.mul f.b2 u) (m.mul f.a2 y))
    fb := y })

end Sys2Proof.Machine
end

