-- ==== Sys2Proof/Machine/RingBuffer.lean ====
section
/-! DEFINITION. The ring buffer and the delay line (45_ring_buffer_delay.md). The capacity C is an argument of every operation (R320). -/

namespace Sys2Proof.Machine

/-! ### Construction and setters -/

/-- The raw reset state of a ring buffer of capacity `cap` (R321). -/
def ringRaw (m : Numerics) (cap : Nat) : RingBuf where
  buf := []
  w := 0
  r := NUM.zero
  step := m.ofNat 1
  act := m.ofNat cap
  goal := m.ofNat cap
  frozen := false
  frzS := 0
  frzStart := 0
  frzOff := NUM.zero
  rev := false
  interp := .none
  apPrev := NUM.zero

/-- A delay in samples clamped to [4, C − 4] (R322, R323). -/
def clampDelay (m : Numerics) (cap : Nat) (g : NUM) : NUM := m.clamp g (m.ofNat 4) (maxDelay m cap)

/-- The read pointer a delay puts behind the write pointer: wrap(W − ACT, C) (R322, R332, R333). -/
def readBehind (m : Numerics) (cap : Nat) (rb : RingBuf) (act : NUM) : NUM :=
  m.wrap (m.sub (m.ofNat rb.w) act) (m.ofNat cap)

/-- RB_INIT(g) (R322). -/
def ringInit (m : Numerics) (cap : Nat) (g : NUM) (rb : RingBuf) : RingBuf :=
  let goal := clampDelay m cap g
  { rb with goal := goal, act := goal, r := readBehind m cap rb goal, step := m.ofNat 1 }

/-- RB_SET_GOAL(t) (R323): only the goal changes. -/
def ringSetGoal (m : Numerics) (cap : Nat) (fs t : NUM) (rb : RingBuf) : RingBuf :=
  { rb with goal := clampDelay m cap (m.mul t fs) }

/-- RB_FREEZE (R331): no effect on a frozen buffer. -/
def ringFreeze (m : Numerics) (cap : Nat) (rb : RingBuf) : RingBuf :=
  if rb.frozen then rb
  else
    let size := m.floorNat rb.act
    let start := wrapInt ((rb.w : Int) - (size : Int)) cap
    { rb with frzS := size, frzStart := start, frzOff := NUM.zero, r := m.ofNat start, frozen := true }

/-- RB_UNFREEZE (R332): no effect on a buffer that is not frozen. -/
def ringUnfreeze (m : Numerics) (cap : Nat) (rb : RingBuf) : RingBuf :=
  if rb.frozen then { rb with frozen := false, r := readBehind m cap rb rb.act } else rb

/-- RB_SET_REVERSE(b) (R333). -/
def ringSetReverse (m : Numerics) (cap : Nat) (b : Bool) (rb : RingBuf) : RingBuf :=
  if rb.rev && !b && !rb.frozen then { rb with r := readBehind m cap rb rb.act, rev := b }
  else { rb with rev := b }

/-- RB_SET_INTERP(m) (R334). -/
def ringSetInterp (i : Interp) (rb : RingBuf) : RingBuf := { rb with interp := i }

/-! ### One tick -/

/-- The read neighbours and the fraction (R328): `(i0, i1, f)`. Every index is reduced by wrap(·, C) (R101; log 8). -/
def ringNeighbours (m : Numerics) (cap : Nat) (rb : RingBuf) : Nat × Nat × NUM :=
  if rb.frozen then
    let o := m.floor rb.frzOff
    (wrapInt ((rb.frzStart : Int) + o) cap,
     wrapInt ((rb.frzStart : Int) + (wrapInt (o + 1) rb.frzS : Int)) cap,
     m.sub rb.frzOff (m.ofInt o))
  else
    let i := m.floor rb.r
    (wrapInt i cap, wrapInt (i + 1) cap, m.sub rb.r (m.ofInt i))

/-- The interpolated value of two neighbours (R325, R326, R327). -/
def interpolate (m : Numerics) (mode : Interp) (x0 x1 f apPrev : NUM) : NUM :=
  match mode with
  | .none => x0
  | .linear => m.add (m.mul (m.sub (m.ofNat 1) f) x0) (m.mul f x1)
  | .allpass =>
    let eta := m.div f (m.sub (m.ofNat 2) f)
    m.sub (m.add (m.mul eta x1) x0) (m.mul eta apPrev)

/-- The raw value at the read pointer (R328). -/
def ringInterpolated (m : Numerics) (cap : Nat) (rb : RingBuf) : NUM :=
  let p := ringNeighbours m cap rb
  interpolate m rb.interp (rb.buf.read p.1) (rb.buf.read p.2.1) p.2.2 rb.apPrev

/-- RB_READ (R328): the value read, compensated while frozen with a servo step below 1, and the buffer with `AP_PREV`
updated. -/
def ringRead (m : Numerics) (cap : Nat) (rb : RingBuf) : NUM × RingBuf :=
  let raw := ringInterpolated m cap rb
  (if rb.frozen && m.lt rb.step (m.ofNat 1) then m.div raw (m.pow rb.step (m.rat 3 2)) else raw,
   { rb with apPrev := raw })

/-- RB_WRITE(v) (R329): suppressed while frozen. -/
def ringWrite (cap : Nat) (v : NUM) (rb : RingBuf) : RingBuf :=
  if rb.frozen then rb
  else { rb with buf := rb.buf.write (wrapInt rb.w cap) v, w := wrapInt ((rb.w : Int) + 1) cap }

/-- RB_SERVO (R324). -/
def ringServo (m : Numerics) (rb : RingBuf) : RingBuf :=
  if m.le (m.abs (m.sub rb.act rb.goal)) (m.ofNat 5) then { rb with step := m.ofNat 1 }
  else if m.lt rb.goal rb.act then { rb with step := m.rat 3 2, act := m.sub rb.act (m.rat 1 2) }
  else { rb with step := m.rat 1 2, act := m.add rb.act (m.rat 1 2) }

/-- RB_ADVANCE_READ (R330). -/
def ringAdvance (m : Numerics) (cap : Nat) (rb : RingBuf) : RingBuf :=
  let s := if rb.rev then m.neg rb.step else rb.step
  if rb.frozen then
    let off := m.wrap (m.add rb.frzOff s) (m.ofNat rb.frzS)
    { rb with frzOff := off, r := m.wrap (m.add (m.ofNat rb.frzStart) off) (m.ofNat cap) }
  else { rb with r := m.wrap (m.add rb.r s) (m.ofNat cap) }

/-- RB_TICK(v) (R335): write, servo, advance. -/
def ringTick (m : Numerics) (cap : Nat) (v : NUM) (rb : RingBuf) : RingBuf :=
  ringAdvance m cap (ringServo m (ringWrite cap v rb))

/-! ### Delay line -/

/-- XFADE(dry, wet, m) (R340). -/
def xfade (m : Numerics) (dry wet mix : NUM) : NUM :=
  let mm := m.clamp mix (m.ofNat 0) (m.ofNat 1)
  m.add (m.mul (m.sqrt (m.sub (m.ofNat 1) mm)) dry) (m.mul (m.sqrt mm) wet)

/-- The output of a topology from the input, the delayed value, the feedback and the mix (R337 to R339). -/
def topologyOut (m : Numerics) (topo : Topology) (x d fb mix : NUM) : NUM :=
  match topo with
  | .plain => xfade m x d mix
  | .allpass => m.sub d (m.mul x fb)
  | .comb => d

/-- DL_PROCESS(x) on a ring buffer with feedback `fb`, mix `mix` and topology `topo` (R336). -/
def dlProcess (m : Numerics) (cap : Nat) (topo : Topology) (fb mix x : NUM) (rb : RingBuf) : NUM × RingBuf :=
  let rd := ringRead m cap rb
  (topologyOut m topo x rd.1 fb mix, ringTick m cap (m.add x (m.mul rd.1 fb)) rd.2)

end Sys2Proof.Machine
end

