-- ==== Sys2Proof/Machine/Voices.lean ====
section
/-! DEFINITION. The voice bank: allocator (41_voice_allocator.md), envelope (42_envelope.md), oscillator (43_oscillator.md), voice gate, voice output and mixer (48_engine_render.md R462 to R464). -/

namespace Sys2Proof.Machine

/-! ### Allocator -/

/-- ADD_NOTE(n) on an allocator of capacity `cap` (R200). -/
def addNote (cap n : Nat) (alloc : List Nat) : List Nat :=
  if n ∈ alloc then alloc
  else (if alloc.length = cap then alloc.tail else alloc) ++ [n]

/-- REMOVE_NOTE(n) (R201). -/
def removeNote (n : Nat) (alloc : List Nat) : List Nat := alloc.filter (fun m => m != n)

/-- VOICE_NOTE(i) (R202). -/
def voiceNote (alloc : List Nat) (i : Nat) : Option Nat := alloc[i]?

/-! ### Envelope -/

/-- The increment of a time in milliseconds: 1 / ((FS / 1000) × clamp(ms, ENV_MS_MIN, ENV_MS_MAX)) (R220). -/
def envIncrement (c : Cfg) (ms : NUM) : NUM :=
  let m := c.nm
  m.div (m.ofNat 1) (m.mul (m.div c.fs (m.ofNat 1000)) (m.clamp ms c.envMsMin c.envMsMax))

/-- ENV_NOTE_ON(i) (R221): the value is kept. -/
def envNoteOn (v : Voice) : Voice := { v with envState := envNoteOnState v.envState }

/-- ENV_NOTE_OFF(i) (R222): the value is kept. -/
def envNoteOff (v : Voice) : Voice := { v with envState := envNoteOffState v.envState }

/-- ENV_PROCESS(i) (R223): the voice after this frame's update; its `envVal` is what the rule returns. -/
def envProcess (m : Numerics) (regs : EnvRegs) (v : Voice) : Voice :=
  match v.envState with
  | .off => v
  | .attack =>
    let x := m.add v.envVal regs.inc
    if m.le (m.ofNat 1) x then { v with envVal := m.ofNat 1, envState := .sustain } else { v with envVal := x }
  | .sustain => v
  | .release =>
    let x := m.sub v.envVal regs.dec
    if m.le x (m.ofNat 0) then { v with envVal := m.ofNat 0, envState := .off } else { v with envVal := x }

/-! ### Oscillator -/

/-- MTOF(n) = 440 × exp2((n − 69) / 12) (R250). -/
def mtof (m : Numerics) (n : Nat) : NUM :=
  m.mul (m.ofNat 440) (m.exp2 (m.div (m.ofInt ((n : Int) - 69)) (m.ofNat 12)))

/-- The harmonic multiplier k_j = 1 + j × OSC_SPACING (R251). -/
def multiplier (spacing j : Nat) : Nat := 1 + j * spacing

/-- The gain g = 1 / pow(k, OSC_EXP) (R251, R253). -/
def partialGain (m : Numerics) (k : Nat) (e : NUM) : NUM := m.div (m.ofNat 1) (m.pow (m.ofNat k) e)

/-- One partial's term g × sin(2 × PI × frac(k × PHASE)) (R253). -/
def partialTerm (m : Numerics) (k : Nat) (phase e : NUM) : NUM :=
  m.mul (partialGain m k e)
    (m.sin (m.mul (m.mul (m.ofNat 2) m.pi) (m.frac (m.mul (m.ofNat k) phase))))

/-- Does partial `j` fail the anti-aliasing guard: FREQ × k > FS / 2 (R252, R253)? -/
def aboveNyquist (m : Numerics) (fs freq : NUM) (k : Nat) : Bool :=
  m.lt (m.div fs (m.ofNat 2)) (m.mul freq (m.ofNat k))

/-- The loop of OSC_PROCESS (R253): from partial `j`, with the partials still allowed by MAX_PARTIALS, the running sum
and the count. -/
def oscLoop (m : Numerics) (fs freq phase e : NUM) (spacing : Nat) : Nat → Nat → NUM → Nat → NUM × Nat
  | 0, _, sum, count => (sum, count)
  | fuel + 1, j, sum, count =>
    let k := multiplier spacing j
    if aboveNyquist m fs freq k then (sum, count)
    else oscLoop m fs freq phase e spacing fuel (j + 1) (m.add sum (partialTerm m k phase e)) (count + 1)

/-- The reference normalisation: the sum of the first `count` gains, in increasing order from +0.0 (R256, R9). -/
def sumOfGains (m : Numerics) (e : NUM) (spacing : Nat) : Nat → NUM
  | 0 => NUM.zero
  | count + 1 => m.add (sumOfGains m e spacing count) (partialGain m (multiplier spacing count) e)

/-- `osc_norm(count, e, s)`, the configuration's function (R256). -/
def oscNorm (c : Cfg) (count : Nat) (e : NUM) (spacing : Nat) : NUM :=
  match c.oscNorm with
  | .sumOfGains => sumOfGains c.nm e spacing count
  | .other => Config.otherOscNorm count e spacing

/-- The sample of OSC_PROCESS(i) (R253): +0.0 when no partial is included. -/
def oscSample (c : Cfg) (osc : OscRegs) (freq phase : NUM) : NUM :=
  let r := oscLoop c.nm c.fs freq phase osc.exponent osc.spacing c.maxPartials 0 NUM.zero 0
  if r.2 = 0 then NUM.zero else c.nm.div r.1 (oscNorm c r.2 osc.exponent osc.spacing)

/-- PHASE_ADVANCE(i): frac(PHASE + FREQ / FS) (R255). -/
def phaseAdvance (c : Cfg) (v : Voice) : NUM := c.nm.frac (c.nm.add v.phase (c.nm.div v.freq c.fs))

/-! ### Voice gate, voice output, mixer -/

/-- VOICE_GATE(i) (R462): edge detection on the voice's note. -/
def voiceGate (m : Numerics) (cur : Option Nat) (v : Voice) : Voice :=
  match cur with
  | some n =>
    let v1 := if v.lastNote = some n then v else envNoteOn v
    { v1 with freq := mtof m n, lastNote := some n }
  | none =>
    let v1 := if v.lastNote = none then v else envNoteOff v
    { v1 with lastNote := none }

/-- VOICE_OUT(i) (R463): the envelope runs in every voice; a voice without a note contributes nothing and its
oscillator does not run. -/
def voiceOut (c : Cfg) (env : EnvRegs) (osc : OscRegs) (cur : Option Nat) (v : Voice) : Option NUM × Voice :=
  let v1 := envProcess c.nm env v
  match cur with
  | none => (none, v1)
  | some _ =>
    (some (c.nm.mul (oscSample c osc v1.freq v1.phase) v1.envVal), { v1 with phase := phaseAdvance c v1 })

/-- The voices from voice `i` on (R464): gate, output, running sum in increasing voice index. -/
def mixVoices (c : Cfg) (env : EnvRegs) (osc : OscRegs) (alloc : List Nat) : Nat → NUM → List Voice → NUM × List Voice
  | _, acc, [] => (acc, [])
  | i, acc, v :: vs =>
    let cur := voiceNote alloc i
    let o := voiceOut c env osc cur (voiceGate c.nm cur v)
    let acc' := match o.1 with
      | none => acc
      | some x => c.nm.add acc x
    let rest := mixVoices c env osc alloc (i + 1) acc' vs
    (rest.1, o.2 :: rest.2)

end Sys2Proof.Machine
end

