-- ==== Sys2Proof/Machine/EngineUnits.lean ====
section
/-! DEFINITION. The reverb (46_reverb.md), the frame chain (48_engine_render.md R464, R465), and the engine field each parameter id writes (47_parameter_interface.md R430 to R446). -/

namespace Sys2Proof.Machine

/-! ### Reverb -/

/-- The gain of a stage of base delay `ms`: pow(10, −60 × d / (RT60 × 20)) with d = ms / 1000 (R381). -/
def stageGain (m : Numerics) (rt60 ms : NUM) : NUM :=
  let d := m.div ms (m.ofNat 1000)
  m.pow (m.ofNat 10) (m.div (m.mul (m.ofInt (-60)) d) (m.mul rt60 (m.ofNat 20)))

/-- The stages with the gain of each from its base delay, in order (R381). -/
def setStageGains (m : Numerics) (rt60 : NUM) : List NUM → List Stage → List Stage
  | ms :: delays, st :: stages => { st with g := stageGain m rt60 ms } :: setStageGains m rt60 delays stages
  | _, stages => stages

/-- RV_SET_RT60(t) (R381). -/
def rvSetRt60 (c : Cfg) (t : NUM) (rv : Reverb) : Reverb :=
  let rt60 := c.nm.max t (c.nm.rat 1 1000)
  { rv with rt60 := rt60, stages := setStageGains c.nm rt60 c.reverbDelaysMs rv.stages }

/-- RV_SET_MIX(v) (R383). -/
def rvSetMix (m : Numerics) (v : NUM) (rv : Reverb) : Reverb :=
  { rv with mix := m.clamp v (m.ofNat 0) (m.ofNat 1) }

/-- The stages in series, each output attenuated by 0.5 (R382). -/
def runStages (m : Numerics) (cap : Nat) : NUM → List Stage → NUM × List Stage
  | s, [] => (s, [])
  | s, st :: stages =>
    let p := dlProcess m cap .allpass st.g NUM.zero s st.rb
    let rest := runStages m cap (m.mul (m.rat 1 2) p.1) stages
    (rest.1, { st with rb := p.2 } :: rest.2)

/-- RV_PROCESS(x) (R382). -/
def rvProcess (m : Numerics) (cap : Nat) (x : NUM) (rv : Reverb) : NUM × Reverb :=
  let p := runStages m cap x rv.stages
  (xfade m x p.1 rv.mix, { rv with stages := p.2 })

/-! ### The frame -/

/-- MIX (R464): MIX_GAIN × the voice sum, and the voices after the frame. -/
def mix (c : Cfg) (e : Engine) : NUM × List Voice :=
  let p := mixVoices c e.env e.osc e.alloc 0 NUM.zero e.voices
  (c.nm.mul c.mixGain p.1, p.2)

/-- FRAME() (R465): voices, filter, delay, reverb. -/
def frame (c : Cfg) (e : Engine) : NUM × Engine :=
  let mx := mix c e
  let y1 := bqProcess c e.flt mx.1
  let y2 := dlProcess c.nm (cMain c) e.dl.topo e.dl.fb e.dl.mix y1.1 e.dl.rb
  let y3 := rvProcess c.nm (cRev c) y2.1 e.rv
  (y3.1, { e with voices := mx.2, flt := y1.2, dl := { e.dl with rb := y2.2 }, rv := y3.2 })

/-- `b` frames, in order (R460): the values emitted and the engine after them. -/
def frames (c : Cfg) : Nat → Engine → List NUM × Engine
  | 0, e => ([], e)
  | b + 1, e =>
    let p := frame c e
    let rest := frames c b p.2
    (p.1 :: rest.1, rest.2)

/-! ### The engine field of each parameter id -/

/-- R430. -/
def setAttackMs (c : Cfg) (v : NUM) (e : Engine) : Engine :=
  { e with env := { e.env with attMs := v, inc := envIncrement c v } }

/-- R431. -/
def setReleaseMs (c : Cfg) (v : NUM) (e : Engine) : Engine :=
  { e with env := { e.env with relMs := v, dec := envIncrement c v } }

/-- R432. -/
def setHarmSpacing (c : Cfg) (v : NUM) (e : Engine) : Engine :=
  { e with osc := { e.osc with spacing := spacingFlag c.nm v } }

/-- R433. -/
def setHarmExponent (c : Cfg) (v : NUM) (e : Engine) : Engine :=
  { e with osc := { e.osc with exponent := c.nm.max v (c.nm.ofNat 0) } }

/-- R434, the register alone. -/
def setFilterCutoff (c : Cfg) (v : NUM) (e : Engine) : Engine :=
  { e with flt := { e.flt with fc := legalCutoff c v } }

/-- R435, the register alone. -/
def setFilterResonance (c : Cfg) (v : NUM) (e : Engine) : Engine :=
  { e with flt := { e.flt with q := legalResonance c v } }

/-- R436, the register alone. -/
def setFilterGainDb (c : Cfg) (v : NUM) (e : Engine) : Engine :=
  { e with flt := { e.flt with gdb := legalGainDb c v } }

/-- R437, the register alone. -/
def setFilterType (c : Cfg) (v : NUM) (e : Engine) : Engine :=
  { e with flt := { e.flt with kind := filterTypeFlag c.nm v } }

/-- BQ_COEFFS on the engine's filter (R287). -/
def recomputeFilter (c : Cfg) (e : Engine) : Engine := { e with flt := bqCoeffs c e.flt }

/-- R438. -/
def setDelayTime (c : Cfg) (v : NUM) (e : Engine) : Engine :=
  { e with dl := { e.dl with rb := ringSetGoal c.nm (cMain c) c.fs v e.dl.rb } }

/-- R439: unclamped. -/
def setDelayFeedback (v : NUM) (e : Engine) : Engine := { e with dl := { e.dl with fb := v } }

/-- R440. -/
def setDelayMix (c : Cfg) (v : NUM) (e : Engine) : Engine :=
  { e with dl := { e.dl with mix := c.nm.clamp v (c.nm.ofNat 0) (c.nm.ofNat 1) } }

/-- R441. -/
def setDelayFreeze (c : Cfg) (v : NUM) (e : Engine) : Engine :=
  { e with dl := { e.dl with
    rb := if boolFlag c.nm v then ringFreeze c.nm (cMain c) e.dl.rb else ringUnfreeze c.nm (cMain c) e.dl.rb } }

/-- R442. -/
def setDelayReverse (c : Cfg) (v : NUM) (e : Engine) : Engine :=
  { e with dl := { e.dl with rb := ringSetReverse c.nm (cMain c) (boolFlag c.nm v) e.dl.rb } }

/-- R443. -/
def setDelayInterp (c : Cfg) (v : NUM) (e : Engine) : Engine :=
  { e with dl := { e.dl with rb := ringSetInterp (interpFlag c.nm v) e.dl.rb } }

/-- R444. -/
def setDelayTopology (c : Cfg) (v : NUM) (e : Engine) : Engine :=
  { e with dl := { e.dl with topo := topologyFlag c.nm v } }

/-- R445. -/
def setReverbRt60 (c : Cfg) (v : NUM) (e : Engine) : Engine := { e with rv := rvSetRt60 c v e.rv }

/-- R446. -/
def setReverbMix (c : Cfg) (v : NUM) (e : Engine) : Engine := { e with rv := rvSetMix c.nm v e.rv }

end Sys2Proof.Machine
end

