-- ==== Sys2Proof/Machine/Reference.lean ====
section
/-! DEFINITION. The reference configuration: the reference values of 00_scope.md R5 and the reference parameter table of 47_parameter_interface.md R401. No rule reads them: every rule reads the configuration in the state. -/

namespace Sys2Proof.Machine

/-- The reference PTABLE (R401): id, name, tag, min, max, skew, default q. -/
def referenceTable : List Descriptor :=
  [ ⟨0, "ATTACK_MS", '0', f32OfRat 1 1, f32OfRat 2000 1, f32OfRat 2 1, 5⟩
  , ⟨1, "RELEASE_MS", '1', f32OfRat 1 1, f32OfRat 4000 1, f32OfRat 2 1, 10⟩
  , ⟨2, "HARM_SPACING", '2', f32OfRat 1 1, f32OfRat 2 1, f32OfRat 1 1, 0⟩
  , ⟨3, "HARM_EXPONENT", '3', f32OfRat 0 1, f32OfRat 7 2, f32OfRat 1 1, 10⟩
  , ⟨4, "FILTER_CUTOFF", '4', f32OfRat 20 1, f32OfRat 20000 1, f32OfRat 3 1, 35⟩
  , ⟨5, "FILTER_RESONANCE", '5', f32OfRat 1 2, f32OfRat 10 1, f32OfRat 2 1, 5⟩
  , ⟨6, "FILTER_GAIN_DB", '6', f32OfRat (-24) 1, f32OfRat 18 1, f32OfRat 1 1, 20⟩
  , ⟨7, "FILTER_TYPE", '7', f32OfRat 0 1, f32OfRat 3 1, f32OfRat 1 1, 0⟩
  , ⟨8, "DELAY_TIME_S", '8', f32OfRat 1 100, f32OfRat 2 1, f32OfRat 2 1, 14⟩
  , ⟨9, "DELAY_FEEDBACK", '9', f32OfRat 0 1, f32OfRat 95 100, f32OfRat 1 1, 14⟩
  , ⟨10, "DELAY_MIX", 'a', f32OfRat 0 1, f32OfRat 1 1, f32OfRat 1 1, 0⟩
  , ⟨11, "DELAY_FREEZE", 'b', f32OfRat 0 1, f32OfRat 1 1, f32OfRat 1 1, 0⟩
  , ⟨12, "DELAY_REVERSE", 'c', f32OfRat 0 1, f32OfRat 1 1, f32OfRat 1 1, 0⟩
  , ⟨13, "DELAY_INTERP", 'd', f32OfRat 0 1, f32OfRat 2 1, f32OfRat 1 1, 17⟩
  , ⟨14, "DELAY_TOPOLOGY", 'e', f32OfRat 0 1, f32OfRat 2 1, f32OfRat 1 1, 0⟩
  , ⟨15, "REVERB_RT60_S", 'f', f32OfRat 1 10, f32OfRat 10 1, f32OfRat 2 1, 14⟩
  , ⟨16, "REVERB_MIX", 'g', f32OfRat 0 1, f32OfRat 1 1, f32OfRat 1 1, 0⟩ ]

/-- The reference CFG (R5). NUM is binary32 with the evaluation that R401 and R561 give their numbers for (log 3). -/
def referenceCfg : Cfg where
  fs := f32OfRat 48000 1
  n := 8
  ch := 2
  midiChannel := 0
  ptable := referenceTable
  envMsMin := f32OfRat 1 1
  envMsMax := f32OfRat 5000 1
  maxPartials := 4096
  oscNorm := .sumOfGains
  fbScale := f32OfRat 5 100
  delayMaxS := f32OfRat 2 1
  revMaxS := f32OfRat 1 10
  reverbDelaysMs := [f32OfRat 113 10, f32OfRat 179 10, f32OfRat 231 10, f32OfRat 317 10, f32OfRat 419 10, f32OfRat 493 10]
  updDepth := 64
  noteDepth := 64
  unknownId := .fault
  mixGain := f32OfRat 1 8
  num := .binary32 .correctlyRounded

end Sys2Proof.Machine
end

