-- ==== Sys2Proof/Machine/Construct.lean ====
section
/-! DEFINITION. Construction, the block's only reset (70_reset_and_hazards.md R560): the checks, and the engine it builds. -/

namespace Sys2Proof.Machine

/-- The numeric code of a fault (R500). -/
def faultNumber : FaultCode → Nat
  | .noAudioDevice => 0x01
  | .noMidiPort => 0x02
  | .unsupportedFormat => 0x03
  | .dupId => 0x04
  | .dupTag => 0x05
  | .unknownId => 0x06
  | .invalidDescriptor => 0x07

/-! ### Step 2 and 3: the checks -/

/-- Is a descriptor one that F_INVALID_DESCRIPTOR names: skew ≤ 0, min > max, default q above 35, or a tag outside the
alphabet (R404)? -/
def descriptorBad (m : Numerics) (d : Descriptor) : Bool :=
  m.le d.skew (m.ofNat 0) || m.lt d.max d.min || QMAX < d.defaultQ || (tagIndex d.tag).isNone

/-- Are the ids exactly 0..16 (R404)? -/
def idsExact (ids : List Nat) : Bool :=
  (List.range (MAX_ID + 1)).all (fun k => ids.contains k) && ids.all (fun k => k ≤ MAX_ID)

/-- VALIDATE_TABLE (R404): the first check that fails names the fault. -/
def validateTable (c : Cfg) : Option FaultCode :=
  let ids := c.ptable.map (fun d => d.id)
  if !decide ids.Nodup then some .dupId
  else if !decide (c.ptable.map (fun d => d.tag)).Nodup then some .dupTag
  else if !idsExact ids || c.ptable.any (descriptorBad c.nm) then some .invalidDescriptor
  else none

/-- The environment check, in the order of R502 and R560 step 3. -/
def validateEnv (env : Env) : Option FaultCode :=
  if !env.audioDevice then some .noAudioDevice
  else if !env.formatOk then some .unsupportedFormat
  else if !env.midiPort then some .noMidiPort
  else none

/-! ### Steps 5 to 9: the engine -/

/-- A voice at reset (R41). -/
def voiceReset : Voice where
  envState := .off
  envVal := NUM.zero
  lastNote := none
  freq := NUM.zero
  phase := NUM.zero

/-- The engine after steps 5 to 7. The registers that step 8 writes hold 0.0 until then. -/
def engineRaw (c : Cfg) : Engine where
  alloc := []
  voices := List.replicate c.n voiceReset
  env := { attMs := NUM.zero, relMs := NUM.zero, inc := NUM.zero, dec := NUM.zero }
  osc := { spacing := 1, exponent := NUM.zero }
  flt := { kind := .lp, fc := NUM.zero, q := NUM.zero, gdb := NUM.zero, b0 := NUM.zero, b1 := NUM.zero, b2 := NUM.zero,
           a1 := NUM.zero, a2 := NUM.zero, z1 := NUM.zero, z2 := NUM.zero, fb := NUM.zero }
  dl := { rb := ringRaw c.nm (cMain c), fb := NUM.zero, mix := NUM.zero, topo := .plain }
  rv := { stages := List.replicate NSTAGES { rb := ringRaw c.nm (cRev c), g := NUM.zero }, rt60 := NUM.zero, mix := NUM.zero }

/-- The resolved default of an id (R560 step 8). VALIDATE_TABLE has made sure that the id has a descriptor. -/
def resolvedDefault (c : Cfg) (id : Nat) : NUM :=
  match descriptorOf c id with
  | some d => resolve c.nm d d.defaultQ
  | none => NUM.zero

/-- Step 8 for one id: RB_INIT for the delay time, else APPLY without its BQ_COEFFS (R560). -/
def applyDefault (c : Cfg) (id : Nat) (v : NUM) (e : Engine) : Engine :=
  match id with
  | 0 => setAttackMs c v e
  | 1 => setReleaseMs c v e
  | 2 => setHarmSpacing c v e
  | 3 => setHarmExponent c v e
  | 4 => setFilterCutoff c v e
  | 5 => setFilterResonance c v e
  | 6 => setFilterGainDb c v e
  | 7 => setFilterType c v e
  | 8 => { e with dl := { e.dl with rb := ringInit c.nm (cMain c) (c.nm.mul v c.fs) e.dl.rb } }
  | 9 => setDelayFeedback v e
  | 10 => setDelayMix c v e
  | 11 => setDelayFreeze c v e
  | 12 => setDelayReverse c v e
  | 13 => setDelayInterp c v e
  | 14 => setDelayTopology c v e
  | 15 => setReverbRt60 c v e
  | 16 => setReverbMix c v e
  | _ => e

/-- Step 9 for the stages in order: RB_INIT of the base delay, and INTERP LINEAR (R560). -/
def initStages (c : Cfg) : List NUM → List Stage → List Stage
  | ms :: delays, st :: stages =>
    { st with rb := { ringInit c.nm (cRev c) (msToSamples c ms) st.rb with interp := .linear } } :: initStages c delays stages
  | _, stages => stages

/-- The engine that construction builds from a legal configuration (R560 steps 5 to 9). -/
def buildEngine (c : Cfg) : Engine :=
  let e8 := (List.range (MAX_ID + 1)).foldl (fun e id => applyDefault c id (resolvedDefault c id) e) (engineRaw c)
  let e8b := recomputeFilter c e8
  { e8b with rv := { e8b.rv with stages := initStages c c.reverbDelaysMs e8b.rv.stages } }

end Sys2Proof.Machine
end

