-- ==== Sys2Proof/Machine/State.lean ====
section
/-! DEFINITION. The state of the block (10_state.md sections 3 to 9), the reasons a step stops, and the state right after construction (R560, R561). -/

namespace Sys2Proof.Machine

/-- One entry of the parameter table (R34): the descriptor's id and the quantized value. -/
structure TblEntry where
  id : Nat
  q  : Nat
deriving DecidableEq, Repr

/-- `LOCK` (R35). -/
inductive Lock where
  | free
  | held (a : HostAgent)
deriving DecidableEq, Repr

/-- An entry of `UPDQ` or a pending update (R36, R37): a parameter id and a resolved value. -/
structure Update where
  id : Nat
  v  : NUM
deriving DecidableEq, Repr

/-- What a GET returned, and to whom (R412). -/
structure Reply where
  agent : HostAgent
  id    : Nat
  q     : Nat
  v     : NUM
deriving DecidableEq, Repr

/-- What takes the next step (R120): a word arriving at a port, the second step of a host's SET, or the end of the run
(R514). The list of these in `State.inbox` is the schedule of the agents (log 10). -/
inductive Event where
  | word (w : PortWord)
  | push (a : HostAgent)
  | shutdown
deriving DecidableEq, Repr

/-- Why a step ends the run. -/
inductive Fault where
  /-- The block is halted: FAULT holds this code and no agent has an enabled step (R503). Raised by every agent's step of
  such a block. Safe: the spec says no step exists. -/
  | halted (code : FaultCode)
  /-- The run has ended by shutdown and no agent has a step (R514). Raised by every agent's step after it. Safe: the spec
  says no step exists. -/
  | shutDown
  /-- A sample memory was indexed outside [0, C) (R101, U13). Raised by RENDER, and only when a ring buffer has no
  element at all (C = 0), since every index is reduced by wrap(·, C). Safe: no legal configuration has such a buffer. -/
  | sampleIndex
deriving DecidableEq, Repr

/-- Why an instruction has no meaning. -/
inductive Refusal where
  /-- The instruction has no meaning in this model yet. Raised by exec's arm alone. Safe: nothing can be concluded. -/
  | notModelled (mnemonic : String)
deriving DecidableEq, Repr

/-- The state of the block. `cfg`, `inbox`, `replies` and `shut` are the model's own fields (log 1, 10, 16, 18). -/
structure State where
  /-- CFG (R5): a parameter that no step changes (R31). -/
  cfg      : Cfg
  /-- `TBL` (R34), one entry per descriptor. -/
  tbl      : List TblEntry
  /-- `LOCK` (R35). -/
  lock     : Lock
  /-- `PEND[MIDI]` (R36). -/
  pendMidi : Option Update
  /-- `PEND[UI]` (R36). -/
  pendUi   : Option Update
  /-- `UPDQ` (R37), oldest first. -/
  updq     : List Update
  /-- `NOTEQ` (R38), oldest first, as format N words (R143). -/
  noteq    : List (BitVec 16)
  /-- `FAULT` (R39). -/
  fault    : Option FaultCode
  /-- Voice bank, filter, delay line and reverb (R40 to R47). -/
  engine   : Engine
  /-- `OUT` (R48), in frame order. -/
  out      : List NUM
  /-- The answers of the register port so far, oldest first (R412). -/
  replies  : List Reply
  /-- The schedule: what steps next, and after it. -/
  inbox    : List Event
  /-- The run has ended (R514). -/
  shut     : Bool
deriving DecidableEq, Repr

/-- The block that construction builds from a configuration that passes its checks (R560 steps 4 to 10). -/
def State.ofCfg (c : Cfg) : State where
  cfg := c
  tbl := c.ptable.map (fun d => { id := d.id, q := d.defaultQ })
  lock := .free
  pendMidi := none
  pendUi := none
  updq := []
  noteq := []
  fault := none
  engine := buildEngine c
  out := []
  replies := []
  inbox := []
  shut := false

/-- The block right after construction with the reference configuration (R561). -/
def State.reset : State := State.ofCfg referenceCfg

end Sys2Proof.Machine
end

