-- ==== Sys2Proof/Machine/Ops.lean ====
section
/-! DEFINITION. The named operations over the state that the meanings share: the channels, the table and its lock, the two steps of a SET, GET, and raising a fault. -/

namespace Sys2Proof.Machine

/-! ### Enabledness and sequencing -/

/-- An agent's step exists only while FAULT = none (R503) and the run has not ended (R514). -/
def whenRunning (s : State) (k : Host.Outcome State Fault Refusal) : Host.Outcome State Fault Refusal :=
  match s.fault with
  | some c => .fault (.halted c)
  | none => if s.shut then .fault .shutDown else k

/-- Go on from a next state; a fault or a refusal stays. -/
def andThen (o : Host.Outcome State Fault Refusal) (k : State → Host.Outcome State Fault Refusal) :
    Host.Outcome State Fault Refusal :=
  match o with
  | .next s => k s
  | .fault f => .fault f
  | .refused r => .refused r

/-! ### Faults -/

/-- `raise Fault(code)` (R503): the first fault is kept. There is no handler, vector, cause register or return (R505):
this is all that taking a fault does, and the step that raises it ends. -/
def raiseFault (code : FaultCode) (s : State) : State :=
  match s.fault with
  | none => { s with fault := some code }
  | some _ => s

/-- What an unknown parameter id does under the configured policy (R410, R412, R447, R507). -/
def unknownParameter (s : State) : State :=
  match s.cfg.unknownId with
  | .fault => raiseFault .unknownId s
  | .ignore => s

/-! ### Engine registers -/

/-- The state with another engine record. -/
def withEngine (e : Engine) (s : State) : State := { s with engine := e }

/-! ### Channels -/

/-- push(Q, m) on a channel of the given depth (R420): a full channel loses its oldest entry. -/
def pushBounded {α : Type} (depth : Nat) (q : List α) (m : α) : List α :=
  (if q.length = depth then q.tail else q) ++ [m]

/-- push(NOTEQ, w) (R420, R451, R452). -/
def pushNote (w : BitVec 16) (s : State) : State := { s with noteq := pushBounded s.cfg.noteDepth s.noteq w }

/-- push(UPDQ, u) (R411, R420). -/
def pushUpdate (u : Update) (s : State) : State := { s with updq := pushBounded s.cfg.updDepth s.updq u }

/-- pop(NOTEQ) (R421): the oldest entry, if there is one, and the state without it. -/
def popNote (s : State) : Option (BitVec 16) × State :=
  match s.noteq with
  | [] => (none, s)
  | w :: rest => (some w, { s with noteq := rest })

/-- pop(UPDQ) (R421). -/
def popUpdate (s : State) : Option Update × State :=
  match s.updq with
  | [] => (none, s)
  | u :: rest => (some u, { s with updq := rest })

/-! ### The parameter table, its lock and the pending updates -/

/-- PEND[a] (R36). -/
def pendOf (a : HostAgent) (s : State) : Option Update :=
  match a with
  | .midi => s.pendMidi
  | .ui => s.pendUi

/-- PEND[a] <- p (R36). -/
def setPend (a : HostAgent) (p : Option Update) (s : State) : State :=
  match a with
  | .midi => { s with pendMidi := p }
  | .ui => { s with pendUi := p }

/-- Is the lock held by the other host, so that a SET or GET of `a` waits (R127, R410)? -/
def lockedAgainst (a : HostAgent) (s : State) : Bool :=
  match s.lock with
  | .free => false
  | .held b => b != a

/-- acquire LOCK, by an agent it is not held against (R410). -/
def acquireLock (a : HostAgent) (s : State) : State := { s with lock := .held a }

/-- release LOCK (R410). -/
def releaseLock (s : State) : State := { s with lock := .free }

/-- TBL[id].q <- q (R410). -/
def writeTable (id q : Nat) (s : State) : State :=
  { s with tbl := s.tbl.map (fun e => if e.id = id then { e with q := q } else e) }

/-- TBL[id].q (R34, R412), if the table has the entry. -/
def readTable (id : Nat) (s : State) : Option Nat := (s.tbl.find? (fun e => e.id == id)).map (fun e => e.q)

/-- RESOLVE(id, q) for an id of PTABLE (R402). -/
def resolveId (c : Cfg) (id q : Nat) : NUM :=
  match descriptorOf c id with
  | some d => resolve c.nm d q
  | none => NUM.zero

/-- SET-push(a) (R411): enabled only with an update pending; without one nothing happens. -/
def setPush (a : HostAgent) (s : State) : State :=
  match pendOf a s with
  | some u => setPend a none (pushUpdate u s)
  | none => s

/-- The part of SET-commit under the lock (R410): write the table, resolve, leave the update pending. -/
def commitLocked (a : HostAgent) (id q : Nat) (s : State) : State :=
  releaseLock (setPend a (some { id := id, v := resolveId s.cfg id q }) (writeTable id q (acquireLock a s)))

/-- SET-commit(a, id, q) (R410). A host finishes one SET before it starts another, so an update still pending is pushed
first (log 13). The id is tested before the lock; a lock the other host holds is waited for (log 14). -/
def setCommit (a : HostAgent) (id q : Nat) (s : State) : State :=
  let s1 := setPush a s
  if !knownId s1.cfg id then unknownParameter s1
  else if lockedAgainst a s1 then s1
  else commitLocked a id (saturateQ q) s1

/-- GET(a, id) (R412): the answer goes to the agent; no state of the block changes. -/
def getParameter (a : HostAgent) (id : Nat) (s : State) : State :=
  if !knownId s.cfg id then unknownParameter s
  else if lockedAgainst a s then s
  else
    match readTable id s with
    | some q => releaseLock { s with replies := s.replies ++ [{ agent := a, id := id, q := q, v := resolveId s.cfg id q }] }
    | none => s

/-! ### Output -/

/-- Append the frames of one RENDER to OUT in frame order (R125, R468). -/
def emitAll (ys : List NUM) (s : State) : State := { s with out := s.out ++ ys }

/-- What the DRIVER receives on channel `ch` (R48, R105): the same value on every one of the CH channels, none beyond. -/
def channelOut (ch : Nat) (s : State) : List NUM := if ch < s.cfg.ch then s.out else []

/-- The ring buffers have elements, so that an index reduced by wrap(·, C) is one of them (R101, U13). -/
def memoriesExist (c : Cfg) : Bool := 0 < cMain c && 0 < cRev c

/-! ### Construction -/

/-- What construction ends in (R502, R560). -/
inductive Construction where
  /-- the configuration is illegal: no block is built (R6, U16) -/
  | refused
  /-- a check raised this fault: no block is built (R502) -/
  | faulted (code : FaultCode)
  | built (s : State)
deriving DecidableEq, Repr

/-- The construction sequence (R560). -/
def construct (c : Cfg) (env : Env) : Construction :=
  if !cfgLegal c then .refused
  else
    match validateTable c with
    | some code => .faulted code
    | none =>
      match validateEnv env with
      | some code => .faulted code
      | none => .built (State.ofCfg c)

end Sys2Proof.Machine
end

