-- ==== Sys2Proof/Machine/Midi.lean ====
section
/-! DEFINITION. The MIDI decoder's messages (47_parameter_interface.md R450 to R454). A malformed word (R455) has no instruction: see Schedule.lean. -/

namespace Sys2Proof.Machine

/-- The channel filter (R450): a channel message of another channel changes nothing. -/
def onChannel (chan : Nat) (s : State) (k : State) : State := if chan = s.cfg.midiChannel then k else s

/-- A MIDI-decode step that ends in the given state (R120). -/
def midiStep (s k : State) : Host.Outcome State Fault Refusal := whenRunning s (.next k)

/-- The SET that a CC starts (R453): nothing when the index is bound to no descriptor. -/
def ccSet (index value : Nat) (s : State) : State :=
  match ccBinding s.cfg index with
  | none => s
  | some d => setCommit .midi d.id (ccQuantize value) s

/-- MIDI_NOTE_OFF (R451); the velocity is ignored. -/
def execMidiNoteOff (chan note _vel : Nat) (s : State) : Host.Outcome State Fault Refusal :=
  midiStep s (onChannel chan s (pushNote (noteOffWord note) s))

/-- MIDI_NOTE_ON (R452); the velocity is ignored, 0 too. -/
def execMidiNoteOn (chan note _vel : Nat) (s : State) : Host.Outcome State Fault Refusal :=
  midiStep s (onChannel chan s (pushNote (noteOnWord note) s))

/-- MIDI_CC (R453). -/
def execMidiCc (chan index value : Nat) (s : State) : Host.Outcome State Fault Refusal :=
  midiStep s (onChannel chan s (ccSet index value s))

/-- MIDI_POLY_PRESSURE (R454): no state changes, on any channel. -/
def execMidiPolyPressure (_chan _d1 _d2 : Nat) (s : State) : Host.Outcome State Fault Refusal := midiStep s s

/-- MIDI_PROGRAM (R454). -/
def execMidiProgram (_chan _d1 _d2 : Nat) (s : State) : Host.Outcome State Fault Refusal := midiStep s s

/-- MIDI_CHANNEL_PRESSURE (R454). -/
def execMidiChannelPressure (_chan _d1 _d2 : Nat) (s : State) : Host.Outcome State Fault Refusal := midiStep s s

/-- MIDI_PITCH_BEND (R454). -/
def execMidiPitchBend (_chan _d1 _d2 : Nat) (s : State) : Host.Outcome State Fault Refusal := midiStep s s

/-- MIDI_SYSTEM (R454): any low nibble. -/
def execMidiSystem (_chan _d1 _d2 : Nat) (s : State) : Host.Outcome State Fault Refusal := midiStep s s

/-- MIDI_NO_STATUS (R454, R161): running status is not accepted. -/
def execMidiNoStatus (_b0 _b1 _b2 : Nat) (s : State) : Host.Outcome State Fault Refusal := midiStep s s

end Sys2Proof.Machine
end

