-- ==== Sys2Proof/Machine/RegisterPort.lean ====
section
/-! DEFINITION. The register port (47_parameter_interface.md R410, R412). -/

namespace Sys2Proof.Machine

/-- SET (R410): the SET-commit step; the SET-push that follows is the agent's next step (R411). -/
def execSet (a : HostAgent) (id q : Nat) (s : State) : Host.Outcome State Fault Refusal :=
  whenRunning s (.next (setCommit a id q s))

/-- GET (R412); the q field is ignored. -/
def execGet (a : HostAgent) (id _q : Nat) (s : State) : Host.Outcome State Fault Refusal :=
  whenRunning s (.next (getParameter a id s))

end Sys2Proof.Machine
end

