-- ==== Sys2Proof/Machine/NoteChannel.lean ====
section
/-! DEFINITION. The note channel's entries, executed by ENGINE when RENDER pops them (48_engine_render.md R470, R471). -/

namespace Sys2Proof.Machine

/-- NQ_NOTE_OFF: REMOVE_NOTE (R470, R201). -/
def execNqNoteOff (note : Nat) (s : State) : Host.Outcome State Fault Refusal :=
  .next (withEngine { s.engine with alloc := removeNote note s.engine.alloc } s)

/-- NQ_NOTE_ON: ADD_NOTE (R471, R200). -/
def execNqNoteOn (note : Nat) (s : State) : Host.Outcome State Fault Refusal :=
  .next (withEngine { s.engine with alloc := addNote s.cfg.n note s.engine.alloc } s)

end Sys2Proof.Machine
end

