-- ==== Sys2Proof/Machine/UpdateChannel.lean ====
section
/-! DEFINITION. The update channel's entries, applied by ENGINE when RENDER pops them (47_parameter_interface.md R430 to R446). The register each writes is in EngineUnits.lean; the filter's are followed by BQ_COEFFS (R287). -/

namespace Sys2Proof.Machine

/-- UPD_ATTACK_MS (R430). -/
def execUpdAttackMs (v : NUM) (s : State) : Host.Outcome State Fault Refusal :=
  .next (withEngine (setAttackMs s.cfg v s.engine) s)

/-- UPD_RELEASE_MS (R431). -/
def execUpdReleaseMs (v : NUM) (s : State) : Host.Outcome State Fault Refusal :=
  .next (withEngine (setReleaseMs s.cfg v s.engine) s)

/-- UPD_HARM_SPACING (R432). -/
def execUpdHarmSpacing (v : NUM) (s : State) : Host.Outcome State Fault Refusal :=
  .next (withEngine (setHarmSpacing s.cfg v s.engine) s)

/-- UPD_HARM_EXPONENT (R433). -/
def execUpdHarmExponent (v : NUM) (s : State) : Host.Outcome State Fault Refusal :=
  .next (withEngine (setHarmExponent s.cfg v s.engine) s)

/-- UPD_FILTER_CUTOFF (R434). -/
def execUpdFilterCutoff (v : NUM) (s : State) : Host.Outcome State Fault Refusal :=
  .next (withEngine (recomputeFilter s.cfg (setFilterCutoff s.cfg v s.engine)) s)

/-- UPD_FILTER_RESONANCE (R435). -/
def execUpdFilterResonance (v : NUM) (s : State) : Host.Outcome State Fault Refusal :=
  .next (withEngine (recomputeFilter s.cfg (setFilterResonance s.cfg v s.engine)) s)

/-- UPD_FILTER_GAIN_DB (R436). -/
def execUpdFilterGainDb (v : NUM) (s : State) : Host.Outcome State Fault Refusal :=
  .next (withEngine (recomputeFilter s.cfg (setFilterGainDb s.cfg v s.engine)) s)

/-- UPD_FILTER_TYPE (R437). -/
def execUpdFilterType (v : NUM) (s : State) : Host.Outcome State Fault Refusal :=
  .next (withEngine (recomputeFilter s.cfg (setFilterType s.cfg v s.engine)) s)

/-- UPD_DELAY_TIME_S (R438). -/
def execUpdDelayTimeS (v : NUM) (s : State) : Host.Outcome State Fault Refusal :=
  .next (withEngine (setDelayTime s.cfg v s.engine) s)

/-- UPD_DELAY_FEEDBACK (R439). -/
def execUpdDelayFeedback (v : NUM) (s : State) : Host.Outcome State Fault Refusal :=
  .next (withEngine (setDelayFeedback v s.engine) s)

/-- UPD_DELAY_MIX (R440). -/
def execUpdDelayMix (v : NUM) (s : State) : Host.Outcome State Fault Refusal :=
  .next (withEngine (setDelayMix s.cfg v s.engine) s)

/-- UPD_DELAY_FREEZE (R441). -/
def execUpdDelayFreeze (v : NUM) (s : State) : Host.Outcome State Fault Refusal :=
  .next (withEngine (setDelayFreeze s.cfg v s.engine) s)

/-- UPD_DELAY_REVERSE (R442). -/
def execUpdDelayReverse (v : NUM) (s : State) : Host.Outcome State Fault Refusal :=
  .next (withEngine (setDelayReverse s.cfg v s.engine) s)

/-- UPD_DELAY_INTERP (R443). -/
def execUpdDelayInterp (v : NUM) (s : State) : Host.Outcome State Fault Refusal :=
  .next (withEngine (setDelayInterp s.cfg v s.engine) s)

/-- UPD_DELAY_TOPOLOGY (R444). -/
def execUpdDelayTopology (v : NUM) (s : State) : Host.Outcome State Fault Refusal :=
  .next (withEngine (setDelayTopology s.cfg v s.engine) s)

/-- UPD_REVERB_RT60_S (R445). -/
def execUpdReverbRt60S (v : NUM) (s : State) : Host.Outcome State Fault Refusal :=
  .next (withEngine (setReverbRt60 s.cfg v s.engine) s)

/-- UPD_REVERB_MIX (R446). -/
def execUpdReverbMix (v : NUM) (s : State) : Host.Outcome State Fault Refusal :=
  .next (withEngine (setReverbMix s.cfg v s.engine) s)

end Sys2Proof.Machine
end

