-- ==== Sys2Proof/Machine/Render.lean ====
section
/-! DEFINITION. RENDER, the engine's only step (48_engine_render.md R460). -/

namespace Sys2Proof.Machine

/-- The effect of a popped note-channel word: the row it decodes to, or nothing (R460, R472). -/
def applyNoteWord (w : BitVec 16) (s : State) : Host.Outcome State Fault Refusal :=
  match decodeN w.toNat with
  | .ok (.nqNoteOff n) => execNqNoteOff n s
  | .ok (.nqNoteOn n) => execNqNoteOn n s
  | _ => .next s

/-- The row of an update, by its id (R430 to R446). -/
def applyKnown (u : Update) (s : State) : Host.Outcome State Fault Refusal :=
  match decodeUpdate u.id u.v with
  | .ok (.updAttackMs v) => execUpdAttackMs v s
  | .ok (.updReleaseMs v) => execUpdReleaseMs v s
  | .ok (.updHarmSpacing v) => execUpdHarmSpacing v s
  | .ok (.updHarmExponent v) => execUpdHarmExponent v s
  | .ok (.updFilterCutoff v) => execUpdFilterCutoff v s
  | .ok (.updFilterResonance v) => execUpdFilterResonance v s
  | .ok (.updFilterGainDb v) => execUpdFilterGainDb v s
  | .ok (.updFilterType v) => execUpdFilterType v s
  | .ok (.updDelayTimeS v) => execUpdDelayTimeS v s
  | .ok (.updDelayFeedback v) => execUpdDelayFeedback v s
  | .ok (.updDelayMix v) => execUpdDelayMix v s
  | .ok (.updDelayFreeze v) => execUpdDelayFreeze v s
  | .ok (.updDelayReverse v) => execUpdDelayReverse v s
  | .ok (.updDelayInterp v) => execUpdDelayInterp v s
  | .ok (.updDelayTopology v) => execUpdDelayTopology v s
  | .ok (.updReverbRt60S v) => execUpdReverbRt60S v s
  | .ok (.updReverbMix v) => execUpdReverbMix v s
  | _ => .next (unknownParameter s)

/-- APPLY(id, v) of a popped update: an id that is not one of PTABLE's follows UNKNOWN_ID_POLICY (R447). -/
def applyUpdate (u : Update) (s : State) : Host.Outcome State Fault Refusal :=
  if knownId s.cfg u.id then applyKnown u s else .next (unknownParameter s)

/-- Pop at most one note entry and apply it (R460). -/
def drainNote (s : State) : Host.Outcome State Fault Refusal :=
  match popNote s with
  | (none, s1) => .next s1
  | (some w, s1) => applyNoteWord w s1

/-- Pop at most one update and apply it (R460). -/
def drainUpdate (s : State) : Host.Outcome State Fault Refusal :=
  match popUpdate s with
  | (none, s1) => .next s1
  | (some u, s1) => applyUpdate u s1

/-- Compute `b` frames and emit them (R460, R465, R468). A ring buffer without elements has no index to read (R101, U13). -/
def emitFrames (b : Nat) (s : State) : Host.Outcome State Fault Refusal :=
  if b = 0 then .next s
  else if !memoriesExist s.cfg then .fault .sampleIndex
  else .next (emitAll (frames s.cfg b s.engine).1 (withEngine (frames s.cfg b s.engine).2 s))

/-- RENDER(B) (R460): the note entry, then the update, then B frames; a fault raised by the update ends the step. -/
def execRender (b : Nat) (s : State) : Host.Outcome State Fault Refusal :=
  whenRunning s (andThen (drainNote s) fun s1 => andThen (drainUpdate s1) fun s2 =>
    match s2.fault with
    | some _ => .next s2
    | none => emitFrames b s2)

end Sys2Proof.Machine
end

