-- ==== Sys2Proof/Machine/Dispatch.lean ====
section
/-! DEFINITION. One arm per instruction: which meaning each row of spec/opcode_table.json has. -/

namespace Sys2Proof.Machine

def exec (i : Instr) (s : State) : Host.Outcome State Fault Refusal :=
  match i with
  | .midiNoteOff chan note vel => Sys2Proof.Machine.execMidiNoteOff chan note vel s
  | .midiNoteOn chan note vel => Sys2Proof.Machine.execMidiNoteOn chan note vel s
  | .midiCc chan index value => Sys2Proof.Machine.execMidiCc chan index value s
  | .midiPolyPressure chan d1 d2 => Sys2Proof.Machine.execMidiPolyPressure chan d1 d2 s
  | .midiProgram chan d1 d2 => Sys2Proof.Machine.execMidiProgram chan d1 d2 s
  | .midiChannelPressure chan d1 d2 => Sys2Proof.Machine.execMidiChannelPressure chan d1 d2 s
  | .midiPitchBend chan d1 d2 => Sys2Proof.Machine.execMidiPitchBend chan d1 d2 s
  | .midiSystem chan d1 d2 => Sys2Proof.Machine.execMidiSystem chan d1 d2 s
  | .midiNoStatus b0 b1 b2 => Sys2Proof.Machine.execMidiNoStatus b0 b1 b2 s
  | .set a id q => Sys2Proof.Machine.execSet a id q s
  | .get a id q => Sys2Proof.Machine.execGet a id q s
  | .nqNoteOff note => Sys2Proof.Machine.execNqNoteOff note s
  | .nqNoteOn note => Sys2Proof.Machine.execNqNoteOn note s
  | .updAttackMs v => Sys2Proof.Machine.execUpdAttackMs v s
  | .updReleaseMs v => Sys2Proof.Machine.execUpdReleaseMs v s
  | .updHarmSpacing v => Sys2Proof.Machine.execUpdHarmSpacing v s
  | .updHarmExponent v => Sys2Proof.Machine.execUpdHarmExponent v s
  | .updFilterCutoff v => Sys2Proof.Machine.execUpdFilterCutoff v s
  | .updFilterResonance v => Sys2Proof.Machine.execUpdFilterResonance v s
  | .updFilterGainDb v => Sys2Proof.Machine.execUpdFilterGainDb v s
  | .updFilterType v => Sys2Proof.Machine.execUpdFilterType v s
  | .updDelayTimeS v => Sys2Proof.Machine.execUpdDelayTimeS v s
  | .updDelayFeedback v => Sys2Proof.Machine.execUpdDelayFeedback v s
  | .updDelayMix v => Sys2Proof.Machine.execUpdDelayMix v s
  | .updDelayFreeze v => Sys2Proof.Machine.execUpdDelayFreeze v s
  | .updDelayReverse v => Sys2Proof.Machine.execUpdDelayReverse v s
  | .updDelayInterp v => Sys2Proof.Machine.execUpdDelayInterp v s
  | .updDelayTopology v => Sys2Proof.Machine.execUpdDelayTopology v s
  | .updReverbRt60S v => Sys2Proof.Machine.execUpdReverbRt60S v s
  | .updReverbMix v => Sys2Proof.Machine.execUpdReverbMix v s
  | .render b => Sys2Proof.Machine.execRender b s

end Sys2Proof.Machine
end

