-- ==== Sys2Proof/Machine/Schedule.lean ====
section
/-! DEFINITION. Which agent steps next and what its step is (20_memory.md R120), and where a table word is placed so that the next step runs it (log 10, 11, 13). -/

namespace Sys2Proof.Machine

/-- The host agent whose step a port word starts; the note and update channels and the render port belong to none. -/
def wordOwner : PortWord → Option HostAgent
  | .m _ => some .midi
  | .s a _ => some a
  | .n _ => none
  | .u _ => none
  | .c _ => none

/-- Does the instruction wait for LOCK, held by the other host (R127, R410, R412; log 14)? -/
def instrWaits (i : Instr) (s : State) : Bool :=
  match i with
  | .set a id _ => knownId s.cfg id && lockedAgainst a s
  | .get a id _ => knownId s.cfg id && lockedAgainst a s
  | .midiCc chan index _ => chan == s.cfg.midiChannel && (ccBinding s.cfg index).isSome && lockedAgainst .midi s
  | .midiNoteOff .. | .midiNoteOn .. | .midiPolyPressure .. | .midiProgram .. | .midiChannelPressure ..
  | .midiPitchBend .. | .midiSystem .. | .midiNoStatus .. => false
  | .nqNoteOff .. | .nqNoteOn .. => false
  | .updAttackMs .. | .updReleaseMs .. | .updHarmSpacing .. | .updHarmExponent .. | .updFilterCutoff ..
  | .updFilterResonance .. | .updFilterGainDb .. | .updFilterType .. | .updDelayTimeS .. | .updDelayFeedback ..
  | .updDelayMix .. | .updDelayFreeze .. | .updDelayReverse .. | .updDelayInterp .. | .updDelayTopology ..
  | .updReverbRt60S .. | .updReverbMix .. => false
  | .render .. => false

/-- The update a format U word carries (R144). -/
def updateOfWord (w : BitVec 40) : Update :=
  { id := bitField w.toNat 32 8, v := BitVec.ofNat 32 (bitField w.toNat 0 32) }

/-- Run the instruction of a MIDI, register or render word that has been taken from the schedule; a word with no row is
ignored (R455). -/
def runWord (w : PortWord) (s : State) : Host.Outcome State Fault Refusal :=
  match decode w with
  | .ok i => exec i s
  | .error _ => .next s

/-- The step of a word at the head of the schedule, `rest` being what follows it.
A host agent with an update pending first takes its SET-push, and a host that waits for LOCK leaves its word where it is.
A word written to the note or update channel's port is put on the channel (R170: test access). -/
def stepWord (w : PortWord) (rest : List Event) (s : State) : Host.Outcome State Fault Refusal :=
  match wordOwner w with
  | some a =>
    match pendOf a s with
    | some _ => .next (setPush a s)
    | none =>
      match decode w with
      | .ok i => if instrWaits i s then .next s else exec i { s with inbox := rest }
      | .error _ => .next { s with inbox := rest }
  | none =>
    match w with
    | .n x => .next (pushNote x { s with inbox := rest })
    | .u x => .next (pushUpdate (updateOfWord x) { s with inbox := rest })
    | .m _ => runWord w { s with inbox := rest }
    | .s _ _ => runWord w { s with inbox := rest }
    | .c _ => runWord w { s with inbox := rest }

/-- The step of the head of the schedule. With an empty schedule no agent has an input and nothing happens (log 17). -/
def stepSchedule (s : State) : Host.Outcome State Fault Refusal :=
  match s.inbox with
  | [] => .next s
  | .word w :: rest => stepWord w rest s
  | .push a :: rest => .next (setPush a { s with inbox := rest })
  | .shutdown :: rest => .next { s with inbox := rest, shut := true }

/-- Place a port word so that the next step runs its instruction. A MIDI, register or render word goes to the head of the
schedule, its agent having nothing pending and LOCK being free; a note or update word goes to the head of its channel,
where the RENDER of 0 frames that is put at the head of the schedule pops it and nothing else. -/
def placeWord (w : PortWord) (s : State) : State :=
  match w with
  | .m _ => { s with inbox := .word w :: s.inbox, pendMidi := none, lock := .free }
  | .s a _ => setPend a none { s with inbox := .word w :: s.inbox, lock := .free }
  | .n x => { s with inbox := .word (.c 0#32) :: s.inbox, noteq := x :: s.noteq, updq := [] }
  | .u x => { s with inbox := .word (.c 0#32) :: s.inbox, updq := updateOfWord x :: s.updq, noteq := [] }
  | .c _ => { s with inbox := .word w :: s.inbox }

/-- Place a table word of `nbits` bits (log 12). -/
def placeTableWord (nbits w : Nat) (s : State) : State :=
  match tablePortWord nbits w with
  | some pw => placeWord pw s
  | none => s

end Sys2Proof.Machine
end

