-- ==== Sys2Proof/Machine/Step.lean ====
section
/-! DEFINITION. One step of the block: the next step of the schedule, while the block runs (R120, R503, R514). -/

namespace Sys2Proof.Machine

/-- One atomic step of the agent that the schedule names. -/
def step (s : State) : Host.Outcome State Fault Refusal :=
  Sys2Proof.Machine.whenRunning s (Sys2Proof.Machine.stepSchedule s)

/-- The state in which the very next step runs the instruction of a table word (log 11, 12). -/
def State.withFetchWord (s : State) (nbits w : Nat) : State := Sys2Proof.Machine.placeTableWord nbits w s

end Sys2Proof.Machine
end

