-- ==== Sys2Proof/Safety.lean ====
section
/-! DEFINITION. What a sound state of the block is, in the terms the statements use: the invariant every step keeps (10_state.md R50 and the field tables), the bounds and pointer ranges the binary32 instance adds, the effect of a popped entry (R460), and the two views that separate the engine from the hosts (R49, R124). -/

namespace Sys2Proof.Safety

open Sys2Proof.Machine

/-! ### The invariant, for every NUM instance -/

/-- The servo's three step sizes (R45, R324). -/
def stepLegal (m : Numerics) (x : NUM) : Prop := x = m.rat 1 2 ∨ x = m.ofNat 1 ∨ x = m.rat 3 2

/-- A ring buffer of capacity `cap`: its pointers are elements, its memory is in canonical form, its step is one of the
three (R45, R50, R101). -/
structure RingOk (m : Numerics) (cap : Nat) (rb : RingBuf) : Prop where
  write_pointer : rb.w < cap
  window_start : rb.frzStart < cap
  memory : Memory.wf cap rb.buf = true
  step : stepLegal m rb.step

/-- A reverb stage: no message reaches its ring buffer, so it is never frozen, reversed or switched to another
interpolation mode (R47, R380). -/
structure StageOk (m : Numerics) (cap : Nat) (st : Stage) : Prop where
  ring : RingOk m cap st.rb
  running : st.rb.frozen = false
  forward : st.rb.rev = false
  linear : st.rb.interp = .linear

/-- The voice bank (R40, R41): at most N notes, no note twice, N voices. -/
structure VoicesOk (n : Nat) (e : Engine) : Prop where
  held : e.alloc.length ≤ n
  distinct : e.alloc.Nodup
  notes : ∀ k ∈ e.alloc, k < 128
  count : e.voices.length = n
  last : ∀ v ∈ e.voices, ∀ k, v.lastNote = some k → k < 128

/-- The engine's state (R40 to R47). -/
structure EngineOk (c : Cfg) (e : Engine) : Prop where
  bank : VoicesOk c.n e
  spacing : e.osc.spacing = 1 ∨ e.osc.spacing = 2
  delay : RingOk c.nm (cMain c) e.dl.rb
  stages : e.rv.stages.length = NSTAGES
  stage : ∀ st ∈ e.rv.stages, StageOk c.nm (cRev c) st

/-- The host side and the channels (R34 to R38). -/
structure HostOk (s : State) : Prop where
  ids : s.tbl.map (fun e => e.id) = s.cfg.ptable.map (fun d => d.id)
  quantized : ∀ e ∈ s.tbl, e.q ≤ QMAX
  unlocked : s.lock = .free
  pending : ∀ a u, pendOf a s = some u → knownId s.cfg u.id = true
  updates : s.updq.length ≤ s.cfg.updDepth
  update_ids : ∀ u ∈ s.updq, u.id < 256
  notes : s.noteq.length ≤ s.cfg.noteDepth

/-- A block that a legal configuration with a valid table can be in (R6, R404, R50). The last clause is R504: after
construction an unknown id is the only cause of a fault. -/
structure Inv (s : State) : Prop where
  legal : cfgLegal s.cfg = true
  table : validateTable s.cfg = none
  host : HostOk s
  engine : EngineOk s.cfg s.engine
  faults : s.fault = none ∨ s.fault = some .unknownId

/-! ### Bounds on values -/

/-- `v` is neither below `lo` nor above `hi`. A NaN is neither: the bounds of R50 are claimed while no NaN is about
(U5), and of a NaN this says nothing. -/
def within (m : Numerics) (lo hi v : NUM) : Prop := m.lt v lo = false ∧ m.lt hi v = false

/-- The bounds of the value registers under the binary32 instance (R41 to R47, R50, R257, R281, R292, R323). -/
structure Bounded (c : Cfg) (e : Engine) : Prop where
  envelope : ∀ v ∈ e.voices, within c.nm (c.nm.ofNat 0) (c.nm.ofNat 1) v.envVal
  increment : c.nm.lt e.env.inc (c.nm.ofNat 0) = false
  decrement : c.nm.lt e.env.dec (c.nm.ofNat 0) = false
  exponent : c.nm.lt e.osc.exponent (c.nm.ofNat 0) = false
  resonance : within c.nm (c.nm.rat 1 100) (c.nm.ofNat 1000) e.flt.q
  gain : within c.nm (c.nm.ofInt (-120)) (c.nm.ofNat 120) e.flt.gdb
  tap1 : within c.nm (c.nm.ofInt (-100)) (c.nm.ofNat 100) e.flt.z1
  tap2 : within c.nm (c.nm.ofInt (-100)) (c.nm.ofNat 100) e.flt.z2
  delay_mix : within c.nm (c.nm.ofNat 0) (c.nm.ofNat 1) e.dl.mix
  reverb_mix : within c.nm (c.nm.ofNat 0) (c.nm.ofNat 1) e.rv.mix
  decay : c.nm.lt e.rv.rt60 (c.nm.rat 1 1000) = false
  goal : within c.nm (c.nm.ofNat 4) (maxDelay c.nm (cMain c)) e.dl.rb.goal
  /-- R281 clamps into [1, 0.49 × FS], which is empty where 0.49 × FS is below 1. -/
  cutoff : c.nm.lt (c.nm.mul (c.nm.rat 49 100) c.fs) (c.nm.ofNat 1) = false →
    within c.nm (c.nm.ofNat 1) (c.nm.mul (c.nm.rat 49 100) c.fs) e.flt.fc

/-- `v` is a value of [lo, hi], no NaN. -/
def inside (m : Numerics) (lo hi v : NUM) : Prop := m.le lo v = true ∧ m.le v hi = true

/-- `v` is a value of [0, hi), no NaN. -/
def pointsBelow (m : Numerics) (hi v : NUM) : Prop := m.le (m.ofNat 0) v = true ∧ m.lt v hi = true

/-- The pointers of a ring buffer of capacity `cap`: goal and delay are in [4, C − 4], the read pointer is in [0, C), and
in a frozen buffer the window has at least 4 and at most C − 4 samples and the offset lies in it (R45, R50, R323, R331). -/
structure RingPointers (m : Numerics) (cap : Nat) (rb : RingBuf) : Prop where
  goal : inside m (m.ofNat 4) (maxDelay m cap) rb.goal
  actual : inside m (m.ofNat 4) (maxDelay m cap) rb.act
  read : pointsBelow m (m.ofNat cap) rb.r
  window : rb.frozen = true → 4 ≤ rb.frzS ∧ rb.frzS + 4 ≤ cap
  offset : rb.frozen = true → pointsBelow m (m.ofNat rb.frzS) rb.frzOff

/-- The pointers of every ring buffer of the block (R50). -/
structure Pointers (c : Cfg) (e : Engine) : Prop where
  delay : RingPointers c.nm (cMain c) e.dl.rb
  stage : ∀ st ∈ e.rv.stages, RingPointers c.nm (cRev c) st.rb

/-- The capacities are integers that binary32 holds exactly, as R8 says of every integer used. -/
def exactCapacities (c : Cfg) : Prop := cMain c < 2 ^ 24 ∧ cRev c < 2 ^ 24

/-! ### What RENDER pops -/

/-- The effect of a popped channel word: that of the instruction it decodes to, or none (R460, R472). -/
def entryEffect (w : PortWord) (s : State) : Host.Outcome State Fault Refusal :=
  match decode w with
  | .ok i => exec i s
  | .error _ => .next s

/-- The note half of RENDER: the oldest entry, if there is one, is taken off and has its effect (R460). -/
def noteEffect (s : State) : Host.Outcome State Fault Refusal :=
  match s.noteq with
  | [] => .next s
  | x :: rest => entryEffect (.n x) { s with noteq := rest }

/-- The update half of RENDER: the oldest update, if there is one, is taken off; a known id has its row's effect, another
follows the policy (R460, R447). -/
def updateEffect (s : State) : Host.Outcome State Fault Refusal :=
  match s.updq with
  | [] => .next s
  | u :: rest =>
    if knownId s.cfg u.id = true then entryEffect (updateWord u.id u.v) { s with updq := rest }
    else .next (unknownParameter { s with updq := rest })

/-! ### Running blocks and views -/

/-- Agents have steps: no fault has been raised and the run has not ended (R503, R514). -/
def Running (s : State) : Prop := s.fault = none ∧ s.shut = false

/-- The state on the next state of an outcome; a fault or a refusal stays. -/
def mapNext (f : State → State) (o : Host.Outcome State Fault Refusal) : Host.Outcome State Fault Refusal :=
  andThen o (fun s => .next (f s))

/-- `s` with the host agents' state of `h`: the table, its lock, the pending updates, the answers and the schedule (R49). -/
def withHostSide (h s : State) : State :=
  { s with tbl := h.tbl, lock := h.lock, pendMidi := h.pendMidi, pendUi := h.pendUi, replies := h.replies, inbox := h.inbox }

/-- `s` with the state that ENGINE alone writes taken from `h`: the DSP units and the output (R49). -/
def withEngineSide (h s : State) : State := { s with engine := h.engine, out := h.out }

/-- Every element of every sample memory reads in `e'` as it does in `e`. -/
def sameSamples (e e' : Engine) : Prop :=
  (∀ i, e'.dl.rb.buf.read i = e.dl.rb.buf.read i) ∧
  e'.rv.stages.length = e.rv.stages.length ∧
  ∀ (j : Nat) (st st' : Stage), e.rv.stages[j]? = some st → e'.rv.stages[j]? = some st' →
    ∀ i, st'.rb.buf.read i = st.rb.buf.read i

/-- The indexes that `b` ticks of a ring buffer of capacity `cap` that is not frozen write, from write pointer `w` (R329). -/
def writtenBy (cap w b i : Nat) : Prop := ∃ k, k < b ∧ i = (w + k) % cap

/-- A MIDI or register-port instruction: a step of a host agent (R120). -/
def isHostInstr : Instr → Bool
  | .midiNoteOff .. | .midiNoteOn .. | .midiCc .. | .midiPolyPressure .. | .midiProgram .. | .midiChannelPressure ..
  | .midiPitchBend .. | .midiSystem .. | .midiNoStatus .. | .set .. | .get .. => true
  | .nqNoteOff .. | .nqNoteOn .. => false
  | .updAttackMs .. | .updReleaseMs .. | .updHarmSpacing .. | .updHarmExponent .. | .updFilterCutoff ..
  | .updFilterResonance .. | .updFilterGainDb .. | .updFilterType .. | .updDelayTimeS .. | .updDelayFeedback ..
  | .updDelayMix .. | .updDelayFreeze .. | .updDelayReverse .. | .updDelayInterp .. | .updDelayTopology ..
  | .updReverbRt60S .. | .updReverbMix .. => false
  | .render .. => false

/-- An instruction that sits in a channel until RENDER pops it (R120, R460). -/
def isChannelInstr : Instr → Bool
  | .midiNoteOff .. | .midiNoteOn .. | .midiCc .. | .midiPolyPressure .. | .midiProgram .. | .midiChannelPressure ..
  | .midiPitchBend .. | .midiSystem .. | .midiNoStatus .. | .set .. | .get .. => false
  | .nqNoteOff .. | .nqNoteOn .. => true
  | .updAttackMs .. | .updReleaseMs .. | .updHarmSpacing .. | .updHarmExponent .. | .updFilterCutoff ..
  | .updFilterResonance .. | .updFilterGainDb .. | .updFilterType .. | .updDelayTimeS .. | .updDelayFeedback ..
  | .updDelayMix .. | .updDelayFreeze .. | .updDelayReverse .. | .updDelayInterp .. | .updDelayTopology ..
  | .updReverbRt60S .. | .updReverbMix .. => true
  | .render .. => false

end Sys2Proof.Safety
end

