-- ==== Sys2Proof/Certificates/Slice0/Obligations.lean ====
section
/-! DEFINITION. The statements about the block, for the provers. Each docstring names the rules of spec/ it formalises. -/

open Sys2Proof Sys2Proof.Machine Sys2Proof.Safety

/-! ### Encoding -/

/-- R141 to R145, R150: no bit of an encoding is dropped. -/
def Obligations.DecodeOfEncodedInstruction : Prop :=
  ∀ i : Instr, i.wellFormed = true → decode (encode i) = .ok i

/-- R140 to R150: each word has one meaning, and what it decodes to is within its fields. -/
def Obligations.EncodeOfDecodedWord : Prop :=
  ∀ (w : PortWord) (i : Instr), decode w = .ok i → i.wellFormed = true ∧ encode i = w

/-- R150: a word selected by a row decodes to an instruction of that row, a word that decodes is selected by its
instruction's row, and no word is selected by two rows. -/
def Obligations.DecodeFollowsOpcodeTable : Prop :=
  ∀ w : PortWord,
    (∀ r ∈ opcodeTable, r.selects w = true → ∃ i, decode w = .ok i ∧ i.mnemonic = r.mnemonic) ∧
    (∀ i, decode w = .ok i → ∃ r ∈ opcodeTable, r.mnemonic = i.mnemonic ∧ r.selects w = true) ∧
    (∀ r ∈ opcodeTable, ∀ t ∈ opcodeTable, r.selects w = true → t.selects w = true → r = t)

/-- R141 to R145, R170, with the words of 95_test_vectors.md: one word of each format, from the bit layouts. -/
def Obligations.SpecWordsDecode : Prop :=
  decode (.m 0x904564#24) = .ok (.midiNoteOn 0 69 100) ∧
  decode (.m 0xB00E7F#24) = .ok (.midiCc 0 14 127) ∧
  decode (.m 0x3C6400#24) = .ok (.midiNoStatus 0x3C 0x64 0) ∧
  decode (.s .ui 0x0823#16) = .ok (.set .ui 8 35) ∧
  decode (.s .ui 0x8300#16) = .ok (.get .ui 3 0) ∧
  decode (.n 0x803C#16) = .ok (.nqNoteOff 60) ∧
  decode (.u 0x083F094D3C#40) = .ok (.updDelayTimeS 0x3F094D3C#32) ∧
  decode (.c 0x00000004#32) = .ok (.render 4)

/-! ### Steps -/

/-- R120, R410, R411, R460: the step of a word at the head of the schedule is `exec` of what it decodes to, with the word
taken off, for a MIDI, register or render word whose agent has nothing pending and does not wait. With an update pending
the agent's step is its SET-push, and an agent that waits for LOCK leaves everything (the schedule, and these two orders,
are the model's: log 10, 13, 14). -/
def Obligations.StepRunsDecodedWord : Prop :=
  ∀ (s : State) (w : PortWord) (rest : List Event) (i : Instr),
    Running s → s.inbox = .word w :: rest → decode w = .ok i →
    ((∃ x, w = .c x) → step s = exec i { s with inbox := rest }) ∧
    (∀ a, wordOwner w = some a → pendOf a s = none → instrWaits i s = false → step s = exec i { s with inbox := rest }) ∧
    (∀ a, wordOwner w = some a → pendOf a s = none → instrWaits i s = true → step s = .next s) ∧
    (∀ a u, wordOwner w = some a → pendOf a s = some u → step s = .next (setPush a s))

/-- R460, R170, R472, R447: a word for the note or the update channel is put on its channel by a step. RENDER is the
oldest note entry's effect, then the oldest update's, then, unless that raised a fault, its frames: a popped entry has
the effect `exec` gives what it decodes to (`noteEffect`, `updateEffect`), spelt out for an entry in one channel alone
and in both. In a sound block every known id is at most 16. (That words for the channels may arrive from outside is the
test access of R170: log 11.) -/
def Obligations.RenderRunsPoppedEntries : Prop :=
  (∀ (s : State) (x : BitVec 16) (rest : List Event), Running s → s.inbox = .word (.n x) :: rest →
    step s = .next (pushNote x { s with inbox := rest })) ∧
  (∀ (s : State) (x : BitVec 40) (rest : List Event), Running s → s.inbox = .word (.u x) :: rest →
    step s = .next (pushUpdate (updateOfWord x) { s with inbox := rest })) ∧
  (∀ (s : State) (b : Nat), Running s →
    (∀ u, s.updq.head? = some u → knownId s.cfg u.id = true → u.id ≤ 16) →
    exec (.render b) s = andThen (noteEffect s) fun s1 => andThen (updateEffect s1) fun s2 =>
      if s2.fault = none then emitFrames b s2 else .next s2) ∧
  (∀ (s : State) (b : Nat) (x : BitVec 16) (q : List (BitVec 16)), Running s → s.noteq = x :: q → s.updq = [] →
    (∀ i, decode (.n x) = .ok i →
      exec (.render b) s = andThen (exec i { s with noteq := q }) (emitFrames b)) ∧
    (∀ e, decode (.n x) = .error e → exec (.render b) s = emitFrames b { s with noteq := q })) ∧
  (∀ (s : State) (b : Nat) (u : Update) (p : List Update) (j : Instr), Running s → s.updq = u :: p →
    u.id < 256 → knownId s.cfg u.id = true → decode (updateWord u.id u.v) = .ok j →
    (s.noteq = [] → exec (.render b) s = andThen (exec j { s with updq := p }) (emitFrames b)) ∧
    (∀ x q i, s.noteq = x :: q → decode (.n x) = .ok i →
      exec (.render b) s = andThen (exec i { s with noteq := q })
        fun t => andThen (exec j { t with updq := p }) (emitFrames b)) ∧
    (∀ x q e, s.noteq = x :: q → decode (.n x) = .error e →
      exec (.render b) s = andThen (exec j { s with noteq := q, updq := p }) (emitFrames b)))

/-- R160, R455: a status word with a data byte whose top bit is set has no instruction, and its step changes nothing but
the schedule. -/
def Obligations.MalformedMidiWordIsIgnored : Prop :=
  ∀ (s : State) (w : BitVec 24) (rest : List Event),
    Running s → s.inbox = .word (.m w) :: rest → s.pendMidi = none →
    w.getLsbD 23 = true → (w.getLsbD 15 = true ∨ w.getLsbD 7 = true) →
    step s = .next { s with inbox := rest }

/-- R503, R514: a halted block has no step of any agent, and the fault that halted it is kept; after shutdown no agent has
a step either, so OUT is final and what is queued stays queued. The shutdown step changes nothing else (the event that
stands for it is the model's: log 16). -/
def Obligations.HaltedOrShutBlockHasNoStep : Prop :=
  (∀ (s : State) (c : FaultCode), s.fault = some c →
    step s = .fault (.halted c) ∧
    (∀ i, isChannelInstr i = false → exec i s = .fault (.halted c)) ∧
    ∀ d, raiseFault d s = s) ∧
  (∀ (s : State) (rest : List Event), Running s → s.inbox = .shutdown :: rest →
    step s = .next { s with inbox := rest, shut := true }) ∧
  (∀ s : State, s.fault = none → s.shut = true → step s = .fault .shutDown)

/-! ### The MIDI port -/

/-- R450: a channel message of another channel changes no state, whatever its row. -/
def Obligations.ForeignChannelMessageIsIgnored : Prop :=
  ∀ (s : State) (chan x y : Nat), Running s → chan ≠ s.cfg.midiChannel →
    ∀ i ∈ [Instr.midiNoteOff chan x y, .midiNoteOn chan x y, .midiPolyPressure chan x y, .midiCc chan x y,
        .midiProgram chan x y, .midiChannelPressure chan x y, .midiPitchBend chan x y],
      exec i s = .next s

/-- R451, R452, R420: the note is pushed on the note channel, whose oldest entry makes room when it is full; the velocity
does not matter. -/
def Obligations.NoteMessagesPushNoteEntries : Prop :=
  ∀ (s : State) (note vel : Nat), Running s → note < 128 →
    let room := if s.noteq.length = s.cfg.noteDepth then s.noteq.tail else s.noteq
    exec (.midiNoteOff s.cfg.midiChannel note vel) s =
      .next { s with noteq := room ++ [BitVec.ofNat 16 (0x8000 + note)] } ∧
    exec (.midiNoteOn s.cfg.midiChannel note vel) s =
      .next { s with noteq := room ++ [BitVec.ofNat 16 (0x9000 + note)] }

/-- R453, R402, R410: a CC bound to a descriptor commits its rescaled value and leaves the resolved value pending; an
unbound one changes nothing. -/
def Obligations.ControlChangeCommitsItsValue : Prop :=
  ∀ (s : State) (index value : Nat), Running s → value < 128 →
    (ccBinding s.cfg index = none → exec (.midiCc s.cfg.midiChannel index value) s = .next s) ∧
    (∀ d, ccBinding s.cfg index = some d → s.pendMidi = none → s.lock ≠ .held .ui →
      let q := min 35 (value * 36 / 127)
      exec (.midiCc s.cfg.midiChannel index value) s =
        .next { s with
          tbl := s.tbl.map (fun e => if e.id = d.id then { e with q := q } else e)
          pendMidi := some { id := d.id, v := resolveId s.cfg d.id q }
          lock := .free })

/-- R454: the statuses the block does not decode change no state, on any channel. -/
def Obligations.IgnoredStatusesChangeNothing : Prop :=
  ∀ (s : State) (x y z : Nat), Running s →
    ∀ i ∈ [Instr.midiPolyPressure x y z, .midiProgram x y z, .midiChannelPressure x y z, .midiPitchBend x y z,
        .midiSystem x y z, .midiNoStatus x y z],
      exec i s = .next s

/-! ### The register port -/

/-- R410, R402: SET-commit saturates the value, writes the table and leaves the resolved value pending; LOCK is free
after it and nothing else changes. -/
def Obligations.SetCommitsAndLeavesUpdatePending : Prop :=
  ∀ (s : State) (a : HostAgent) (id q : Nat) (d : Descriptor),
    Running s → pendOf a s = none → lockedAgainst a s = false → descriptorOf s.cfg id = some d →
    let m := s.cfg.nm
    let qe := min q 35
    exec (.set a id q) s =
      .next (setPend a
        (some { id := id
                v := m.add d.min (m.mul (m.pow (m.div (m.ofNat qe) (m.ofNat 35)) d.skew) (m.sub d.max d.min)) })
        { s with tbl := s.tbl.map (fun e => if e.id = id then { e with q := qe } else e), lock := .free })

/-- R411, R420: SET-push puts the pending update on the update channel, whose oldest entry makes room when it is full. -/
def Obligations.SetPushQueuesPendingUpdate : Prop :=
  ∀ (s : State) (a : HostAgent) (u : Update) (rest : List Event),
    Running s → s.inbox = .push a :: rest → pendOf a s = some u →
    step s = .next (setPend a none
      { s with
        inbox := rest
        updq := (if s.updq.length = s.cfg.updDepth then s.updq.tail else s.updq) ++ [u] })

/-- R412, R34: GET answers the table's value and its resolved value and changes nothing else, and in a sound block every
known id has a table value (that the answer is kept in a list is the model's: log 18). -/
def Obligations.GetAnswersTableValue : Prop :=
  (∀ (s : State) (a : HostAgent) (id q ignored : Nat),
    Running s → s.lock = .free → knownId s.cfg id = true → readTable id s = some q →
    exec (.get a id ignored) s =
      .next { s with replies := s.replies ++ [{ agent := a, id := id, q := q, v := resolveId s.cfg id q }] }) ∧
  (∀ (s : State) (id : Nat), Inv s → knownId s.cfg id = true → ∃ q, q ≤ 35 ∧ readTable id s = some q)

/-- What `exec` of a SET, a CC or a GET does outside its precondition, which no step reaches: an update still pending is
pushed first, and while the other host holds LOCK nothing happens (the model's choices: log 13, 14). -/
def Obligations.HostStepPushesFirstAndWaits : Prop :=
  ∀ (s : State) (a : HostAgent) (u : Update) (id q : Nat), Running s →
    (pendOf a s = some u → exec (.set a id q) s = exec (.set a id q) (setPush a s)) ∧
    (pendOf .midi s = some u → (∃ d, ccBinding s.cfg id = some d) →
      exec (.midiCc s.cfg.midiChannel id q) s = exec (.midiCc s.cfg.midiChannel id q) (setPush .midi s)) ∧
    (pendOf a s = none → knownId s.cfg id = true → lockedAgainst a s = true →
      exec (.set a id q) s = .next s ∧ exec (.get a id q) s = .next s) ∧
    (pendOf .midi s = none → lockedAgainst .midi s = true → exec (.midiCc s.cfg.midiChannel id q) s = .next s)

/-- R410, R412, R507: an id that is not in the table raises F_UNKNOWN_ID under the policy `fault`, with nothing else
changed, and does nothing under `ignore`. -/
def Obligations.UnknownIdFollowsPolicy : Prop :=
  ∀ (s : State) (a : HostAgent) (id q : Nat), Running s → pendOf a s = none → knownId s.cfg id = false →
    (s.cfg.unknownId = .fault →
      exec (.set a id q) s = .next { s with fault := some .unknownId } ∧
      exec (.get a id q) s = .next { s with fault := some .unknownId }) ∧
    (s.cfg.unknownId = .ignore → exec (.set a id q) s = .next s ∧ exec (.get a id q) s = .next s)

/-- R122: a GET after a SET-commit, by either host, answers the value set, saturated; the other entries are untouched.
(That the answer is added to a list is the model's: log 18; R412 says that it is returned and no state changes.) -/
def Obligations.GetReturnsLastSet : Prop :=
  ∀ (s t : State) (a b : HostAgent) (id q q0 r : Nat),
    pendOf a s = none → lockedAgainst a s = false → knownId s.cfg id = true → readTable id s = some q0 →
    exec (.set a id q) s = .next t →
    readTable id t = some (min q 35) ∧
    (∀ k, k ≠ id → readTable k t = readTable k s) ∧
    exec (.get b id r) t =
      .next { t with
        replies := t.replies ++ [{ agent := b, id := id, q := min q 35, v := resolveId s.cfg id (min q 35) }] }

/-- R420, R121: a channel keeps the newest entries of those pushed, in the order of the pushes. -/
def Obligations.ChannelKeepsNewestInOrder : Prop :=
  ∀ (ms : List Update) (depth : Nat), 1 ≤ depth →
    ms.foldl (fun q u => pushBounded depth q u) [] = ms.drop (ms.length - depth)

/-! ### The note channel and the allocator -/

/-- R470, R471, R200, R201: REMOVE_NOTE and ADD_NOTE on the allocator, and nothing else. -/
def Obligations.NoteEntriesChangeAllocator : Prop :=
  ∀ (s : State) (n : Nat),
    exec (.nqNoteOff n) s =
      .next { s with engine := { s.engine with alloc := s.engine.alloc.filter (fun m => m != n) } } ∧
    (n ∈ s.engine.alloc → exec (.nqNoteOn n) s = .next s) ∧
    (n ∉ s.engine.alloc → s.engine.alloc.length ≠ s.cfg.n →
      exec (.nqNoteOn n) s = .next { s with engine := { s.engine with alloc := s.engine.alloc ++ [n] } }) ∧
    (n ∉ s.engine.alloc → s.engine.alloc.length = s.cfg.n →
      exec (.nqNoteOn n) s = .next { s with engine := { s.engine with alloc := s.engine.alloc.tail ++ [n] } })

/-- R203: whatever notes are added (`true`) and removed (`false`), the held notes stay at most N and distinct; adding a held note and removing an absent one
change nothing. -/
def Obligations.AllocatorStaysBoundedAndDistinct : Prop :=
  ∀ (cap : Nat) (ops : List (Bool × Nat)), 1 ≤ cap →
    let held := ops.foldl (fun al op => if op.1 then addNote cap op.2 al else removeNote op.2 al) []
    held.length ≤ cap ∧ held.Nodup ∧
    (∀ n ∈ held, addNote cap n held = held) ∧ (∀ n, n ∉ held → removeNote n held = held)

/-! ### The update channel, one statement per unit -/

/-- R430, R431, R220: the time is stored and its increment recomputed; no voice is touched. -/
def Obligations.EnvelopeTimeUpdatesSetIncrement : Prop :=
  ∀ (s : State) (v : NUM),
    let m := s.cfg.nm
    let rate := m.div (m.ofNat 1)
      (m.mul (m.div s.cfg.fs (m.ofNat 1000)) (m.clamp v s.cfg.envMsMin s.cfg.envMsMax))
    exec (.updAttackMs v) s =
      .next { s with engine := { s.engine with env := { s.engine.env with attMs := v, inc := rate } } } ∧
    exec (.updReleaseMs v) s =
      .next { s with engine := { s.engine with env := { s.engine.env with relMs := v, dec := rate } } }

/-- R432, R433: spacing by DISC(v, 1, 2), exponent max(v, 0). -/
def Obligations.OscillatorUpdatesSetRegisters : Prop :=
  ∀ (s : State) (v : NUM),
    let m := s.cfg.nm
    exec (.updHarmSpacing v) s =
      .next { s with engine := { s.engine with osc := { s.engine.osc with spacing := disc m v 1 2 } } } ∧
    exec (.updHarmExponent v) s =
      .next { s with engine := { s.engine with
        osc := { s.engine.osc with exponent := if m.lt (m.ofNat 0) v then v else m.ofNat 0 } } }

/-- R434 to R437, R281, R287: the register is written with its clamp, then the coefficients are recomputed; the taps and
the feedback register keep their values (R576). -/
def Obligations.FilterUpdatesRecomputeCoefficients : Prop :=
  ∀ (s : State) (v : NUM),
    let m := s.cfg.nm
    let f := s.engine.flt
    let put (g : Biquad) : Host.Outcome State Fault Refusal :=
      .next { s with engine := { s.engine with flt := bqCoeffs s.cfg g } }
    exec (.updFilterCutoff v) s = put { f with fc := m.clamp v (m.ofNat 1) (m.mul (m.rat 49 100) s.cfg.fs) } ∧
    exec (.updFilterResonance v) s = put { f with q := m.clamp v (m.rat 1 100) (m.ofNat 1000) } ∧
    exec (.updFilterGainDb v) s = put { f with gdb := m.clamp v (m.ofInt (-120)) (m.ofNat 120) } ∧
    (∀ k, [FilterType.lp, .hp, .bp, .pk][disc m v 0 3]? = some k → exec (.updFilterType v) s = put { f with kind := k }) ∧
    (∃ k, [FilterType.lp, .hp, .bp, .pk][disc m v 0 3]? = some k) ∧
    ∀ g, (bqCoeffs s.cfg g).z1 = g.z1 ∧ (bqCoeffs s.cfg g).z2 = g.z2 ∧ (bqCoeffs s.cfg g).fb = g.fb

/-- R282 to R286: the coefficient set of each topology, normalised by a0; the parameters are not changed. -/
def Obligations.CoefficientsFollowTopology : Prop :=
  ∀ (c : Cfg) (f : Biquad),
    let m := c.nm
    let w := m.div (m.mul (m.mul (m.ofNat 2) m.pi) f.fc) c.fs
    let cs := m.cos w
    let alpha := m.div (m.sin w) (m.mul (m.ofNat 2) f.q)
    let a := m.pow (m.ofNat 10) (m.div f.gdb (m.ofNat 40))
    let one := m.ofNat 1
    let two := m.ofNat 2
    let m2cs := m.mul (m.ofInt (-2)) cs
    let set (b0 b1 b2 a0 a2 : NUM) : Biquad :=
      { f with b0 := m.div b0 a0, b1 := m.div b1 a0, b2 := m.div b2 a0, a1 := m.div m2cs a0, a2 := m.div a2 a0 }
    (f.kind = .lp → bqCoeffs c f = set (m.div (m.sub one cs) two) (m.sub one cs) (m.div (m.sub one cs) two)
      (m.add one alpha) (m.sub one alpha)) ∧
    (f.kind = .hp → bqCoeffs c f = set (m.div (m.add one cs) two) (m.neg (m.add one cs)) (m.div (m.add one cs) two)
      (m.add one alpha) (m.sub one alpha)) ∧
    (f.kind = .bp → bqCoeffs c f = set alpha (m.ofNat 0) (m.neg alpha) (m.add one alpha) (m.sub one alpha)) ∧
    (f.kind = .pk → bqCoeffs c f = set (m.add one (m.mul alpha a)) m2cs (m.sub one (m.mul alpha a))
      (m.add one (m.div alpha a)) (m.sub one (m.div alpha a)))

/-- R438 to R440, R443, R444, R323, R334, R341: each update writes its own field of the delay line and nothing else; of
the ring buffer only the goal or the mode. -/
def Obligations.DelayUpdatesWriteOneField : Prop :=
  ∀ (s : State) (v : NUM),
    let m := s.cfg.nm
    let dl := s.engine.dl
    let put (d : DelayLine) : Host.Outcome State Fault Refusal := .next { s with engine := { s.engine with dl := d } }
    exec (.updDelayTimeS v) s =
      put { dl with rb := { dl.rb with
        goal := m.clamp (m.mul v s.cfg.fs) (m.ofNat 4) (m.ofInt ((cMain s.cfg : Int) - 4)) } } ∧
    exec (.updDelayFeedback v) s = put { dl with fb := v } ∧
    exec (.updDelayMix v) s = put { dl with mix := m.clamp v (m.ofNat 0) (m.ofNat 1) } ∧
    (∀ k, [Interp.none, .linear, .allpass][disc m v 0 2]? = some k →
      exec (.updDelayInterp v) s = put { dl with rb := { dl.rb with interp := k } }) ∧
    (∀ k, [Topology.plain, .allpass, .comb][disc m v 0 2]? = some k →
      exec (.updDelayTopology v) s = put { dl with topo := k }) ∧
    (∃ k, [Interp.none, .linear, .allpass][disc m v 0 2]? = some k) ∧
    (∃ k, [Topology.plain, .allpass, .comb][disc m v 0 2]? = some k)

/-- R441, R331, R332: a freeze captures the window of the floor(ACT) samples written last, once; a thaw puts the read
pointer back behind the write pointer; both are no-ops in the requested state. -/
def Obligations.FreezeUpdateCapturesWindow : Prop :=
  ∀ (s : State) (v : NUM),
    let m := s.cfg.nm
    let cap := cMain s.cfg
    let rb := s.engine.dl.rb
    let put (r : RingBuf) : Host.Outcome State Fault Refusal :=
      .next { s with engine := { s.engine with dl := { s.engine.dl with rb := r } } }
    let start := wrapInt ((rb.w : Int) - (m.floorNat rb.act : Int)) cap
    (disc m v 0 1 = 1 → rb.frozen = false → exec (.updDelayFreeze v) s =
      put { rb with frzS := m.floorNat rb.act, frzStart := start, frzOff := NUM.zero, r := m.ofNat start, frozen := true }) ∧
    (disc m v 0 1 = 1 → rb.frozen = true → exec (.updDelayFreeze v) s = .next s) ∧
    (disc m v 0 1 = 0 → rb.frozen = true → exec (.updDelayFreeze v) s =
      put { rb with frozen := false, r := m.wrap (m.sub (m.ofNat rb.w) rb.act) (m.ofNat cap) }) ∧
    (disc m v 0 1 = 0 → rb.frozen = false → exec (.updDelayFreeze v) s = .next s) ∧
    (disc m v 0 1 = 0 ∨ disc m v 0 1 = 1)

/-- R442, R333: the reverse flag; leaving reverse while not frozen puts the read pointer back behind the write pointer. -/
def Obligations.ReverseUpdateResynchronises : Prop :=
  ∀ (s : State) (v : NUM),
    let m := s.cfg.nm
    let rb := s.engine.dl.rb
    let b := disc m v 0 1 == 1
    exec (.updDelayReverse v) s =
      .next { s with engine := { s.engine with dl := { s.engine.dl with rb := { rb with
        rev := b
        r := if rb.rev = true ∧ b = false ∧ rb.frozen = false
          then m.wrap (m.sub (m.ofNat rb.w) rb.act) (m.ofNat (cMain s.cfg)) else rb.r } } } }

/-- R445, R446, R381, R383: the decay time sets the six gains from the configured delays and leaves every ring buffer
alone; the mix is clamped. -/
def Obligations.ReverbUpdatesSetGainsAndMix : Prop :=
  ∀ (s : State) (v : NUM), s.cfg.reverbDelaysMs.length = NSTAGES → s.engine.rv.stages.length = NSTAGES →
    let m := s.cfg.nm
    let rt60 := if m.lt (m.rat 1 1000) v then v else m.rat 1 1000
    let gain (ms : NUM) : NUM :=
      m.pow (m.ofNat 10) (m.div (m.mul (m.ofInt (-60)) (m.div ms (m.ofNat 1000))) (m.mul rt60 (m.ofNat 20)))
    exec (.updReverbRt60S v) s =
      .next { s with engine := { s.engine with rv := { s.engine.rv with
        rt60 := rt60
        stages := List.zipWith (fun ms st => { st with g := gain ms }) s.cfg.reverbDelaysMs s.engine.rv.stages } } } ∧
    exec (.updReverbMix v) s =
      .next { s with engine := { s.engine with rv := { s.engine.rv with mix := m.clamp v (m.ofNat 0) (m.ofNat 1) } } }

/-- R406, U5: DISC gives a code between its bounds; a NaN gives the lower bound; a value between the bounds is rounded half
up. The two clauses on a value beyond a bound rest on the model's order (log 20, DEDUCED): it compares with the bounds
before it rounds, where R406 clamps the rounded value and U5 speaks of the infinities alone. -/
def Obligations.DiscRoundsHalfUpWithinBounds : Prop :=
  ∀ (m : Numerics) (v : NUM) (lo hi : Nat), lo ≤ hi →
    lo ≤ disc m v lo hi ∧ disc m v lo hi ≤ hi ∧
    (m.le v v = false → disc m v lo hi = lo) ∧
    (m.lt v (m.ofNat lo) = true → disc m v lo hi = lo) ∧
    (m.le v v = true → m.lt v (m.ofNat lo) = false → m.lt (m.ofNat hi) v = true → disc m v lo hi = hi) ∧
    (m.le v v = true → m.lt v (m.ofNat lo) = false → m.lt (m.ofNat hi) v = false →
      ∀ k : Nat, lo ≤ k → k ≤ hi → m.floor (m.add v (m.rat 1 2)) = k → disc m v lo hi = k)

/-! ### Voices -/

/-- R462, R221, R222: the edge of a voice's note starts or releases its envelope; the envelope value and the phase are
never reset, and a voice that becomes free keeps its frequency. -/
def Obligations.VoiceGateFollowsNoteEdges : Prop :=
  ∀ (m : Numerics) (v : Voice) (n : Nat),
    (v.lastNote ≠ some n → voiceGate m (some n) v =
      { v with envState := .attack, freq := mtof m n, lastNote := some n }) ∧
    (v.lastNote = some n → voiceGate m (some n) v = { v with freq := mtof m n }) ∧
    (v.lastNote = none → voiceGate m none v = v) ∧
    (v.lastNote ≠ none → voiceGate m none v =
      { v with
        envState := if v.envState = .attack ∨ v.envState = .sustain then .release else v.envState
        lastNote := none })

/-- R223: the four states of ENV_PROCESS. -/
def Obligations.EnvelopeProcessRampsAndClamps : Prop :=
  ∀ (m : Numerics) (r : EnvRegs) (v : Voice),
    let up := m.add v.envVal r.inc
    let down := m.sub v.envVal r.dec
    ((v.envState = .off ∨ v.envState = .sustain) → envProcess m r v = v) ∧
    (v.envState = .attack → m.le (m.ofNat 1) up = true →
      envProcess m r v = { v with envVal := m.ofNat 1, envState := .sustain }) ∧
    (v.envState = .attack → m.le (m.ofNat 1) up = false → envProcess m r v = { v with envVal := up }) ∧
    (v.envState = .release → m.le down (m.ofNat 0) = true →
      envProcess m r v = { v with envVal := m.ofNat 0, envState := .off }) ∧
    (v.envState = .release → m.le down (m.ofNat 0) = false → envProcess m r v = { v with envVal := down })

/-- R251 to R253, R256: the partials summed are those before the first one above half the sample rate, at most
MAX_PARTIALS, in increasing order from +0.0, each g × sin(2 × PI × frac(k × PHASE)) with g = 1 / pow(k, OSC_EXP). The
sample is +0.0 when none is included, else the sum divided by osc_norm; the reference osc_norm is the sum of the gains of
the partials included. -/
def Obligations.OscillatorStopsBelowNyquist : Prop :=
  (∀ (m : Numerics) (fs freq phase e : NUM) (spacing maxPartials : Nat),
    let r := oscLoop m fs freq phase e spacing maxPartials 0 NUM.zero 0
    let k (j : Nat) : NUM := m.ofNat (1 + j * spacing)
    r.2 ≤ maxPartials ∧
    (∀ j < r.2, m.lt (m.div fs (m.ofNat 2)) (m.mul freq (k j)) = false) ∧
    (r.2 < maxPartials → m.lt (m.div fs (m.ofNat 2)) (m.mul freq (k r.2)) = true) ∧
    r.1 = (List.range r.2).foldl (fun acc j => m.add acc (m.mul (m.div (m.ofNat 1) (m.pow (k j) e))
      (m.sin (m.mul (m.mul (m.ofNat 2) m.pi) (m.frac (m.mul (k j) phase)))))) NUM.zero) ∧
  (∀ (c : Cfg) (osc : OscRegs) (freq phase : NUM),
    let m := c.nm
    let r := oscLoop m c.fs freq phase osc.exponent osc.spacing c.maxPartials 0 NUM.zero 0
    (r.2 = 0 → oscSample c osc freq phase = NUM.zero) ∧
    (r.2 ≠ 0 → oscSample c osc freq phase = m.div r.1 (oscNorm c r.2 osc.exponent osc.spacing))) ∧
  (∀ (c : Cfg) (count : Nat) (e : NUM) (spacing : Nat), c.oscNorm = .sumOfGains →
    let m := c.nm
    oscNorm c count e spacing =
      (List.range count).foldl (fun acc j => m.add acc (m.div (m.ofNat 1) (m.pow (m.ofNat (1 + j * spacing)) e))) NUM.zero)

/-- R258, for the binary32 NUM with any maths library: at 440 Hz and 48000 Hz the full series has 54 partials and the odd
series 27. -/
def Obligations.PartialCountsAtConcertPitch : Prop :=
  ∀ (l : MathsLib) (phase e : NUM),
    (oscLoop (binary32 l) (f32OfRat 48000 1) (f32OfRat 440 1) phase e 1 4096 0 NUM.zero 0).2 = 54 ∧
    (oscLoop (binary32 l) (f32OfRat 48000 1) (f32OfRat 440 1) phase e 2 4096 0 NUM.zero 0).2 = 27

/-- R259, R463, R250, R255: each voice of a frame is gated and processed from its own fields, its own place's note and the
shared registers alone. A voice with a note n contributes its sample at MTOF(n) and its phase, times its envelope value
after this frame's update, and its phase moves on by FREQ / FS; a voice without a note contributes nothing and holds its
phase. -/
def Obligations.VoicesAreIndependentLanes : Prop :=
  ∀ (c : Cfg) (e : Engine) (i : Nat) (v : Voice), e.voices[i]? = some v →
    let m := c.nm
    let cur := e.alloc[i]?
    let p := envProcess m e.env (voiceGate m cur v)
    let o := voiceOut c e.env e.osc cur (voiceGate m cur v)
    (frame c e).2.voices[i]? = some o.2 ∧
    (cur = none → o = (none, p) ∧ p.phase = v.phase) ∧
    (∀ n, cur = some n →
      let freq := m.mul (m.ofNat 440) (m.exp2 (m.div (m.ofInt ((n : Int) - 69)) (m.ofNat 12)))
      p.freq = freq ∧
      o = (some (m.mul (oscSample c e.osc freq v.phase) p.envVal),
        { p with phase := m.frac (m.add v.phase (m.div freq c.fs)) }))

/-! ### Filter, delay line, reverb -/

/-- R292, for the binary32 NUM and any input and coefficients: the feedback term, the filter's input and the two taps
never lie outside their clamps (a NaN lies neither below nor above). -/
def Obligations.FilterClampsBoundItsState : Prop :=
  ∀ (c : Cfg) (f : Biquad) (x : NUM), c.isBinary32 = true →
    let m := c.nm
    let r := bqProcess c f x
    within m (m.rat (-9) 2) (m.rat 9 2) (feedbackTerm c f) ∧
    within m (m.ofInt (-5)) (m.ofNat 5) (filterInput c f x) ∧
    within m (m.ofInt (-100)) (m.ofNat 100) r.2.z1 ∧
    within m (m.ofInt (-100)) (m.ofNat 100) r.2.z2

/-- R324: the servo's three cases. -/
def Obligations.ServoSnapsOrGlides : Prop :=
  ∀ (m : Numerics) (rb : RingBuf),
    let near := m.le (m.abs (m.sub rb.act rb.goal)) (m.ofNat 5)
    (near = true → ringServo m rb = { rb with step := m.ofNat 1 }) ∧
    (near = false → m.lt rb.goal rb.act = true →
      ringServo m rb = { rb with step := m.rat 3 2, act := m.sub rb.act (m.rat 1 2) }) ∧
    (near = false → m.lt rb.goal rb.act = false →
      ringServo m rb = { rb with step := m.rat 1 2, act := m.add rb.act (m.rat 1 2) })

/-- R325 to R328, R101: the two neighbours of a read are floor(R) and the next index, wrapped over the buffer; in a frozen
buffer floor(FRZ_OFF) and the next offset, wrapped inside the window and counted from FRZ_START. A read takes the
interpolation mode's value of the two, remembers it, and divides it by STEP^1.5 while frozen with a step below 1; it
changes nothing else. That floor(R) is reduced modulo C too is the model's (log 8): it changes no pointer of R50. -/
def Obligations.RingReadInterpolatesNeighbours : Prop :=
  ∀ (m : Numerics) (cap : Nat) (rb : RingBuf), 0 < cap →
    let modulo (z : Int) (n : Nat) : Nat := (z % (n : Int)).toNat
    let pointer := if rb.frozen = true then rb.frzOff else rb.r
    let o := m.floor pointer
    let i0 := if rb.frozen = true then modulo ((rb.frzStart : Int) + o) cap else modulo o cap
    let i1 := if rb.frozen = true then modulo ((rb.frzStart : Int) + (modulo (o + 1) rb.frzS : Int)) cap
      else modulo (o + 1) cap
    let x0 := rb.buf.read i0
    let x1 := rb.buf.read i1
    let f := m.sub pointer (m.ofInt o)
    let raw := (ringRead m cap rb).2.apPrev
    i0 < cap ∧ i1 < cap ∧
    (rb.frozen = false → 0 ≤ o → o < cap → (i0 : Int) = o) ∧
    (rb.interp = .none → raw = x0) ∧
    (rb.interp = .linear → raw = m.add (m.mul (m.sub (m.ofNat 1) f) x0) (m.mul f x1)) ∧
    (rb.interp = .allpass → raw = m.sub (m.add (m.mul (m.div f (m.sub (m.ofNat 2) f)) x1) x0)
      (m.mul (m.div f (m.sub (m.ofNat 2) f)) rb.apPrev)) ∧
    (ringRead m cap rb).2 = { rb with apPrev := raw } ∧
    (rb.frozen = true → m.lt rb.step (m.ofNat 1) = true →
      (ringRead m cap rb).1 = m.div raw (m.pow rb.step (m.rat 3 2))) ∧
    ((rb.frozen = false ∨ m.lt rb.step (m.ofNat 1) = false) → (ringRead m cap rb).1 = raw)

/-- R329, R324, R330, R335 to R340, R11: a sample through a delay line reads, writes, runs the servo and moves the read
pointer by the step the servo has just set. Not frozen, the element at W takes x + d·fb, W moves on by one and every other
element is unchanged; frozen, no element and no W changes and the offset moves inside the window. The output is the
topology's. The last clause gives `wrap` where the result of R11's case is below C (a rounded result that reaches C: log
8). -/
def Obligations.DelayLineWritesAtWritePointer : Prop :=
  (∀ (m : Numerics) (cap : Nat) (topo : Topology) (fb mix x : NUM) (rb : RingBuf), RingOk m cap rb →
    let d := (ringRead m cap rb).1
    let r := dlProcess m cap topo fb mix x rb
    let near := m.le (m.abs (m.sub rb.act rb.goal)) (m.ofNat 5)
    let shrink := m.lt rb.goal rb.act
    let step := if near = true then m.ofNat 1 else if shrink = true then m.rat 3 2 else m.rat 1 2
    let act := if near = true then rb.act
      else if shrink = true then m.sub rb.act (m.rat 1 2) else m.add rb.act (m.rat 1 2)
    let move := if rb.rev = true then m.neg step else step
    let off := m.wrap (m.add rb.frzOff move) (m.ofNat rb.frzS)
    (rb.frozen = false →
      r.2.buf.read rb.w = m.add x (m.mul d fb) ∧ (∀ i, i ≠ rb.w → r.2.buf.read i = rb.buf.read i) ∧
      r.2 = { rb with
        buf := r.2.buf, w := (rb.w + 1) % cap, step := step, act := act
        r := m.wrap (m.add rb.r move) (m.ofNat cap), apPrev := (ringRead m cap rb).2.apPrev }) ∧
    (rb.frozen = true →
      r.2 = { rb with
        step := step, act := act, frzOff := off
        r := m.wrap (m.add (m.ofNat rb.frzStart) off) (m.ofNat cap), apPrev := (ringRead m cap rb).2.apPrev }) ∧
    (topo = .plain →
      let mm := m.clamp mix (m.ofNat 0) (m.ofNat 1)
      r.1 = m.add (m.mul (m.sqrt (m.sub (m.ofNat 1) mm)) x) (m.mul (m.sqrt mm) d)) ∧
    (topo = .allpass → r.1 = m.sub d (m.mul x fb)) ∧
    (topo = .comb → r.1 = d)) ∧
  (∀ (m : Numerics) (v c : NUM), m.le (m.neg c) v = true → m.lt v (m.mul (m.ofNat 2) c) = true →
    let w := if m.lt v NUM.zero = true then m.add v c else if m.le c v = true then m.sub v c else v
    m.le c w = false → m.wrap v c = w)

/-- R384, R340, for the binary32 NUM: fully dry, the reverb answers its input; fully wet, the output of the sixth stage.
Equality is the comparison of NUM, in which +0.0 and -0.0 are equal. -/
def Obligations.ReverbDryAndWetAreExact : Prop :=
  ∀ (c : Cfg) (rv : Reverb) (x : NUM), c.isBinary32 = true →
    let m := c.nm
    let wet := (runStages m (cRev c) x rv.stages).1
    let out := (rvProcess m (cRev c) x rv).1
    m.isFinite x = true → m.isFinite wet = true →
    (rv.mix = m.ofNat 0 → m.le out x = true ∧ m.le x out = true) ∧
    (rv.mix = m.ofNat 1 → m.le out wet = true ∧ m.le wet out = true)

/-- R402, R405, for the binary32 NUM: q = 0 resolves to the descriptor's minimum, for any skew above 0. -/
def Obligations.ResolveOfZeroIsMinimum : Prop :=
  ∀ (c : Cfg) (d : Descriptor), c.isBinary32 = true →
    let m := c.nm
    m.lt (m.ofNat 0) d.skew = true → m.isFinite d.min = true → m.isFinite (m.sub d.max d.min) = true →
    m.le (resolve m d 0) d.min = true ∧ m.le d.min (resolve m d 0) = true

/-! ### RENDER -/

/-- R464, R465, R290, R382, R340, R460: a frame is the voice mix through the filter, the delay line and the reverb, in that
order. The mix is MIX_GAIN times the sum, from +0.0 in increasing index, of what the voices contribute. The reverb runs
its stages in series as ALLPASS delay lines, each fed back by its own gain and its output halved, and crossfades its
input with the last by the square-root law. The filter's sample is written out, and its coefficients and parameters stay.
B frames are the outputs of B frames in turn, and leave the engine of the last. -/
def Obligations.FrameRunsTheChainInOrder : Prop :=
  (∀ (c : Cfg) (e : Engine),
    let m := c.nm
    let f := e.flt
    let voice (p : Voice × Nat) := voiceOut c e.env e.osc e.alloc[p.2]? (voiceGate m e.alloc[p.2]? p.1)
    let outs := e.voices.zipIdx.map voice
    let sum := outs.foldl (fun acc o => o.1.elim acc (fun x => m.add acc x)) NUM.zero
    let t := m.clamp (m.mul (m.mul c.fbScale f.q) f.fb) (m.rat (-9) 2) (m.rat 9 2)
    let u := m.clamp (m.add (m.mul c.mixGain sum) t) (m.ofInt (-5)) (m.ofNat 5)
    let y1 := m.add (m.mul f.b0 u) f.z1
    let y2 := dlProcess m (cMain c) e.dl.topo e.dl.fb e.dl.mix y1 e.dl.rb
    let stage (p : NUM × List Stage) (st : Stage) : NUM × List Stage :=
      let q := dlProcess m (cRev c) .allpass st.g NUM.zero p.1 st.rb
      (m.mul (m.rat 1 2) q.1, p.2 ++ [{ st with rb := q.2 }])
    let wet := e.rv.stages.foldl stage (y2.1, [])
    let mm := m.clamp e.rv.mix (m.ofNat 0) (m.ofNat 1)
    (frame c e).1 = m.add (m.mul (m.sqrt (m.sub (m.ofNat 1) mm)) y2.1) (m.mul (m.sqrt mm) wet.1) ∧
    (frame c e).2 = { e with
      voices := outs.map (fun o => o.2)
      flt := { f with
        z1 := m.clamp (m.add (m.sub (m.mul f.b1 u) (m.mul f.a1 y1)) f.z2) (m.ofInt (-100)) (m.ofNat 100)
        z2 := m.clamp (m.sub (m.mul f.b2 u) (m.mul f.a2 y1)) (m.ofInt (-100)) (m.ofNat 100)
        fb := y1 }
      dl := { e.dl with rb := y2.2 }
      rv := { e.rv with stages := wet.2 } }) ∧
  (∀ (c : Cfg) (e : Engine) (b : Nat),
    let after (k : Nat) : Engine := Nat.repeat (fun x => (frame c x).2) k e
    (frames c b e).1 = (List.range b).map (fun k => (frame c (after k)).1) ∧ (frames c b e).2 = after b)

/-- R460, R469, R468: in a sound running block whose oldest update is known or ignored, RENDER completes: it pops one
entry of each channel, and from the engine that the note entry and then the update make of the one before it emits exactly
B frames, each computed by FRAME, after those already in OUT, and touches nothing else. -/
def Obligations.RenderEmitsExactlyItsFrames : Prop :=
  ∀ (s : State) (b : Nat), Inv s → Running s →
    (∀ u, s.updq.head? = some u → knownId s.cfg u.id = true ∨ s.cfg.unknownId = .ignore) →
    ∃ t, andThen (noteEffect s) updateEffect = .next t ∧
      exec (.render b) s = .next { s with
        noteq := s.noteq.tail
        updq := s.updq.tail
        engine := (frames s.cfg b t.engine).2
        out := s.out ++ (frames s.cfg b t.engine).1 } ∧
      (frames s.cfg b t.engine).1.length = b ∧
      (s.noteq = [] → s.updq = [] → t.engine = s.engine)

/-- R447, R504, R460: an unknown id under the policy `fault` ends RENDER after both pops: the note entry has been applied,
no field is written by the update and no frame is emitted. -/
def Obligations.RenderFaultsOnUnknownUpdate : Prop :=
  ∀ (s : State) (b : Nat) (u : Update) (q : List Update), Running s → s.updq = u :: q →
    knownId s.cfg u.id = false → s.cfg.unknownId = .fault →
    ∃ held, exec (.render b) s = .next { s with
        noteq := s.noteq.tail
        updq := q
        engine := { s.engine with alloc := held }
        fault := some .unknownId } ∧
      (s.noteq = [] → held = s.engine.alloc) ∧
      (∀ x rest n, s.noteq = x :: rest → decode (.n x) = .ok (.nqNoteOff n) → held = removeNote n s.engine.alloc) ∧
      (∀ x rest n, s.noteq = x :: rest → decode (.n x) = .ok (.nqNoteOn n) → held = addNote s.cfg.n n s.engine.alloc) ∧
      (∀ x rest e, s.noteq = x :: rest → decode (.n x) = .error e → held = s.engine.alloc)

/-- R461: with nothing queued, one buffer of A + B frames is a buffer of A frames and then one of B frames. -/
def Obligations.RenderSplitsIntoBuffers : Prop :=
  ∀ (s : State) (a b : Nat), s.noteq = [] → s.updq = [] →
    exec (.render (a + b)) s = andThen (exec (.render a) s) (fun t => exec (.render b) t)

/-! ### Frames: what instructions leave unchanged -/

/-- R49, R509: a MIDI or register-port instruction leaves the configuration, the DSP units with every sample, the output
and the schedule unchanged; only SET and CC change the table, a pending update or the update channel, and of the table
only the entry of their id; only a note message changes the note channel, only GET gives an answer, and only SET and GET
touch FAULT. -/
def Obligations.HostInstructionFrame : Prop :=
  ∀ (i : Instr) (s t : State), isHostInstr i = true → exec i s = .next t →
    t.cfg = s.cfg ∧ t.engine = s.engine ∧ sameSamples s.engine t.engine ∧ t.out = s.out ∧ t.inbox = s.inbox ∧
    t.shut = s.shut ∧ (t.lock = s.lock ∨ t.lock = .free) ∧
    (∀ a id q, i = .set a id q →
      (∀ b, b ≠ a → pendOf b t = pendOf b s) ∧ ∀ k, k ≠ id → readTable k t = readTable k s) ∧
    (∀ ch k q, i = .midiCc ch k q → t.pendUi = s.pendUi ∧
      ∀ j, (∀ d, ccBinding s.cfg k = some d → j ≠ d.id) → readTable j t = readTable j s) ∧
    ((∀ a id q, i ≠ .set a id q) → (∀ ch k q, i ≠ .midiCc ch k q) →
      t.tbl = s.tbl ∧ t.pendMidi = s.pendMidi ∧ t.pendUi = s.pendUi ∧ t.updq = s.updq) ∧
    ((∀ ch n v, i ≠ .midiNoteOff ch n v) → (∀ ch n v, i ≠ .midiNoteOn ch n v) → t.noteq = s.noteq) ∧
    ((∀ a id q, i ≠ .get a id q) → t.replies = s.replies) ∧
    ((∀ a id q, i ≠ .set a id q) → (∀ a id q, i ≠ .get a id q) → t.fault = s.fault)

/-- R49, R430 to R446, R470, R471: an entry applied by RENDER changes the engine alone, no sample memory and no write
pointer among it, and no voice, tap or output. -/
def Obligations.ChannelEntryFrame : Prop :=
  ∀ (i : Instr) (s t : State), isChannelInstr i = true → exec i s = .next t →
    t = { s with engine := t.engine } ∧
    sameSamples s.engine t.engine ∧
    t.engine.dl.rb.w = s.engine.dl.rb.w ∧
    t.engine.rv.stages.map (fun st => st.rb) = s.engine.rv.stages.map (fun st => st.rb) ∧
    t.engine.voices = s.engine.voices ∧
    t.engine.flt.z1 = s.engine.flt.z1 ∧ t.engine.flt.z2 = s.engine.flt.z2 ∧ t.engine.flt.fb = s.engine.flt.fb

/-- R123, R124, R329, R460: RENDER leaves the host side unchanged, and of the sample memories it changes no element but
those its B ticks write from the write pointer on, in the main delay line only while it is not frozen. -/
def Obligations.RenderFrame : Prop :=
  ∀ (s t : State) (b : Nat), Inv s → exec (.render b) s = .next t → t.fault = none →
    t.cfg = s.cfg ∧ t.tbl = s.tbl ∧ t.lock = s.lock ∧ t.pendMidi = s.pendMidi ∧ t.pendUi = s.pendUi ∧
    t.replies = s.replies ∧ t.inbox = s.inbox ∧ t.shut = s.shut ∧
    (t.engine.dl.rb.frozen = true →
      t.engine.dl.rb.w = s.engine.dl.rb.w ∧ ∀ i, t.engine.dl.rb.buf.read i = s.engine.dl.rb.buf.read i) ∧
    (t.engine.dl.rb.frozen = false →
      t.engine.dl.rb.w = (s.engine.dl.rb.w + b) % cMain s.cfg ∧
      ∀ i, ¬ writtenBy (cMain s.cfg) s.engine.dl.rb.w b i → t.engine.dl.rb.buf.read i = s.engine.dl.rb.buf.read i) ∧
    (∀ (j : Nat) (st st' : Stage), s.engine.rv.stages[j]? = some st → t.engine.rv.stages[j]? = some st' →
      st'.rb.w = (st.rb.w + b) % cRev s.cfg ∧
      ∀ i, ¬ writtenBy (cRev s.cfg) st.rb.w b i → st'.rb.buf.read i = st.rb.buf.read i)

/-! ### Whole-machine rules -/

/-- R31: no step changes the configuration. -/
def Obligations.NoStepChangesConfiguration : Prop :=
  ∀ s t : State, step s = .next t → t.cfg = s.cfg

/-- R48, R125: a step only appends frames to OUT, and only a RENDER word does. -/
def Obligations.StepOnlyAppendsFrames : Prop :=
  ∀ s t : State, step s = .next t →
    (∃ ys, t.out = s.out ++ ys) ∧
    ((∀ x rest, s.inbox ≠ .word (.c x) :: rest) → t.out = s.out ∧ t.engine = s.engine)

/-- R500, R504, R507: after construction the only fault a step raises is F_UNKNOWN_ID, only under the policy `fault`, and
such a step emits no frame and writes no table entry. -/
def Obligations.OnlyUnknownIdFaults : Prop :=
  ∀ s t : State, step s = .next t →
    s.fault = none ∧
    (t.fault = none ∨
      (t.fault = some .unknownId ∧ s.cfg.unknownId = .fault ∧ t.out = s.out ∧ t.tbl = s.tbl))

/-- R124, R49: what RENDER does is the same whatever the hosts' state is, and it leaves that state as it was. -/
def Obligations.EngineIsBlindToHostState : Prop :=
  ∀ (b : Nat) (s h : State),
    exec (.render b) (withHostSide h s) = mapNext (withHostSide h) (exec (.render b) s)

/-- R124, R49, R509: what a MIDI or register-port instruction does is the same whatever the DSP state and the output
are, and it leaves them as they were. -/
def Obligations.HostsAreBlindToEngineState : Prop :=
  ∀ (i : Instr) (s h : State), isHostInstr i = true →
    exec i (withEngineSide h s) = mapNext (withEngineSide h) (exec i s)

/-! ### Construction and reset -/

/-- R560 steps 1 to 3, R404, R502, R6: the bounds a legal configuration meets, the checks after it and the order in which
they fail. That a product FS × t that is a NaN or an infinity meets no bound is the model's reading (log 35); that equal
base delays are accepted is its choice (log 34). -/
def Obligations.ConstructionChecksInOrder : Prop :=
  ∀ (c : Cfg) (env : Env),
    let m := c.nm
    let samples (t : NUM) : Int := m.floor (m.mul c.fs t)
    let ids := c.ptable.map (fun d => d.id)
    let tags := c.ptable.map (fun d => d.tag)
    let exact := (∀ k, k ∈ ids ↔ k ≤ 16)
    let bad (d : Descriptor) : Prop :=
      m.le d.skew (m.ofNat 0) = true ∨ m.lt d.max d.min = true ∨ 35 < d.defaultQ ∨ tagIndex d.tag = none
    (cfgLegal c = true ↔
      (m.isFinite (m.mul c.fs c.delayMaxS) = true ∧ 16 ≤ samples c.delayMaxS) ∧
      (m.isFinite (m.mul c.fs c.revMaxS) = true ∧ 16 ≤ samples c.revMaxS) ∧
      c.reverbDelaysMs.length = 6 ∧
      (∀ d ∈ c.reverbDelaysMs,
        m.le (m.mul (m.div d (m.ofNat 1000)) c.fs) (m.ofInt (samples c.revMaxS - 4)) = true) ∧
      m.lt NUM.zero c.fs = true ∧ m.lt NUM.zero c.envMsMin = true ∧ m.le c.envMsMin c.envMsMax = true ∧
      1 ≤ c.maxPartials ∧ m.isFinite c.fbScale = true ∧
      1 ≤ c.n ∧ 1 ≤ c.ch ∧ 1 ≤ c.updDepth ∧ 1 ≤ c.noteDepth ∧ c.midiChannel ≤ 15) ∧
    (cfgLegal c = false → construct c env = .refused) ∧
    (cfgLegal c = true →
      (¬ ids.Nodup → construct c env = .faulted .dupId) ∧
      (ids.Nodup → ¬ tags.Nodup → construct c env = .faulted .dupTag) ∧
      (ids.Nodup → tags.Nodup → (¬ exact ∨ ∃ d ∈ c.ptable, bad d) → construct c env = .faulted .invalidDescriptor) ∧
      (ids.Nodup → tags.Nodup → exact → (∀ d ∈ c.ptable, ¬ bad d) →
        (env.audioDevice = false → construct c env = .faulted .noAudioDevice) ∧
        (env.audioDevice = true → env.formatOk = false → construct c env = .faulted .unsupportedFormat) ∧
        (env.audioDevice = true → env.formatOk = true → env.midiPort = false → construct c env = .faulted .noMidiPort) ∧
        (env.audioDevice = true → env.formatOk = true → env.midiPort = true → construct c env = .built (State.ofCfg c))))

/-- R560 steps 4 to 10, for every configuration: no history is left. The registers that the defaults set are in the next
statement, for the reference values. -/
def Obligations.ConstructionLeavesNoHistory : Prop :=
  ∀ c : Cfg,
    let s := State.ofCfg c
    s.tbl = c.ptable.map (fun d => { id := d.id, q := d.defaultQ }) ∧
    s.lock = .free ∧ s.pendMidi = none ∧ s.pendUi = none ∧ s.updq = [] ∧ s.noteq = [] ∧ s.fault = none ∧ s.out = [] ∧
    s.engine.alloc = [] ∧
    s.engine.voices = List.replicate c.n
      { envState := .off, envVal := NUM.zero, lastNote := none, freq := NUM.zero, phase := NUM.zero } ∧
    s.engine.flt.z1 = NUM.zero ∧ s.engine.flt.z2 = NUM.zero ∧ s.engine.flt.fb = NUM.zero ∧
    s.engine.dl.rb.w = 0 ∧ s.engine.dl.rb.step = c.nm.ofNat 1 ∧ s.engine.dl.rb.apPrev = NUM.zero ∧
    (∀ i, s.engine.dl.rb.buf.read i = NUM.zero) ∧
    s.engine.rv.stages.length = NSTAGES ∧
    ∀ st ∈ s.engine.rv.stages, st.rb.w = 0 ∧ st.rb.apPrev = NUM.zero ∧ st.rb.frozen = false ∧ st.rb.rev = false ∧
      ∀ i, st.rb.buf.read i = NUM.zero

/-- R561, R401: the registers of the reset state that the spec gives patterns or names for. R7 leaves `pow` to the
implementation: nearly every value here assumes the NUM record whose `pow` is the correctly rounded one (log 3, the
model's choice), as the patterns of 95_test_vectors.md do. -/
def Obligations.ResetRegistersHoldSpecValues : Prop :=
  let e := State.reset.engine
  State.reset.tbl.map (fun x => x.q) = [5, 10, 0, 10, 35, 5, 20, 0, 14, 14, 0, 0, 0, 17, 0, 14, 0] ∧
  e.env.attMs = 0x42272F06#32 ∧ e.env.relMs = 0x43A3B979#32 ∧
  e.osc = { spacing := 1, exponent := 0x3F800000#32 } ∧
  e.flt.kind = .lp ∧ e.flt.fc = f32OfRat 20000 1 ∧ e.flt.q = 0x3F31A1F6#32 ∧ e.flt.gdb = 0x36000000#32 ∧
  e.dl.fb = 0x3EC28F5C#32 ∧ e.dl.mix = NUM.zero ∧ e.dl.topo = .plain ∧
  e.dl.rb.interp = .linear ∧ e.dl.rb.rev = false ∧ e.dl.rb.frozen = false ∧ e.dl.rb.act = e.dl.rb.goal ∧
  e.dl.rb.r = f32OfRat 80236796875 1000000 ∧
  e.rv.rt60 = 0x3FD78D51#32 ∧ e.rv.mix = NUM.zero ∧
  e.rv.stages.all (fun st => st.rb.interp == .linear && st.rb.act == st.rb.goal) = true

/-! ### Invariants -/

/-- R50, R560, R562: the block that construction builds from any legal configuration with a valid table is sound. Under
the binary32 NUM its value registers are within their bounds; and with capacities that binary32 holds exactly (R8) and a
resolved default of the delay time that is no NaN, as R50 says of every resolved table value, so are the pointers of its
ring buffers. The reset state is one such block. -/
def Obligations.ResetIsSound : Prop :=
  (∀ c : Cfg, cfgLegal c = true → validateTable c = none →
    let s := State.ofCfg c
    Inv s ∧
    (c.isBinary32 = true → Bounded c s.engine) ∧
    (c.isBinary32 = true → exactCapacities c → c.nm.isNaN (resolvedDefault c 8) = false → Pointers c s.engine)) ∧
  Inv State.reset ∧ Bounded State.reset.cfg State.reset.engine ∧ Pointers State.reset.cfg State.reset.engine

/-- R50: every step of a sound block leaves a sound block: at most N distinct notes, the table within 0..35 with LOCK
free, the channels within their depths, every write pointer and window inside its buffer, every sample memory in
canonical form, the reverb's ring buffers never frozen, reversed or switched. -/
def Obligations.StepKeepsBlockSound : Prop :=
  ∀ s t : State, Inv s → step s = .next t → Inv t

/-- R127, R469, R503: a sound running block always has its next step: no step of it stops, so a block stops only by a
fault raised before or by shutdown. With an empty schedule the spec's agents are idle by having no step (R514), and that
`step` then answers the same state is the model's choice (log 17). -/
def Obligations.SoundRunningBlockAlwaysSteps : Prop :=
  ∀ s : State, Inv s → Running s → ∃ t, step s = .next t

/-- R50, R45, R257, R281, R292, R323, for the binary32 NUM: no step takes an envelope value out of [0, 1], a tap out of
[-100, 100], a mix out of [0, 1], the exponent or an increment below 0, the resonance, cutoff, gain or decay time out of
its clamp, or the delay goal out of [4, C − 4]. With capacities that binary32 holds exactly (R8), and while the update at
the head of its channel carries no NaN (R50), no step takes a ring buffer's goal or delay out of [4, C − 4], its read
pointer out of [0, C) or a frozen buffer's offset out of its window. -/
def Obligations.StepKeepsValuesBounded : Prop :=
  ∀ s t : State, s.cfg.isBinary32 = true → Inv s → step s = .next t →
    (Bounded s.cfg s.engine → Bounded t.cfg t.engine) ∧
    (exactCapacities s.cfg → (∀ u, s.updq.head? = some u → s.cfg.nm.isNaN u.v = false) →
      Pointers s.cfg s.engine → Pointers t.cfg t.engine)
end

