-- ==== Sys2Proof/Laws/Encoding.lean ====
section
/-! SUPPORT. Port words: bit fields, what each format's decoder can answer, and the words the encoder's helpers build. -/

namespace Sys2Proof

theorem bitField_lt (w lo width : Nat) : bitField w lo width < 2 ^ width := Nat.mod_lt _ (Nat.two_pow_pos width)

/-- A mask of `width` bits from bit `lo` on picks the field, left where it stands. -/
theorem and_fieldMask (w lo width : Nat) : w &&& ((2 ^ width - 1) * 2 ^ lo) = bitField w lo width * 2 ^ lo := by
  apply Nat.eq_of_testBit_eq
  intro j
  rw [bitField, Nat.testBit_and, Nat.testBit_mul_two_pow, Nat.testBit_mul_two_pow, Nat.testBit_two_pow_sub_one,
    Nat.testBit_mod_two_pow, Nat.testBit_div_two_pow]
  by_cases h : lo ≤ j
  · simp [h, Nat.sub_add_cancel h, Bool.and_comm]
  · simp [h]

/-- A word with the field `v` under such a mask has that field. -/
theorem bitField_of_mask {w lo width v : Nat} (h : w &&& ((2 ^ width - 1) * 2 ^ lo) = v * 2 ^ lo) : bitField w lo width = v := by
  rw [and_fieldMask] at h
  exact Nat.eq_of_mul_eq_mul_right (Nat.two_pow_pos lo) h

/-- No word is selected by two rows that are disjoint (R150). -/
theorem not_both_selected {r t : OpRow} (h : r.disjoint t = true) (w : PortWord) (hr : r.selects w = true) :
    t.selects w = false := by
  by_contra hc
  have ht : t.selects w = true := by simpa using hc
  simp only [OpRow.selects, Bool.and_eq_true, beq_iff_eq] at hr ht
  simp only [OpRow.disjoint, Bool.or_eq_true, bne_iff_ne] at h
  rcases h with h | h
  · exact h (hr.1.trans ht.1.symm)
  · refine h ?_
    rw [← hr.2, ← ht.2]
    apply Nat.eq_of_testBit_eq
    intro j
    simp only [Nat.testBit_and]
    cases w.bits.testBit j <;> cases r.mask.testBit j <;> cases t.mask.testBit j <;> rfl

/-! ### What the decoders answer -/

/-- Format M: no status byte, a malformed data byte, or a status row. -/
theorem decodeM_cases (w : Nat) :
    (bitField w 23 1 = 0 ∧ decodeM w = .ok (.midiNoStatus (bitField w 16 7) (bitField w 8 8) (bitField w 0 8))) ∨
    (bitField w 23 1 = 1 ∧ (bitField w 15 1 = 1 ∨ bitField w 7 1 = 1) ∧ decodeM w = .error .malformedDataByte) ∨
    (bitField w 23 1 = 1 ∧ bitField w 15 1 = 0 ∧ bitField w 7 1 = 0 ∧
      decodeM w = decodeStatus (bitField w 20 4) (bitField w 16 4) (bitField w 8 7) (bitField w 0 7)) := by
  have h1 := bitField_lt w 23 1
  have h2 := bitField_lt w 15 1
  have h3 := bitField_lt w 7 1
  unfold decodeM
  by_cases ha : bitField w 23 1 = 0
  · exact .inl ⟨ha, if_pos ha⟩
  · rw [if_neg ha]
    by_cases hb : bitField w 15 1 = 1 ∨ bitField w 7 1 = 1
    · exact .inr (.inl ⟨by omega, hb, if_pos hb⟩)
    · exact .inr (.inr ⟨by omega, by omega, by omega, if_neg hb⟩)

/-- Format S is total: SET or GET. -/
theorem decodeS_cases (a : HostAgent) (w : Nat) :
    (bitField w 15 1 = 0 ∧ decodeS a w = .ok (.set a (bitField w 8 7) (bitField w 0 8))) ∨
    (bitField w 15 1 = 1 ∧ decodeS a w = .ok (.get a (bitField w 8 7) (bitField w 0 8))) := by
  have h1 := bitField_lt w 15 1
  unfold decodeS
  by_cases ha : bitField w 15 1 = 0
  · exact .inl ⟨ha, if_pos ha⟩
  · exact .inr ⟨by omega, if_neg ha⟩

/-- Format N: the two note rows, or nothing. -/
theorem decodeN_cases (w : Nat) :
    (bitField w 7 9 = 0x100 ∧ decodeN w = .ok (.nqNoteOff (bitField w 0 7))) ∨
    (bitField w 7 9 = 0x120 ∧ decodeN w = .ok (.nqNoteOn (bitField w 0 7))) ∨
    (bitField w 7 9 ≠ 0x100 ∧ bitField w 7 9 ≠ 0x120 ∧ decodeN w = .error .unknownNoteWord) := by
  unfold decodeN
  by_cases ha : bitField w 7 9 = 0x100
  · exact .inl ⟨ha, if_pos ha⟩
  · rw [if_neg ha]
    by_cases hb : bitField w 7 9 = 0x120
    · exact .inr (.inl ⟨hb, if_pos hb⟩)
    · exact .inr (.inr ⟨ha, hb, if_neg hb⟩)

/-- Ids above 16 have no update row (R447). -/
theorem decodeUpdate_unknown {id : Nat} (h : 16 < id) (v : NUM) : decodeUpdate id v = .error .unknownUpdateId := by
  unfold decodeUpdate
  split <;> first | omega | rfl

/-! ### The words the encoder builds -/

/-- A channel or system message decodes by its status nibble to its fields. -/
theorem decode_statusWord {kind chan d1 d2 : Nat} (hk : 8 ≤ kind ∧ kind < 16) (hf : midiFieldsOk chan d1 d2 = true) :
    decode (statusWord kind chan d1 d2) = decodeStatus kind chan d1 d2 := by
  simp only [midiFieldsOk, Bool.and_eq_true, decide_eq_true_eq] at hf
  have hlt : kind * 2 ^ 20 + chan * 2 ^ 16 + d1 * 2 ^ 8 + d2 < 2 ^ 24 := by omega
  simp only [statusWord, decode, decodeM, BitVec.toNat_ofNat, Nat.mod_eq_of_lt hlt, bitField]
  rw [if_neg (by omega), if_neg (by omega)]
  congr 1 <;> omega

/-- An update word decodes by its id to its value. -/
theorem decode_updateWord {id : Nat} (h : id < 256) (v : NUM) : decode (updateWord id v) = decodeUpdate id v := by
  have hv := v.isLt
  have hlt : id * 2 ^ 32 + v.toNat < 2 ^ 40 := by omega
  simp only [updateWord, decode, decodeU, BitVec.toNat_ofNat, Nat.mod_eq_of_lt hlt, bitField]
  rw [show (id * 2 ^ 32 + v.toNat) / 2 ^ 32 % 2 ^ 8 = id by omega,
    show (id * 2 ^ 32 + v.toNat) / 2 ^ 0 % 2 ^ 32 = v.toNat by omega, BitVec.ofNat_toNat, BitVec.setWidth_eq]

end Sys2Proof
end

