-- ==== Sys2Proof/Laws/Float.lean ====
section
/-! SUPPORT. Facts about the binary32 operations: packing, exactness of the rounding on representable values, the order, the units 0 and 1, signs and bounds of sums, and that rounding is monotone. -/

namespace Sys2Proof.Machine

/-! ### Patterns -/

theorem f32Pack_toNat (neg : Bool) {mag : Nat} (h : mag < 2 ^ 31) :
    (f32Pack neg mag).toNat = mag + if neg then 2 ^ 31 else 0 := by
  unfold f32Pack
  rw [BitVec.toNat_ofNat]
  cases neg <;> simp <;> omega

@[simp] theorem f32Mag_pack (neg : Bool) {mag : Nat} (h : mag < 2 ^ 31) : f32Mag (f32Pack neg mag) = mag := by
  unfold f32Mag
  rw [f32Pack_toNat neg h]
  cases neg <;> simp <;> omega

@[simp] theorem f32Neg_pack (neg : Bool) {mag : Nat} (h : mag < 2 ^ 31) : f32Neg (f32Pack neg mag) = neg := by
  unfold f32Neg
  rw [f32Pack_toNat neg h]
  cases neg <;> simp <;> omega

theorem f32Mag_lt (x : NUM) : f32Mag x < 2 ^ 31 := Nat.mod_lt _ (by decide)

/-- A pattern is its sign and its magnitude bits. -/
theorem f32Pack_self (x : NUM) : f32Pack (f32Neg x) (f32Mag x) = x := by
  apply BitVec.eq_of_toNat_eq
  rw [f32Pack_toNat _ (f32Mag_lt x)]
  have := x.isLt
  unfold f32Neg f32Mag
  by_cases h : 2 ^ 31 ≤ x.toNat
  · simp only [h, decide_true, if_true]; omega
  · simp only [h, decide_false]; simp; omega

/-! ### Rounding -/

theorem f32RoundMag_le_inf (n d : Nat) : f32RoundMag n d ≤ f32InfMag := Nat.min_le_right _ _

theorem f32UnitsOfMag_eq (mag : Nat) :
    ∃ s m, f32UnitsOfMag mag = m * 2 ^ s ∧ m < 2 ^ 24 ∧ s * 2 ^ 23 + m = mag ∧ (s = 0 ∨ 2 ^ 23 ≤ m) := by
  unfold f32UnitsOfMag
  split
  · next h => exact ⟨0, mag, by simp, by omega, by simp, .inl rfl⟩
  · next h =>
    refine ⟨mag / 2 ^ 23 - 1, mag % 2 ^ 23 + 2 ^ 23, rfl, by omega, ?_, .inr (by omega)⟩
    have := Nat.div_add_mod mag (2 ^ 23)
    have h1 : 1 ≤ mag / 2 ^ 23 := by omega
    omega

/-- The scale that `f32RoundMag` chooses for a count of the form m · 2^s with m of at most 24 bits. -/
theorem scale_of_units {m s : Nat} (hm : m < 2 ^ 24) (hs : s = 0 ∨ 2 ^ 23 ≤ m) :
    (if m * 2 ^ s < 2 ^ 24 then 0 else Nat.log2 (m * 2 ^ s) - 23) = s := by
  rcases hs with rfl | hs
  · exact if_pos (by simpa using hm)
  · by_cases h0 : s = 0
    · subst h0; exact if_pos (by simpa using hm)
    · have h1 : 2 ^ (23 + s) ≤ m * 2 ^ s := by rw [Nat.pow_add]; exact Nat.mul_le_mul_right _ hs
      have h2 : m * 2 ^ s < 2 ^ (23 + s + 1) := by
        rw [show 23 + s + 1 = 24 + s by omega, Nat.pow_add]
        exact Nat.mul_lt_mul_of_pos_right hm (Nat.two_pow_pos s)
      have h3 : ¬ m * 2 ^ s < 2 ^ 24 := by
        have : 2 ^ 24 ≤ 2 ^ (23 + s) := Nat.pow_le_pow_right (by decide) (by omega)
        omega
      rw [if_neg h3, Nat.log2_eq_iff (by omega) |>.2 ⟨h1, h2⟩]
      omega

/-- Rounding a representable value gives it back. -/
theorem f32RoundMag_exact {mag d : Nat} (h : mag ≤ f32InfMag) (hd : 0 < d) : f32RoundMag (f32UnitsOfMag mag * d) d = mag := by
  obtain ⟨s, m, hu, hm, hsm, hs⟩ := f32UnitsOfMag_eq mag
  have hq : f32UnitsOfMag mag * d / d = m * 2 ^ s := by rw [Nat.mul_div_cancel _ hd, hu]
  have hn : f32UnitsOfMag mag * d = m * (d * 2 ^ s) := by rw [hu]; ring
  have hd' : 0 < d * 2 ^ s := Nat.mul_pos hd (Nat.two_pow_pos s)
  simp only [f32RoundMag, hq, scale_of_units hm hs]
  rw [hn, Nat.mul_div_cancel _ hd', Nat.mul_mod_left]
  have h1 : ¬ d * 2 ^ s < 2 * 0 := by omega
  have h2 : ¬ (2 * 0 = d * 2 ^ s) := by omega
  simp only [h1, decide_false, Bool.false_or, beq_eq_false_iff_ne.2 h2, Bool.false_and]
  simp only [Bool.false_eq_true, if_false, Nat.add_zero, hsm]
  exact Nat.min_eq_left h

theorem f32UnitsOfMag_one : f32UnitsOfMag 0x3F800000 = 2 ^ 149 := by decide +kernel

/-- A value of at most one rounds to at most one. -/
theorem f32RoundMag_le_one {n d : Nat} (hd : 0 < d) (h : n ≤ 2 ^ 149 * d) : f32RoundMag n d ≤ 0x3F800000 := by
  have hq : n / d ≤ 2 ^ 149 := by
    rw [Nat.div_le_iff_le_mul_add_pred hd]; nlinarith [Nat.zero_le (d - 1)]
  rcases Nat.lt_or_ge (n / d) (2 ^ 149) with hlt | hge
  · have hb : ∀ s, s = (if n / d < 2 ^ 24 then 0 else Nat.log2 (n / d) - 23) → s ≤ 125 ∧ n / (d * 2 ^ s) < 2 ^ 24 := by
      intro s hs
      split at hs
      · next h24 => subst hs; simpa using h24
      · next h24 =>
        have h0 : n / d ≠ 0 := by omega
        have hl : Nat.log2 (n / d) < 149 := (Nat.log2_lt h0).2 hlt
        have hl2 : 23 ≤ Nat.log2 (n / d) := by
          by_contra hc
          have := (Nat.log2_lt h0).1 (show Nat.log2 (n / d) < 23 by omega)
          omega
        refine ⟨by omega, ?_⟩
        rw [← Nat.div_div_eq_div_mul, Nat.div_lt_iff_lt_mul (Nat.two_pow_pos s), ← Nat.pow_add]
        have := (Nat.log2_lt h0).1 (show Nat.log2 (n / d) < 24 + s by omega)
        exact this
    simp only [f32RoundMag]
    generalize hs : (if n / d < 2 ^ 24 then 0 else Nat.log2 (n / d) - 23) = s
    obtain ⟨h1, h2⟩ := hb s hs.symm
    refine le_trans (Nat.min_le_left _ _) ?_
    have hup : ∀ up : Bool, (if up = true then 1 else 0) ≤ 1 := by decide
    have := hup (decide (d * 2 ^ s < 2 * (n % (d * 2 ^ s))) || 2 * (n % (d * 2 ^ s)) == d * 2 ^ s && n / (d * 2 ^ s) % 2 == 1)
    omega
  · have he : n = 2 ^ 149 * d := by
      have h1 := Nat.div_mul_le_self n d
      have h2 : 2 ^ 149 * d ≤ n / d * d := Nat.mul_le_mul_right d hge
      omega
    rw [he, ← f32UnitsOfMag_one, f32RoundMag_exact (by decide) hd]

/-! ### The order -/

theorem f32Lt_irrefl (x : NUM) : f32Lt x x = false := by simp [f32Lt]

theorem f32Lt_asymm {x y : NUM} (h : f32Lt x y = true) : f32Lt y x = false := by
  simp only [f32Lt, Bool.and_eq_true, decide_eq_true_eq] at h
  simp only [f32Lt, Bool.and_eq_false_iff, decide_eq_false_iff_not]
  exact .inr (by omega)

theorem f32Lt_trans_not {x y z : NUM} (h1 : f32Lt x y = true) (h2 : f32Lt z y = false) (hz : f32IsNaN z = false) :
    f32Lt z x = false := by
  simp only [f32Lt, Bool.and_eq_true, decide_eq_true_eq, Bool.not_eq_true'] at h1
  simp only [f32Lt, Bool.and_eq_false_iff, decide_eq_false_iff_not] at h2 ⊢
  rcases h2 with (h2 | h2) | h2
  · rw [hz] at h2; cases h2
  · rw [h1.1.2] at h2; cases h2
  · exact .inr (by omega)

@[simp] theorem f32Mag_zero : f32Mag NUM.zero = 0 := rfl
@[simp] theorem f32Neg_zero : f32Neg NUM.zero = false := rfl
@[simp] theorem f32Key_zero : f32Key NUM.zero = 0 := rfl
@[simp] theorem f32IsNaN_zero : f32IsNaN NUM.zero = false := rfl

/-- Not below 0: a NaN, or no sign bit, or a negative zero. -/
theorem f32Lt_zero_iff (x : NUM) : f32Lt x NUM.zero = false ↔ f32IsNaN x = true ∨ f32Neg x = false ∨ f32Mag x = 0 := by
  unfold f32Lt
  cases hn : f32IsNaN x <;> cases hs : f32Neg x <;> simp [f32Key, hs]

/-- Above 0: no NaN, no sign bit, not zero. -/
theorem f32Lt_pos_iff (x : NUM) : f32Lt NUM.zero x = true ↔ f32IsNaN x = false ∧ f32Neg x = false ∧ f32Mag x ≠ 0 := by
  unfold f32Lt
  cases hn : f32IsNaN x <;> cases hs : f32Neg x <;> simp [f32Key, hs]
  omega

/-! ### The identity and the absorbing element -/

theorem f32UnitsOfMag_eq_zero {mag : Nat} : f32UnitsOfMag mag = 0 ↔ mag = 0 := by
  unfold f32UnitsOfMag
  split
  · rfl
  · next h =>
    constructor
    · intro hz
      rcases Nat.mul_eq_zero.1 hz with hz | hz
      · omega
      · exact absurd hz (Nat.two_pow_pos _).ne'
    · intro hz; omega

@[simp] theorem f32Units_zero : f32Units NUM.zero = 0 := rfl

/-- x + 0 = x for every value but a zero, whose sum with a zero is a zero. -/
theorem f32Add_zero_right {x z : NUM} (hx : f32IsNaN x = false) (hz : f32Mag z = 0) (h0 : f32Mag x ≠ 0) : f32Add x z = x := by
  have hzn : f32IsNaN z = false := by simp [f32IsNaN, hz]
  have hzi : f32IsInf z = false := by simp [f32IsInf, hz]
  have hzu : f32Int z = 0 := by simp [f32Int, f32Units, hz, f32UnitsOfMag]
  have hu : f32Units x ≠ 0 := fun h => h0 (f32UnitsOfMag_eq_zero.1 h)
  unfold f32Add
  simp only [hx, hzn, Bool.or_self, Bool.false_eq_true, if_false, hzi, hzu, Bool.false_and, add_zero]
  split
  · rfl
  · next hi =>
    have hfin : f32Mag x ≤ f32InfMag := by simpa [f32IsNaN] using hx
    have hr : f32RoundMag (f32Units x) 1 = f32Mag x := by
      have := f32RoundMag_exact hfin Nat.one_pos
      simpa [f32Units] using this
    have hne : f32Int x ≠ 0 := by unfold f32Int; split <;> omega
    have habs : (f32Int x).natAbs = f32Units x := by unfold f32Int; split <;> omega
    have hsg : decide (f32Int x < 0) = f32Neg x := by
      unfold f32Int
      cases hs : f32Neg x <;> simp <;> omega
    rw [if_neg hne, habs, hr, hsg, f32Pack_self]

/-- 1 · x = x for every finite or infinite value. -/
theorem f32Mul_one_left {x : NUM} (hx : f32IsNaN x = false) : f32Mul 0x3F800000#32 x = x := by
  have h1n : f32IsNaN 0x3F800000#32 = false := by decide
  have h1i : f32IsInf 0x3F800000#32 = false := by decide
  have h1m : (f32Mag 0x3F800000#32 == 0) = false := by decide
  have h1s : f32Neg 0x3F800000#32 = false := by decide
  have h1u : f32Units 0x3F800000#32 = 2 ^ 149 := f32UnitsOfMag_one
  have hfin : f32Mag x ≤ f32InfMag := by simpa [f32IsNaN] using hx
  unfold f32Mul
  simp only [h1n, hx, Bool.or_self, Bool.false_eq_true, if_false, h1i, Bool.false_or, h1m, h1s]
  split
  · next hi =>
    have hm : f32Mag x = f32InfMag := by simpa [f32IsInf] using hi
    have h0 : (f32Mag x == 0) = false := by simp [hm]
    rw [h0]
    simp only [Bool.false_eq_true, if_false]
    rw [← hm, show (false != f32Neg x) = f32Neg x by cases f32Neg x <;> rfl, f32Pack_self]
  · rw [h1u, Nat.mul_comm, f32Units, f32RoundMag_exact hfin (by positivity),
      show (false != f32Neg x) = f32Neg x by cases f32Neg x <;> rfl, f32Pack_self]

/-- 0 · x is a zero for every finite x. -/
theorem f32Mul_zero_left {x : NUM} (hx : f32IsFinite x = true) : f32Mag (f32Mul NUM.zero x) = 0 := by
  have hm : f32Mag x < f32InfMag := by simpa [f32IsFinite] using hx
  have hn : f32IsNaN x = false := by simp [f32IsNaN]; omega
  have hi : f32IsInf x = false := by simp [f32IsInf]; omega
  unfold f32Mul
  simp only [f32IsNaN_zero, hn, Bool.or_self, Bool.false_eq_true, if_false, hi,
    show f32IsInf NUM.zero = false from rfl, f32Units_zero, Nat.zero_mul]
  have : f32RoundMag 0 (2 ^ 149) = 0 := by decide +kernel
  rw [this]
  exact f32Mag_pack _ (by decide)

/-! ### Signs and bounds -/

/-- What an operation answers for a NaN operand, and where IEEE 754 has no result, is a NaN. -/
theorem f32NaN_isNaN (x y : NUM) : f32IsNaN (f32NaN x y) = true := by
  have hp : 0x7FC00000 + (Config.nanPayload x y).toNat < 2 ^ 31 := by
    have := (Config.nanPayload x y).isLt; omega
  unfold f32NaN f32IsNaN
  rw [f32Mag_pack _ hp]
  exact decide_eq_true (by show 0x7F800000 < _; omega)

theorem f32RoundMag_lt (n d : Nat) : f32RoundMag n d < 2 ^ 31 := lt_of_le_of_lt (f32RoundMag_le_inf n d) (by decide)

/-- The product of values without a sign bit has none, or is a NaN. -/
theorem f32Mul_sign {x y : NUM} (hx : f32IsNaN x = true ∨ f32Neg x = false) (hy : f32IsNaN y = true ∨ f32Neg y = false) :
    f32IsNaN (f32Mul x y) = true ∨ f32Neg (f32Mul x y) = false := by
  unfold f32Mul
  split
  · exact .inl (f32NaN_isNaN x y)
  · next hn =>
    obtain ⟨hxn, hyn⟩ : f32IsNaN x = false ∧ f32IsNaN y = false := by simpa using hn
    have hxs : f32Neg x = false := hx.resolve_left (by simp [hxn])
    have hys : f32Neg y = false := hy.resolve_left (by simp [hyn])
    rw [hxs, hys]
    split
    · split
      · exact .inl (f32NaN_isNaN x y)
      · exact .inr (f32Neg_pack _ (by decide))
    · exact .inr (f32Neg_pack _ (f32RoundMag_lt _ _))

/-- The quotient of values without a sign bit has none, or is a NaN. -/
theorem f32Div_sign {x y : NUM} (hx : f32IsNaN x = true ∨ f32Neg x = false) (hy : f32IsNaN y = true ∨ f32Neg y = false) :
    f32IsNaN (f32Div x y) = true ∨ f32Neg (f32Div x y) = false := by
  unfold f32Div
  split
  · exact .inl (f32NaN_isNaN x y)
  · next hn =>
    obtain ⟨hxn, hyn⟩ : f32IsNaN x = false ∧ f32IsNaN y = false := by simpa using hn
    have hxs : f32Neg x = false := hx.resolve_left (by simp [hxn])
    have hys : f32Neg y = false := hy.resolve_left (by simp [hyn])
    rw [hxs, hys]
    split
    · split
      · exact .inl (f32NaN_isNaN x y)
      · exact .inr (f32Neg_pack _ (by decide))
    · split
      · exact .inr (f32Neg_pack _ (by decide))
      · split
        · split
          · exact .inl (f32NaN_isNaN x y)
          · exact .inr (f32Neg_pack _ (by decide))
        · exact .inr (f32Neg_pack _ (f32RoundMag_lt _ _))

/-- A value at most one counts at most 2^149 units. -/
theorem f32Units_le_one {mag : Nat} (h : mag ≤ 0x3F800000) : f32UnitsOfMag mag ≤ 2 ^ 149 := by
  unfold f32UnitsOfMag
  split
  · next h1 => exact le_trans (le_of_lt h1) (Nat.pow_le_pow_right (by decide) (by decide))
  · rcases Nat.lt_or_ge mag 0x3F800000 with hlt | hge
    · have h1 : mag / 2 ^ 23 - 1 ≤ 125 := by omega
      have h2 : mag % 2 ^ 23 + 2 ^ 23 ≤ 2 ^ 24 := by omega
      calc (mag % 2 ^ 23 + 2 ^ 23) * 2 ^ (mag / 2 ^ 23 - 1)
          ≤ 2 ^ 24 * 2 ^ 125 := Nat.mul_le_mul h2 (Nat.pow_le_pow_right (by decide) h1)
        _ = 2 ^ 149 := by rw [← Nat.pow_add]
    · have he : mag = 0x3F800000 := by omega
      subst he
      decide +kernel

/-- A value at most one stays so when a value not below 0 is taken from it. -/
theorem f32Sub_le_one {x y : NUM} (hx : f32Lt 0x3F800000#32 x = false) (hy : f32Lt y NUM.zero = false) :
    f32Lt 0x3F800000#32 (f32Sub x y) = false := by
  have hone : ∀ v : NUM, (f32IsNaN v = true ∨ f32Neg v = true ∨ f32Mag v ≤ 0x3F800000) → f32Lt 0x3F800000#32 v = false := by
    intro v hv
    have hk : f32Key 0x3F800000#32 = 0x3F800000 := by decide
    unfold f32Lt
    rw [hk]
    rcases hv with h | h | h
    · simp [h]
    · have : f32Key v ≤ 0 := by simp [f32Key, h]
      simp only [Bool.and_eq_false_iff, decide_eq_false_iff_not]
      exact .inr (by omega)
    · have : f32Key v ≤ 0x3F800000 := by unfold f32Key; split <;> omega
      simp only [Bool.and_eq_false_iff, decide_eq_false_iff_not]
      exact .inr (by omega)
  have hny : f32IsNaN (f32Negate y) = f32IsNaN y := by
    unfold f32IsNaN f32Negate; rw [f32Mag_pack _ (f32Mag_lt y)]
  have hsy : f32Neg (f32Negate y) = !f32Neg y := f32Neg_pack _ (f32Mag_lt y)
  have hmy : f32Mag (f32Negate y) = f32Mag y := f32Mag_pack _ (f32Mag_lt y)
  unfold f32Sub f32Add
  split
  · exact hone _ (.inl (f32NaN_isNaN _ _))
  · next hn =>
    obtain ⟨hxn, hyn⟩ : f32IsNaN x = false ∧ f32IsNaN (f32Negate y) = false := by simpa using hn
    rw [hny] at hyn
    have hy' : f32Neg y = false ∨ f32Mag y = 0 := ((f32Lt_zero_iff y).1 hy).resolve_left (by simp [hyn])
    split
    · split
      · exact hone _ (.inl (f32NaN_isNaN _ _))
      · exact hx
    · split
      · next hi =>
        have hm : f32Mag y = f32InfMag := by simpa [f32IsInf, hmy] using hi
        have : f32Neg y = false := hy'.resolve_right (by simp [hm])
        exact hone _ (.inr (.inl (by rw [hsy, this]; rfl)))
      · have hyi : f32Int (f32Negate y) ≤ 0 := by
          unfold f32Int f32Units
          rw [hsy, hmy]
          rcases hy' with h | h
          · simp [h]
          · simp [h, f32UnitsOfMag]
        have hxi : f32Int x ≤ 2 ^ 149 := by
          unfold f32Int
          split
          · have : (0 : Int) ≤ f32Units x := Int.natCast_nonneg _
            have : (0 : Int) ≤ 2 ^ 149 := by positivity
            omega
          · next hs =>
            have hk : f32Key 0x3F800000#32 = 0x3F800000 := by decide
            have h1n : f32IsNaN 0x3F800000#32 = false := by decide
            have hm : f32Mag x ≤ 0x3F800000 := by
              have hkx : f32Key x = f32Mag x := by simp [f32Key, hs]
              simp only [f32Lt, h1n, hxn, hk, hkx, Bool.not_false, Bool.true_and, decide_eq_false_iff_not] at hx
              omega
            exact_mod_cast f32Units_le_one hm
        simp only
        split
        · exact hone _ (.inr (.inr (by rw [f32Mag_pack _ (by decide)]; decide)))
        · by_cases hz : f32Int x + f32Int (f32Negate y) < 0
          · refine hone _ (.inr (.inl ?_))
            rw [f32Neg_pack _ (f32RoundMag_lt _ _)]
            exact decide_eq_true hz
          · refine hone _ (.inr (.inr ?_))
            rw [f32Mag_pack _ (f32RoundMag_lt _ _)]
            refine f32RoundMag_le_one Nat.one_pos ?_
            have : (f32Int x + f32Int (f32Negate y)).natAbs ≤ 2 ^ 149 := by omega
            simpa using this

/-- A sum of values not below 0 is not below 0. -/
theorem f32Add_nonneg {x y : NUM} (hx : f32Lt x NUM.zero = false) (hy : f32Lt y NUM.zero = false) :
    f32Lt (f32Add x y) NUM.zero = false := by
  have hint : ∀ v : NUM, f32IsNaN v = false → f32Lt v NUM.zero = false → 0 ≤ f32Int v := by
    intro v hv hl
    rcases (f32Lt_zero_iff v).1 hl with h | h | h
    · rw [hv] at h; cases h
    · simp [f32Int, h]
    · have : f32Units v = 0 := f32UnitsOfMag_eq_zero.2 h
      simp [f32Int, this]
  have hnan := f32NaN_isNaN
  unfold f32Add
  split
  · exact (f32Lt_zero_iff _).2 (.inl (hnan x y))
  · next hn =>
    obtain ⟨hxn, hyn⟩ : f32IsNaN x = false ∧ f32IsNaN y = false := by simpa using hn
    split
    · split
      · exact (f32Lt_zero_iff _).2 (.inl (hnan x y))
      · exact hx
    · split
      · exact hy
      · have h1 := hint x hxn hx
        have h2 := hint y hyn hy
        simp only
        split
        · exact (f32Lt_zero_iff _).2 (.inr (.inr (f32Mag_pack _ (by decide))))
        · refine (f32Lt_zero_iff _).2 (.inr (.inl ?_))
          rw [f32Neg_pack _ (f32RoundMag_lt _ _)]
          exact decide_eq_false (by omega)

/-! ### The literals -/

@[simp] theorem binary32_zero (l : MathsLib) : (binary32 l).ofNat 0 = NUM.zero := rfl
theorem binary32_one (l : MathsLib) : (binary32 l).ofNat 1 = 0x3F800000#32 := by
  show f32OfRat 1 1 = _
  decide +kernel

/-! ### Rounding is monotone, and integers are exact -/

/-- Rounding is monotone: a quotient at most a representable value rounds to at most that value. -/
theorem f32RoundMag_le {n d mag : Nat} (hd : 0 < d) (hi : mag ≤ f32InfMag) (h : n ≤ f32UnitsOfMag mag * d) :
    f32RoundMag n d ≤ mag := by
  obtain ⟨s, m, hu, hm, hsm, hs⟩ := f32UnitsOfMag_eq mag
  rw [hu] at h
  have hq : n / d ≤ m * 2 ^ s := by
    have := Nat.div_le_div_right (c := d) h
    rwa [Nat.mul_div_cancel _ hd] at this
  simp only [f32RoundMag]
  refine le_trans (Nat.min_le_left _ _) ?_
  generalize hse : (if n / d < 2 ^ 24 then 0 else Nat.log2 (n / d) - 23) = e
  have hup : ∀ b : Bool, (if b = true then 1 else 0) ≤ 1 := by decide
  have key : ∀ e, 0 < d * 2 ^ e → n ≤ m * 2 ^ e * d → e * 2 ^ 23 + m = mag →
      e * 2 ^ 23 + n / (d * 2 ^ e) + (if (decide (d * 2 ^ e < 2 * (n % (d * 2 ^ e))) || (2 * (n % (d * 2 ^ e)) == d * 2 ^ e && n / (d * 2 ^ e) % 2 == 1)) = true then 1 else 0) ≤ mag := by
    intro e hp hn hmag
    have hle : n / (d * 2 ^ e) ≤ m := by
      rw [Nat.div_le_iff_le_mul_add_pred hp]
      have : m * 2 ^ e * d = d * 2 ^ e * m := by ring
      omega
    rcases Nat.lt_or_ge (n / (d * 2 ^ e)) m with hl | hg
    · have := hup (decide (d * 2 ^ e < 2 * (n % (d * 2 ^ e))) || (2 * (n % (d * 2 ^ e)) == d * 2 ^ e && n / (d * 2 ^ e) % 2 == 1))
      omega
    · have he : n / (d * 2 ^ e) = m := by omega
      have hz : n % (d * 2 ^ e) = 0 := by
        have h1 := Nat.div_add_mod n (d * 2 ^ e)
        rw [he] at h1
        have : m * 2 ^ e * d = d * 2 ^ e * m := by ring
        omega
      rw [hz, he]
      have h1 : ¬ d * 2 ^ e < 2 * 0 := by omega
      have h2 : ¬ (2 * 0 = d * 2 ^ e) := by omega
      simp only [h1, decide_false, Bool.false_or, beq_eq_false_iff_ne.2 h2, Bool.false_and]
      simp only [Bool.false_eq_true, if_false]
      omega
  by_cases h24 : n / d < 2 ^ 24
  · rw [if_pos h24] at hse
    subst hse
    rcases Nat.eq_zero_or_pos s with rfl | hsp
    · exact key 0 (by simpa using hd) (by simpa using h) (by simpa using hsm)
    · have hm23 : 2 ^ 23 ≤ m := hs.resolve_left (by omega)
      have := hup (decide (d * 2 ^ 0 < 2 * (n % (d * 2 ^ 0))) || (2 * (n % (d * 2 ^ 0)) == d * 2 ^ 0 && n / (d * 2 ^ 0) % 2 == 1))
      simp only [Nat.pow_zero, Nat.mul_one] at this ⊢
      have : 2 ^ 23 ≤ s * 2 ^ 23 := Nat.le_mul_of_pos_left _ hsp
      omega
  · rw [if_neg h24] at hse
    have h0 : n / d ≠ 0 := by omega
    have hl23 : 23 ≤ Nat.log2 (n / d) := by
      by_contra hc
      have := (Nat.log2_lt h0).1 (show Nat.log2 (n / d) < 23 by omega)
      omega
    have hlo : 2 ^ (23 + e) ≤ n / d := by
      have : 23 + e = Nat.log2 (n / d) := by omega
      rw [this]; exact Nat.log2_self_le h0
    have hhi : n / d < 2 ^ (24 + e) := (Nat.log2_lt h0).1 (by omega)
    have hm' : n / (d * 2 ^ e) < 2 ^ 24 := by
      rw [← Nat.div_div_eq_div_mul, Nat.div_lt_iff_lt_mul (Nat.two_pow_pos e), ← Nat.pow_add]
      exact hhi
    have hms : m * 2 ^ s < 2 ^ (24 + s) := by
      rw [Nat.pow_add]; exact Nat.mul_lt_mul_of_pos_right hm (Nat.two_pow_pos s)
    have hes : e ≤ s := by
      by_contra hc
      have : 2 ^ (24 + s) ≤ 2 ^ (23 + e) := Nat.pow_le_pow_right (by decide) (by omega)
      omega
    rcases Nat.lt_or_ge e s with hlt | hge
    · have hm23 : 2 ^ 23 ≤ m := hs.resolve_left (by omega)
      have := hup (decide (d * 2 ^ e < 2 * (n % (d * 2 ^ e))) || (2 * (n % (d * 2 ^ e)) == d * 2 ^ e && n / (d * 2 ^ e) % 2 == 1))
      have : (e + 1) * 2 ^ 23 ≤ s * 2 ^ 23 := Nat.mul_le_mul_right _ hlt
      omega
    · obtain rfl : e = s := by omega
      exact key e (Nat.mul_pos hd (Nat.two_pow_pos e)) h hsm

/-- Rounding is monotone: a quotient at least a representable value rounds to at least that value. -/
theorem le_f32RoundMag {n d mag : Nat} (hd : 0 < d) (hi : mag ≤ f32InfMag) (h : f32UnitsOfMag mag * d ≤ n) :
    mag ≤ f32RoundMag n d := by
  obtain ⟨s, m, hu, hm, hsm, hs⟩ := f32UnitsOfMag_eq mag
  rw [hu] at h
  have hq : m * 2 ^ s ≤ n / d := (Nat.le_div_iff_mul_le hd).2 h
  simp only [f32RoundMag]
  refine Nat.le_min.2 ⟨?_, hi⟩
  refine le_trans ?_ (Nat.le_add_right _ _)
  generalize hse : (if n / d < 2 ^ 24 then 0 else Nat.log2 (n / d) - 23) = e
  by_cases h24 : n / d < 2 ^ 24
  · rw [if_pos h24] at hse
    subst hse
    have hs0 : s = 0 := by
      by_contra hc
      have hm23 : 2 ^ 23 ≤ m := hs.resolve_left hc
      have : 2 ^ 23 * 2 ^ 1 ≤ m * 2 ^ s := Nat.mul_le_mul hm23 (Nat.pow_le_pow_right (by decide) (by omega))
      omega
    subst hs0
    simp only [Nat.pow_zero, Nat.mul_one, Nat.zero_mul, Nat.zero_add] at *
    omega
  · rw [if_neg h24] at hse
    have h0 : n / d ≠ 0 := by omega
    have hl23 : 23 ≤ Nat.log2 (n / d) := by
      by_contra hc
      have := (Nat.log2_lt h0).1 (show Nat.log2 (n / d) < 23 by omega)
      omega
    have hlo : 2 ^ (23 + e) ≤ n / d := by
      have : 23 + e = Nat.log2 (n / d) := by omega
      rw [this]; exact Nat.log2_self_le h0
    have hhi : n / d < 2 ^ (24 + e) := (Nat.log2_lt h0).1 (by omega)
    have hm' : 2 ^ 23 ≤ n / (d * 2 ^ e) := by
      rw [← Nat.div_div_eq_div_mul, Nat.le_div_iff_mul_le (Nat.two_pow_pos e), ← Nat.pow_add]
      exact hlo
    have hse' : s ≤ e := by
      rcases hs with rfl | hm23
      · exact Nat.zero_le _
      · by_contra hc
        have : 2 ^ (23 + s) ≤ m * 2 ^ s := by rw [Nat.pow_add]; exact Nat.mul_le_mul_right _ hm23
        have : 2 ^ (24 + e) ≤ 2 ^ (23 + s) := Nat.pow_le_pow_right (by decide) (by omega)
        omega
    rcases Nat.lt_or_ge s e with hlt | hge
    · have : (s + 1) * 2 ^ 23 ≤ e * 2 ^ 23 := Nat.mul_le_mul_right _ hlt
      omega
    · obtain rfl : s = e := by omega
      have : m ≤ n / (d * 2 ^ s) := by
        rw [Nat.le_div_iff_mul_le (Nat.mul_pos hd (Nat.two_pow_pos s))]
        calc m * (d * 2 ^ s) = m * 2 ^ s * d := by ring
          _ ≤ n := h
      omega

/-- The units grow with the magnitude bits. -/
theorem f32UnitsOfMag_strictMono {a b : Nat} (h : a < b) : f32UnitsOfMag a < f32UnitsOfMag b := by
  obtain ⟨s, m, hu, hm, hsm, hs⟩ := f32UnitsOfMag_eq a
  obtain ⟨t, k, hv, hk, htk, ht⟩ := f32UnitsOfMag_eq b
  rw [hu, hv]
  have hst : s ≤ t := by
    by_contra hc
    have h1 : (t + 1) * 2 ^ 23 ≤ s * 2 ^ 23 := Nat.mul_le_mul_right _ (by omega)
    have hm23 : 2 ^ 23 ≤ m := hs.resolve_left (by omega)
    omega
  rcases Nat.lt_or_ge s t with hlt | hge
  · have hk23 : 2 ^ 23 ≤ k := ht.resolve_left (by omega)
    calc m * 2 ^ s < 2 ^ 24 * 2 ^ s := Nat.mul_lt_mul_of_pos_right hm (Nat.two_pow_pos s)
      _ = 2 ^ 23 * 2 ^ (s + 1) := by rw [← Nat.pow_add, ← Nat.pow_add]; congr 1; omega
      _ ≤ k * 2 ^ t := Nat.mul_le_mul hk23 (Nat.pow_le_pow_right (by decide) hlt)
  · obtain rfl : s = t := by omega
    exact Nat.mul_lt_mul_of_pos_right (by omega) (Nat.two_pow_pos s)

theorem f32UnitsOfMag_le_iff {a b : Nat} : f32UnitsOfMag a ≤ f32UnitsOfMag b ↔ a ≤ b := by
  constructor
  · intro h; by_contra hc; have := f32UnitsOfMag_strictMono (show b < a by omega); omega
  · intro h
    rcases Nat.lt_or_eq_of_le h with h | rfl
    · exact le_of_lt (f32UnitsOfMag_strictMono h)
    · exact le_refl _

/-- The order of the patterns is the order of the values. -/
theorem f32Key_le_iff (x y : NUM) : f32Key x ≤ f32Key y ↔ f32Int x ≤ f32Int y := by
  have h := @f32UnitsOfMag_le_iff (f32Mag x) (f32Mag y)
  have h' := @f32UnitsOfMag_le_iff (f32Mag y) (f32Mag x)
  have z1 := @f32UnitsOfMag_eq_zero (f32Mag x)
  have z2 := @f32UnitsOfMag_eq_zero (f32Mag y)
  unfold f32Key f32Int f32Units
  cases f32Neg x <;> cases f32Neg y <;> simp only [Bool.false_eq_true, if_false, if_true] <;> omega

theorem f32Le_iff {x y : NUM} (hx : f32IsNaN x = false) (hy : f32IsNaN y = false) :
    f32Le x y = true ↔ f32Int x ≤ f32Int y := by
  simp only [f32Le, hx, hy, Bool.not_false, Bool.true_and, decide_eq_true_eq]
  exact f32Key_le_iff x y

theorem f32Lt_iff {x y : NUM} (hx : f32IsNaN x = false) (hy : f32IsNaN y = false) :
    f32Lt x y = true ↔ f32Int x < f32Int y := by
  have h := f32Key_le_iff y x
  simp only [f32Lt, hx, hy, Bool.not_false, Bool.true_and, decide_eq_true_eq]
  omega

theorem f32Int_pack (neg : Bool) {mag : Nat} (h : mag < 2 ^ 31) :
    f32Int (f32Pack neg mag) = if neg then -(f32UnitsOfMag mag : Int) else (f32UnitsOfMag mag : Int) := by
  simp only [f32Int, f32Units, f32Mag_pack _ h, f32Neg_pack _ h]

theorem f32IsNaN_pack (neg : Bool) {mag : Nat} (h : mag ≤ f32InfMag) : f32IsNaN (f32Pack neg mag) = false := by
  have : mag < 2 ^ 31 := lt_of_le_of_lt h (by decide)
  simp only [f32IsNaN, f32Mag_pack _ this, decide_eq_false_iff_not]
  omega

theorem f32IsFinite_not {x : NUM} (h : f32IsFinite x = true) : f32IsNaN x = false ∧ f32IsInf x = false := by
  have h : f32Mag x < f32InfMag := by simpa [f32IsFinite] using h
  constructor
  · simp only [f32IsNaN, decide_eq_false_iff_not]; omega
  · simp only [f32IsInf, beq_eq_false_iff_ne]; omega

/-- The magnitude of a value that is no NaN is at most that of infinity. -/
theorem f32Mag_le_inf {x : NUM} (h : f32IsNaN x = false) : f32Mag x ≤ f32InfMag := by
  simpa [f32IsNaN] using h

/-- A rounded signed quotient lies on the same side of every value as the exact one. -/
theorem f32Round_le {z : Int} {d : Nat} {y : NUM} (hd : 0 < d) (hy : f32IsNaN y = false) (h : z ≤ f32Int y * d) :
    f32Int (f32Pack (decide (z < 0)) (f32RoundMag z.natAbs d)) ≤ f32Int y := by
  rw [f32Int_pack _ (f32RoundMag_lt _ _)]
  have hm := f32Mag_le_inf hy
  by_cases hz : z < 0
  · simp only [hz, decide_true, if_true]
    by_cases hs : f32Neg y = true
    · have hyi : f32Int y = -(f32UnitsOfMag (f32Mag y) : Int) := by simp [f32Int, f32Units, hs]
      rw [hyi] at h ⊢
      have : f32UnitsOfMag (f32Mag y) * d ≤ z.natAbs := by
        zify; rw [abs_of_neg hz]; linarith
      have := f32UnitsOfMag_le_iff.2 (le_f32RoundMag hd hm this)
      omega
    · have : f32Int y = (f32UnitsOfMag (f32Mag y) : Int) := by simp [f32Int, f32Units, hs]
      omega
  · simp only [hz, decide_false, Bool.false_eq_true, if_false]
    by_cases hs : f32Neg y = true
    · have hyi : f32Int y = -(f32UnitsOfMag (f32Mag y) : Int) := by simp [f32Int, f32Units, hs]
      rw [hyi] at h ⊢
      have h0 : f32UnitsOfMag (f32Mag y) = 0 := by
        by_contra hc
        have : (0 : Int) < (f32UnitsOfMag (f32Mag y) : Int) * d := by positivity
        linarith
      have hz0 : z.natAbs ≤ f32UnitsOfMag 0 * d := by
        rw [h0] at h; simp at h; have : z = 0 := by omega
        simp [this]
      have := f32UnitsOfMag_le_iff.2 (f32RoundMag_le hd (by decide) hz0)
      simp only [f32UnitsOfMag_eq_zero.2 rfl] at this
      omega
    · have hyi : f32Int y = (f32UnitsOfMag (f32Mag y) : Int) := by simp [f32Int, f32Units, hs]
      rw [hyi] at h ⊢
      have : z.natAbs ≤ f32UnitsOfMag (f32Mag y) * d := by
        zify; rw [abs_of_nonneg (by omega)]; exact h
      have := f32UnitsOfMag_le_iff.2 (f32RoundMag_le hd hm this)
      omega

theorem le_f32Round {z : Int} {d : Nat} {y : NUM} (hd : 0 < d) (hy : f32IsNaN y = false) (h : f32Int y * d ≤ z) :
    f32Int y ≤ f32Int (f32Pack (decide (z < 0)) (f32RoundMag z.natAbs d)) := by
  rw [f32Int_pack _ (f32RoundMag_lt _ _)]
  have hm := f32Mag_le_inf hy
  by_cases hs : f32Neg y = true
  · have hyi : f32Int y = -(f32UnitsOfMag (f32Mag y) : Int) := by simp [f32Int, f32Units, hs]
    rw [hyi] at h ⊢
    by_cases hz : z < 0
    · simp only [hz, decide_true, if_true]
      have : z.natAbs ≤ f32UnitsOfMag (f32Mag y) * d := by
        zify; rw [abs_of_neg hz]; linarith
      have := f32UnitsOfMag_le_iff.2 (f32RoundMag_le hd hm this)
      omega
    · simp only [hz, decide_false, Bool.false_eq_true, if_false]; omega
  · have hyi : f32Int y = (f32UnitsOfMag (f32Mag y) : Int) := by simp [f32Int, f32Units, hs]
    rw [hyi] at h ⊢
    have hz : ¬ z < 0 := by
      have : (0 : Int) ≤ (f32UnitsOfMag (f32Mag y) : Int) * d := by positivity
      omega
    simp only [hz, decide_false, Bool.false_eq_true, if_false]
    have : f32UnitsOfMag (f32Mag y) * d ≤ z.natAbs := by
      zify; rw [abs_of_nonneg (by omega)]; exact h
    have := f32UnitsOfMag_le_iff.2 (le_f32RoundMag hd hm this)
    omega

/-- A sum of finite values is no NaN. -/
theorem f32Add_notNaN {x y : NUM} (hx : f32IsFinite x = true) (hy : f32IsFinite y = true) : f32IsNaN (f32Add x y) = false := by
  obtain ⟨hxn, hxi⟩ := f32IsFinite_not hx
  obtain ⟨hyn, hyi⟩ := f32IsFinite_not hy
  simp only [f32Add, hxn, hyn, hxi, hyi, Bool.or_self, Bool.false_eq_true, if_false]
  split
  · exact f32IsNaN_pack _ (by decide)
  · exact f32IsNaN_pack _ (f32RoundMag_le_inf _ _)

/-- The sum of finite values lies on the same side of every value as the exact sum. -/
theorem f32Add_le {x y z : NUM} (hx : f32IsFinite x = true) (hy : f32IsFinite y = true) (hz : f32IsNaN z = false)
    (h : f32Int x + f32Int y ≤ f32Int z) : f32Int (f32Add x y) ≤ f32Int z := by
  obtain ⟨hxn, hxi⟩ := f32IsFinite_not hx
  obtain ⟨hyn, hyi⟩ := f32IsFinite_not hy
  simp only [f32Add, hxn, hyn, hxi, hyi, Bool.or_self, Bool.false_eq_true, if_false]
  split
  · next h0 =>
    rw [f32Int_pack _ (by decide), f32UnitsOfMag_eq_zero.2 rfl]
    split <;> omega
  · exact f32Round_le Nat.one_pos hz (by simpa using h)

theorem le_f32Add {x y z : NUM} (hx : f32IsFinite x = true) (hy : f32IsFinite y = true) (hz : f32IsNaN z = false)
    (h : f32Int z ≤ f32Int x + f32Int y) : f32Int z ≤ f32Int (f32Add x y) := by
  obtain ⟨hxn, hxi⟩ := f32IsFinite_not hx
  obtain ⟨hyn, hyi⟩ := f32IsFinite_not hy
  simp only [f32Add, hxn, hyn, hxi, hyi, Bool.or_self, Bool.false_eq_true, if_false]
  split
  · next h0 =>
    rw [f32Int_pack _ (by decide), f32UnitsOfMag_eq_zero.2 rfl]
    split <;> omega
  · exact le_f32Round Nat.one_pos hz (by simpa using h)

theorem f32Int_negate (x : NUM) : f32Int (f32Negate x) = - f32Int x := by
  unfold f32Negate
  rw [f32Int_pack _ (f32Mag_lt x)]
  unfold f32Int f32Units
  cases f32Neg x <;> simp

theorem f32IsFinite_negate {x : NUM} : f32IsFinite (f32Negate x) = f32IsFinite x := by
  unfold f32IsFinite f32Negate; rw [f32Mag_pack _ (f32Mag_lt x)]

/-- The value of an integer below 2^24 is exact, in units of 2^-149. -/
theorem f32UnitsOfMag_nat {k : Nat} (hk : k < 2 ^ 24) (e : Nat) :
    ∃ mag, f32UnitsOfMag mag = k * 2 ^ (e + 23) ∧ (k = 0 ∨ mag < (e + 25) * 2 ^ 23) ∧ (k = 0 → mag = 0) := by
  rcases Nat.eq_zero_or_pos k with rfl | hp
  · exact ⟨0, by simp [f32UnitsOfMag], .inl rfl, fun _ => rfl⟩
  · have hj : Nat.log2 k ≤ 23 := by
      have := (Nat.log2_lt (by omega)).2 hk; omega
    refine ⟨(e + Nat.log2 k) * 2 ^ 23 + k * 2 ^ (23 - Nat.log2 k), ?_, .inr ?_, by omega⟩
    · have h1 : 2 ^ 23 ≤ k * 2 ^ (23 - Nat.log2 k) := by
        calc 2 ^ 23 = 2 ^ Nat.log2 k * 2 ^ (23 - Nat.log2 k) := by rw [← Nat.pow_add]; congr 1; omega
          _ ≤ _ := Nat.mul_le_mul_right _ (Nat.log2_self_le (by omega))
      have h2 : k * 2 ^ (23 - Nat.log2 k) < 2 ^ 24 := by
        calc _ < 2 ^ (Nat.log2 k + 1) * 2 ^ (23 - Nat.log2 k) := Nat.mul_lt_mul_of_pos_right Nat.lt_log2_self (Nat.two_pow_pos _)
          _ = 2 ^ 24 := by rw [← Nat.pow_add]; congr 1; omega
      unfold f32UnitsOfMag
      rw [if_neg (by omega)]
      have h3 : ((e + Nat.log2 k) * 2 ^ 23 + k * 2 ^ (23 - Nat.log2 k)) % 2 ^ 23 + 2 ^ 23 = k * 2 ^ (23 - Nat.log2 k) := by omega
      have h4 : ((e + Nat.log2 k) * 2 ^ 23 + k * 2 ^ (23 - Nat.log2 k)) / 2 ^ 23 - 1 = e + Nat.log2 k := by omega
      rw [h3, h4, Nat.mul_assoc, ← Nat.pow_add]
      congr 2; omega
    · have h2 : k * 2 ^ (23 - Nat.log2 k) < 2 ^ 24 := by
        calc _ < 2 ^ (Nat.log2 k + 1) * 2 ^ (23 - Nat.log2 k) := Nat.mul_lt_mul_of_pos_right Nat.lt_log2_self (Nat.two_pow_pos _)
          _ = 2 ^ 24 := by rw [← Nat.pow_add]; congr 1; omega
      have : (e + Nat.log2 k) * 2 ^ 23 ≤ (e + 23) * 2 ^ 23 := Nat.mul_le_mul_right _ (by omega)
      omega

/-- An integer below 2^24 as a NUM value is finite and exact (R8). -/
theorem f32OfRat_nat {k : Nat} (hk : k < 2 ^ 24) :
    f32IsFinite (f32OfRat (k : Int) 1) = true ∧ f32Int (f32OfRat (k : Int) 1) = (k : Int) * 2 ^ 149 := by
  obtain ⟨mag, hu, hm, h0⟩ := f32UnitsOfMag_nat hk 126
  unfold f32OfRat
  by_cases hz : k = 0
  · subst hz; exact ⟨by decide, by decide⟩
  · have hm : mag < (126 + 25) * 2 ^ 23 := hm.resolve_left hz
    have hi : mag ≤ f32InfMag := by show mag ≤ 0x7F800000; omega
    have hr : f32RoundMag (((k : Int)).natAbs * 2 ^ 149) 1 = mag := by
      have := f32RoundMag_exact hi Nat.one_pos
      rw [hu] at this
      simpa using this
    have hneg : decide ((k : Int) < 0) = false := by simp
    rw [if_neg (by omega), hr, hneg]
    have hlt : mag < 2 ^ 31 := by omega
    refine ⟨?_, ?_⟩
    · simp only [f32IsFinite, f32Mag_pack _ hlt]; exact decide_eq_true (by show mag < 0x7F800000; omega)
    · rw [f32Int_pack _ hlt, hu]; simp

end Sys2Proof.Machine
end

