-- ==== Sys2Proof/Laws/Memory.lean ====
section
/-! SUPPORT. Sample memories: a write keeps the canonical form, reads back, and leaves every other element alone (20_memory.md R101). -/

namespace Sys2Proof.Machine

@[simp] theorem Memory.read_nil (i : Nat) : Memory.read [] i = NUM.zero := rfl

theorem Memory.read_cons (j : Nat) (x : NUM) (rest : Memory) (i : Nat) :
    Memory.read ((j, x) :: rest) i = if i = j then x else Memory.read rest i := rfl

/-- A list whose indexes start above `i` does not list `i`. -/
theorem Memory.read_below {c : Nat} {lo i : Nat} (h : i < lo) (m : Memory) (hw : Memory.wfFrom c lo m = true) :
    Memory.read m i = NUM.zero := by
  induction m generalizing lo with
  | nil => rfl
  | cons p rest ih =>
    obtain ⟨j, x⟩ := p
    simp only [Memory.wfFrom, Bool.and_eq_true, decide_eq_true_eq] at hw
    have hij : i ≠ j := by omega
    rw [Memory.read_cons, if_neg hij]
    exact ih (by omega) hw.2

theorem Memory.read_consCell {c i j : Nat} (v : NUM) {rest : Memory} (hw : Memory.wfFrom c (i + 1) rest = true) :
    Memory.read (Memory.consCell i v rest) j = if j = i then v else Memory.read rest j := by
  unfold Memory.consCell
  split
  · next hv =>
    split
    · next hji => rw [hji, hv]; exact Memory.read_below (Nat.lt_succ_self i) rest hw
    · rfl
  · rfl

theorem Memory.wfFrom_mono {c lo lo' : Nat} (h : lo ≤ lo') (m : Memory) (hw : Memory.wfFrom c lo' m = true) :
    Memory.wfFrom c lo m = true := by
  cases m with
  | nil => rfl
  | cons p rest =>
    simp only [Memory.wfFrom, Bool.and_eq_true, decide_eq_true_eq] at hw ⊢
    exact ⟨⟨⟨le_trans h hw.1.1.1, hw.1.1.2⟩, hw.1.2⟩, hw.2⟩

theorem Memory.wfFrom_consCell {c lo i : Nat} {v : NUM} {rest : Memory} (hlo : lo ≤ i) (hc : i < c)
    (hw : Memory.wfFrom c (i + 1) rest = true) : Memory.wfFrom c lo (Memory.consCell i v rest) = true := by
  unfold Memory.consCell
  split
  · exact Memory.wfFrom_mono (by omega) rest hw
  · next hv => simp [Memory.wfFrom, hlo, hc, hw, hv]

theorem Memory.wfFrom_write {c lo i : Nat} (v : NUM) (m : Memory) (hlo : lo ≤ i) (hc : i < c)
    (hw : Memory.wfFrom c lo m = true) : Memory.wfFrom c lo (Memory.write m i v) = true := by
  induction m generalizing lo with
  | nil => exact Memory.wfFrom_consCell hlo hc rfl
  | cons p rest ih =>
    obtain ⟨j, x⟩ := p
    have hw' := hw
    simp only [Memory.wfFrom, Bool.and_eq_true, decide_eq_true_eq] at hw'
    unfold Memory.write
    split
    · next hij =>
      refine Memory.wfFrom_consCell hlo hc ?_
      simp only [Memory.wfFrom, Bool.and_eq_true, decide_eq_true_eq]
      exact ⟨⟨⟨by omega, hw'.1.1.2⟩, hw'.1.2⟩, hw'.2⟩
    · split
      · next hij => subst hij; exact Memory.wfFrom_consCell hlo hc hw'.2
      · simp only [Memory.wfFrom, Bool.and_eq_true, decide_eq_true_eq]
        exact ⟨hw'.1, ih (by omega) hw'.2⟩

/-- A write to an element keeps the canonical form. -/
theorem Memory.wf_write {c i : Nat} (v : NUM) {m : Memory} (hc : i < c) (hw : Memory.wf c m = true) :
    Memory.wf c (Memory.write m i v) = true :=
  Memory.wfFrom_write v m (Nat.zero_le i) hc hw

theorem Memory.read_write_from {c lo i j : Nat} (v : NUM) (m : Memory) (hw : Memory.wfFrom c lo m = true) :
    Memory.read (Memory.write m i v) j = if j = i then v else Memory.read m j := by
  induction m generalizing lo with
  | nil => exact Memory.read_consCell (c := c) v rfl
  | cons p rest ih =>
    obtain ⟨k, x⟩ := p
    have hw' := hw
    simp only [Memory.wfFrom, Bool.and_eq_true, decide_eq_true_eq] at hw'
    unfold Memory.write
    split
    · next hik =>
      refine Memory.read_consCell (c := c) v ?_
      simp only [Memory.wfFrom, Bool.and_eq_true, decide_eq_true_eq]
      exact ⟨⟨⟨by omega, hw'.1.1.2⟩, hw'.1.2⟩, hw'.2⟩
    · split
      · next hij =>
        subst hij
        rw [Memory.read_consCell (c := c) v hw'.2, Memory.read_cons]
        split <;> rfl
      · next hik hij =>
        rw [Memory.read_cons, ih hw'.2, Memory.read_cons]
        by_cases hjk : j = k
        · have : k ≠ i := fun h => hij h.symm
          simp [hjk, this]
        · simp [hjk]

/-- The element written reads as the value written. -/
theorem Memory.read_write_same {c i : Nat} (v : NUM) {m : Memory} (hw : Memory.wf c m = true) :
    Memory.read (Memory.write m i v) i = v := by
  rw [Memory.read_write_from v m hw, if_pos rfl]

/-- Every other element reads as before. -/
theorem Memory.read_write_other {c i j : Nat} (h : j ≠ i) (v : NUM) {m : Memory} (hw : Memory.wf c m = true) :
    Memory.read (Memory.write m i v) j = Memory.read m j := by
  rw [Memory.read_write_from v m hw, if_neg h]

/-- Nothing is listed in a ring buffer at reset. -/
theorem ringRaw_memory (m : Numerics) (cap : Nat) : Memory.wf cap (ringRaw m cap).buf = true := rfl

/-- The sample memories of the reset state are in canonical form. -/
theorem reset_memory :
    Memory.wf (cMain State.reset.cfg) State.reset.engine.dl.rb.buf = true ∧
    ∀ st ∈ State.reset.engine.rv.stages, Memory.wf (cRev State.reset.cfg) st.rb.buf = true := by
  decide +kernel

end Sys2Proof.Machine
end

