-- ==== Sys2Proof/Laws/State.lean ====
section
/-! SUPPORT. One lemma per field per named update of the state. -/

namespace Sys2Proof.Machine


/-! ### pushNote -/

@[simp] theorem pushNote_cfg (w : BitVec 16) (s : State) : (pushNote w s).cfg = s.cfg := rfl
@[simp] theorem pushNote_tbl (w : BitVec 16) (s : State) : (pushNote w s).tbl = s.tbl := rfl
@[simp] theorem pushNote_lock (w : BitVec 16) (s : State) : (pushNote w s).lock = s.lock := rfl
@[simp] theorem pushNote_pendMidi (w : BitVec 16) (s : State) : (pushNote w s).pendMidi = s.pendMidi := rfl
@[simp] theorem pushNote_pendUi (w : BitVec 16) (s : State) : (pushNote w s).pendUi = s.pendUi := rfl
@[simp] theorem pushNote_updq (w : BitVec 16) (s : State) : (pushNote w s).updq = s.updq := rfl
@[simp] theorem pushNote_noteq (w : BitVec 16) (s : State) : (pushNote w s).noteq = pushBounded s.cfg.noteDepth s.noteq w := rfl
@[simp] theorem pushNote_fault (w : BitVec 16) (s : State) : (pushNote w s).fault = s.fault := rfl
@[simp] theorem pushNote_engine (w : BitVec 16) (s : State) : (pushNote w s).engine = s.engine := rfl
@[simp] theorem pushNote_out (w : BitVec 16) (s : State) : (pushNote w s).out = s.out := rfl
@[simp] theorem pushNote_replies (w : BitVec 16) (s : State) : (pushNote w s).replies = s.replies := rfl
@[simp] theorem pushNote_inbox (w : BitVec 16) (s : State) : (pushNote w s).inbox = s.inbox := rfl
@[simp] theorem pushNote_shut (w : BitVec 16) (s : State) : (pushNote w s).shut = s.shut := rfl

/-! ### pushUpdate -/

@[simp] theorem pushUpdate_cfg (u : Update) (s : State) : (pushUpdate u s).cfg = s.cfg := rfl
@[simp] theorem pushUpdate_tbl (u : Update) (s : State) : (pushUpdate u s).tbl = s.tbl := rfl
@[simp] theorem pushUpdate_lock (u : Update) (s : State) : (pushUpdate u s).lock = s.lock := rfl
@[simp] theorem pushUpdate_pendMidi (u : Update) (s : State) : (pushUpdate u s).pendMidi = s.pendMidi := rfl
@[simp] theorem pushUpdate_pendUi (u : Update) (s : State) : (pushUpdate u s).pendUi = s.pendUi := rfl
@[simp] theorem pushUpdate_updq (u : Update) (s : State) : (pushUpdate u s).updq = pushBounded s.cfg.updDepth s.updq u := rfl
@[simp] theorem pushUpdate_noteq (u : Update) (s : State) : (pushUpdate u s).noteq = s.noteq := rfl
@[simp] theorem pushUpdate_fault (u : Update) (s : State) : (pushUpdate u s).fault = s.fault := rfl
@[simp] theorem pushUpdate_engine (u : Update) (s : State) : (pushUpdate u s).engine = s.engine := rfl
@[simp] theorem pushUpdate_out (u : Update) (s : State) : (pushUpdate u s).out = s.out := rfl
@[simp] theorem pushUpdate_replies (u : Update) (s : State) : (pushUpdate u s).replies = s.replies := rfl
@[simp] theorem pushUpdate_inbox (u : Update) (s : State) : (pushUpdate u s).inbox = s.inbox := rfl
@[simp] theorem pushUpdate_shut (u : Update) (s : State) : (pushUpdate u s).shut = s.shut := rfl

/-! ### withEngine -/

@[simp] theorem withEngine_cfg (e : Engine) (s : State) : (withEngine e s).cfg = s.cfg := rfl
@[simp] theorem withEngine_tbl (e : Engine) (s : State) : (withEngine e s).tbl = s.tbl := rfl
@[simp] theorem withEngine_lock (e : Engine) (s : State) : (withEngine e s).lock = s.lock := rfl
@[simp] theorem withEngine_pendMidi (e : Engine) (s : State) : (withEngine e s).pendMidi = s.pendMidi := rfl
@[simp] theorem withEngine_pendUi (e : Engine) (s : State) : (withEngine e s).pendUi = s.pendUi := rfl
@[simp] theorem withEngine_updq (e : Engine) (s : State) : (withEngine e s).updq = s.updq := rfl
@[simp] theorem withEngine_noteq (e : Engine) (s : State) : (withEngine e s).noteq = s.noteq := rfl
@[simp] theorem withEngine_fault (e : Engine) (s : State) : (withEngine e s).fault = s.fault := rfl
@[simp] theorem withEngine_engine (e : Engine) (s : State) : (withEngine e s).engine = e := rfl
@[simp] theorem withEngine_out (e : Engine) (s : State) : (withEngine e s).out = s.out := rfl
@[simp] theorem withEngine_replies (e : Engine) (s : State) : (withEngine e s).replies = s.replies := rfl
@[simp] theorem withEngine_inbox (e : Engine) (s : State) : (withEngine e s).inbox = s.inbox := rfl
@[simp] theorem withEngine_shut (e : Engine) (s : State) : (withEngine e s).shut = s.shut := rfl

/-! ### emitAll -/

@[simp] theorem emitAll_cfg (ys : List NUM) (s : State) : (emitAll ys s).cfg = s.cfg := rfl
@[simp] theorem emitAll_tbl (ys : List NUM) (s : State) : (emitAll ys s).tbl = s.tbl := rfl
@[simp] theorem emitAll_lock (ys : List NUM) (s : State) : (emitAll ys s).lock = s.lock := rfl
@[simp] theorem emitAll_pendMidi (ys : List NUM) (s : State) : (emitAll ys s).pendMidi = s.pendMidi := rfl
@[simp] theorem emitAll_pendUi (ys : List NUM) (s : State) : (emitAll ys s).pendUi = s.pendUi := rfl
@[simp] theorem emitAll_updq (ys : List NUM) (s : State) : (emitAll ys s).updq = s.updq := rfl
@[simp] theorem emitAll_noteq (ys : List NUM) (s : State) : (emitAll ys s).noteq = s.noteq := rfl
@[simp] theorem emitAll_fault (ys : List NUM) (s : State) : (emitAll ys s).fault = s.fault := rfl
@[simp] theorem emitAll_engine (ys : List NUM) (s : State) : (emitAll ys s).engine = s.engine := rfl
@[simp] theorem emitAll_out (ys : List NUM) (s : State) : (emitAll ys s).out = s.out ++ ys := rfl
@[simp] theorem emitAll_replies (ys : List NUM) (s : State) : (emitAll ys s).replies = s.replies := rfl
@[simp] theorem emitAll_inbox (ys : List NUM) (s : State) : (emitAll ys s).inbox = s.inbox := rfl
@[simp] theorem emitAll_shut (ys : List NUM) (s : State) : (emitAll ys s).shut = s.shut := rfl

/-! ### acquireLock -/

@[simp] theorem acquireLock_cfg (a : HostAgent) (s : State) : (acquireLock a s).cfg = s.cfg := rfl
@[simp] theorem acquireLock_tbl (a : HostAgent) (s : State) : (acquireLock a s).tbl = s.tbl := rfl
@[simp] theorem acquireLock_lock (a : HostAgent) (s : State) : (acquireLock a s).lock = .held a := rfl
@[simp] theorem acquireLock_pendMidi (a : HostAgent) (s : State) : (acquireLock a s).pendMidi = s.pendMidi := rfl
@[simp] theorem acquireLock_pendUi (a : HostAgent) (s : State) : (acquireLock a s).pendUi = s.pendUi := rfl
@[simp] theorem acquireLock_updq (a : HostAgent) (s : State) : (acquireLock a s).updq = s.updq := rfl
@[simp] theorem acquireLock_noteq (a : HostAgent) (s : State) : (acquireLock a s).noteq = s.noteq := rfl
@[simp] theorem acquireLock_fault (a : HostAgent) (s : State) : (acquireLock a s).fault = s.fault := rfl
@[simp] theorem acquireLock_engine (a : HostAgent) (s : State) : (acquireLock a s).engine = s.engine := rfl
@[simp] theorem acquireLock_out (a : HostAgent) (s : State) : (acquireLock a s).out = s.out := rfl
@[simp] theorem acquireLock_replies (a : HostAgent) (s : State) : (acquireLock a s).replies = s.replies := rfl
@[simp] theorem acquireLock_inbox (a : HostAgent) (s : State) : (acquireLock a s).inbox = s.inbox := rfl
@[simp] theorem acquireLock_shut (a : HostAgent) (s : State) : (acquireLock a s).shut = s.shut := rfl

/-! ### releaseLock -/

@[simp] theorem releaseLock_cfg (s : State) : (releaseLock s).cfg = s.cfg := rfl
@[simp] theorem releaseLock_tbl (s : State) : (releaseLock s).tbl = s.tbl := rfl
@[simp] theorem releaseLock_lock (s : State) : (releaseLock s).lock = .free := rfl
@[simp] theorem releaseLock_pendMidi (s : State) : (releaseLock s).pendMidi = s.pendMidi := rfl
@[simp] theorem releaseLock_pendUi (s : State) : (releaseLock s).pendUi = s.pendUi := rfl
@[simp] theorem releaseLock_updq (s : State) : (releaseLock s).updq = s.updq := rfl
@[simp] theorem releaseLock_noteq (s : State) : (releaseLock s).noteq = s.noteq := rfl
@[simp] theorem releaseLock_fault (s : State) : (releaseLock s).fault = s.fault := rfl
@[simp] theorem releaseLock_engine (s : State) : (releaseLock s).engine = s.engine := rfl
@[simp] theorem releaseLock_out (s : State) : (releaseLock s).out = s.out := rfl
@[simp] theorem releaseLock_replies (s : State) : (releaseLock s).replies = s.replies := rfl
@[simp] theorem releaseLock_inbox (s : State) : (releaseLock s).inbox = s.inbox := rfl
@[simp] theorem releaseLock_shut (s : State) : (releaseLock s).shut = s.shut := rfl

/-! ### writeTable -/

@[simp] theorem writeTable_cfg (id q : Nat) (s : State) : (writeTable id q s).cfg = s.cfg := rfl
@[simp] theorem writeTable_tbl (id q : Nat) (s : State) : (writeTable id q s).tbl = s.tbl.map (fun e => if e.id = id then { e with q := q } else e) := rfl
@[simp] theorem writeTable_lock (id q : Nat) (s : State) : (writeTable id q s).lock = s.lock := rfl
@[simp] theorem writeTable_pendMidi (id q : Nat) (s : State) : (writeTable id q s).pendMidi = s.pendMidi := rfl
@[simp] theorem writeTable_pendUi (id q : Nat) (s : State) : (writeTable id q s).pendUi = s.pendUi := rfl
@[simp] theorem writeTable_updq (id q : Nat) (s : State) : (writeTable id q s).updq = s.updq := rfl
@[simp] theorem writeTable_noteq (id q : Nat) (s : State) : (writeTable id q s).noteq = s.noteq := rfl
@[simp] theorem writeTable_fault (id q : Nat) (s : State) : (writeTable id q s).fault = s.fault := rfl
@[simp] theorem writeTable_engine (id q : Nat) (s : State) : (writeTable id q s).engine = s.engine := rfl
@[simp] theorem writeTable_out (id q : Nat) (s : State) : (writeTable id q s).out = s.out := rfl
@[simp] theorem writeTable_replies (id q : Nat) (s : State) : (writeTable id q s).replies = s.replies := rfl
@[simp] theorem writeTable_inbox (id q : Nat) (s : State) : (writeTable id q s).inbox = s.inbox := rfl
@[simp] theorem writeTable_shut (id q : Nat) (s : State) : (writeTable id q s).shut = s.shut := rfl

/-! ### setPend -/

@[simp] theorem setPend_cfg (a : HostAgent) (p : Option Update) (s : State) : (setPend a p s).cfg = s.cfg := by cases a <;> rfl
@[simp] theorem setPend_tbl (a : HostAgent) (p : Option Update) (s : State) : (setPend a p s).tbl = s.tbl := by cases a <;> rfl
@[simp] theorem setPend_lock (a : HostAgent) (p : Option Update) (s : State) : (setPend a p s).lock = s.lock := by cases a <;> rfl
@[simp] theorem setPend_updq (a : HostAgent) (p : Option Update) (s : State) : (setPend a p s).updq = s.updq := by cases a <;> rfl
@[simp] theorem setPend_noteq (a : HostAgent) (p : Option Update) (s : State) : (setPend a p s).noteq = s.noteq := by cases a <;> rfl
@[simp] theorem setPend_fault (a : HostAgent) (p : Option Update) (s : State) : (setPend a p s).fault = s.fault := by cases a <;> rfl
@[simp] theorem setPend_engine (a : HostAgent) (p : Option Update) (s : State) : (setPend a p s).engine = s.engine := by cases a <;> rfl
@[simp] theorem setPend_out (a : HostAgent) (p : Option Update) (s : State) : (setPend a p s).out = s.out := by cases a <;> rfl
@[simp] theorem setPend_replies (a : HostAgent) (p : Option Update) (s : State) : (setPend a p s).replies = s.replies := by cases a <;> rfl
@[simp] theorem setPend_inbox (a : HostAgent) (p : Option Update) (s : State) : (setPend a p s).inbox = s.inbox := by cases a <;> rfl
@[simp] theorem setPend_shut (a : HostAgent) (p : Option Update) (s : State) : (setPend a p s).shut = s.shut := by cases a <;> rfl

@[simp] theorem setPend_midi_pendMidi (p : Option Update) (s : State) : (setPend .midi p s).pendMidi = p := rfl
@[simp] theorem setPend_midi_pendUi (p : Option Update) (s : State) : (setPend .midi p s).pendUi = s.pendUi := rfl
@[simp] theorem setPend_ui_pendUi (p : Option Update) (s : State) : (setPend .ui p s).pendUi = p := rfl
@[simp] theorem setPend_ui_pendMidi (p : Option Update) (s : State) : (setPend .ui p s).pendMidi = s.pendMidi := rfl
@[simp] theorem pendOf_setPend_same (a : HostAgent) (p : Option Update) (s : State) : pendOf a (setPend a p s) = p := by
  cases a <;> rfl
theorem pendOf_setPend_other {a b : HostAgent} (h : b ≠ a) (p : Option Update) (s : State) :
    pendOf b (setPend a p s) = pendOf b s := by
  cases a <;> cases b <;> first | rfl | exact absurd rfl h

/-! ### raiseFault -/

@[simp] theorem raiseFault_cfg (c : FaultCode) (s : State) : (raiseFault c s).cfg = s.cfg := by unfold raiseFault; split <;> rfl
@[simp] theorem raiseFault_tbl (c : FaultCode) (s : State) : (raiseFault c s).tbl = s.tbl := by unfold raiseFault; split <;> rfl
@[simp] theorem raiseFault_lock (c : FaultCode) (s : State) : (raiseFault c s).lock = s.lock := by unfold raiseFault; split <;> rfl
@[simp] theorem raiseFault_pendMidi (c : FaultCode) (s : State) : (raiseFault c s).pendMidi = s.pendMidi := by unfold raiseFault; split <;> rfl
@[simp] theorem raiseFault_pendUi (c : FaultCode) (s : State) : (raiseFault c s).pendUi = s.pendUi := by unfold raiseFault; split <;> rfl
@[simp] theorem raiseFault_updq (c : FaultCode) (s : State) : (raiseFault c s).updq = s.updq := by unfold raiseFault; split <;> rfl
@[simp] theorem raiseFault_noteq (c : FaultCode) (s : State) : (raiseFault c s).noteq = s.noteq := by unfold raiseFault; split <;> rfl
@[simp] theorem raiseFault_engine (c : FaultCode) (s : State) : (raiseFault c s).engine = s.engine := by unfold raiseFault; split <;> rfl
@[simp] theorem raiseFault_out (c : FaultCode) (s : State) : (raiseFault c s).out = s.out := by unfold raiseFault; split <;> rfl
@[simp] theorem raiseFault_replies (c : FaultCode) (s : State) : (raiseFault c s).replies = s.replies := by unfold raiseFault; split <;> rfl
@[simp] theorem raiseFault_inbox (c : FaultCode) (s : State) : (raiseFault c s).inbox = s.inbox := by unfold raiseFault; split <;> rfl
@[simp] theorem raiseFault_shut (c : FaultCode) (s : State) : (raiseFault c s).shut = s.shut := by unfold raiseFault; split <;> rfl
theorem raiseFault_of_none {s : State} (h : s.fault = none) (c : FaultCode) : raiseFault c s = { s with fault := some c } := by
  simp [raiseFault, h]
theorem raiseFault_of_some {s : State} {d : FaultCode} (h : s.fault = some d) (c : FaultCode) : raiseFault c s = s := by
  simp [raiseFault, h]

/-! ### unknownParameter -/

@[simp] theorem unknownParameter_cfg (s : State) : (unknownParameter s).cfg = s.cfg := by unfold unknownParameter; split <;> simp
@[simp] theorem unknownParameter_tbl (s : State) : (unknownParameter s).tbl = s.tbl := by unfold unknownParameter; split <;> simp
@[simp] theorem unknownParameter_lock (s : State) : (unknownParameter s).lock = s.lock := by unfold unknownParameter; split <;> simp
@[simp] theorem unknownParameter_pendMidi (s : State) : (unknownParameter s).pendMidi = s.pendMidi := by unfold unknownParameter; split <;> simp
@[simp] theorem unknownParameter_pendUi (s : State) : (unknownParameter s).pendUi = s.pendUi := by unfold unknownParameter; split <;> simp
@[simp] theorem unknownParameter_updq (s : State) : (unknownParameter s).updq = s.updq := by unfold unknownParameter; split <;> simp
@[simp] theorem unknownParameter_noteq (s : State) : (unknownParameter s).noteq = s.noteq := by unfold unknownParameter; split <;> simp
@[simp] theorem unknownParameter_engine (s : State) : (unknownParameter s).engine = s.engine := by unfold unknownParameter; split <;> simp
@[simp] theorem unknownParameter_out (s : State) : (unknownParameter s).out = s.out := by unfold unknownParameter; split <;> simp
@[simp] theorem unknownParameter_replies (s : State) : (unknownParameter s).replies = s.replies := by unfold unknownParameter; split <;> simp
@[simp] theorem unknownParameter_inbox (s : State) : (unknownParameter s).inbox = s.inbox := by unfold unknownParameter; split <;> simp
@[simp] theorem unknownParameter_shut (s : State) : (unknownParameter s).shut = s.shut := by unfold unknownParameter; split <;> simp
theorem unknownParameter_fault {s : State} (hp : s.cfg.unknownId = .fault) (h : s.fault = none) :
    unknownParameter s = { s with fault := some .unknownId } := by
  simp [unknownParameter, hp, raiseFault_of_none h]
theorem unknownParameter_ignore {s : State} (hp : s.cfg.unknownId = .ignore) : unknownParameter s = s := by
  simp [unknownParameter, hp]

/-! ### setPush -/

@[simp] theorem setPush_cfg (a : HostAgent) (s : State) : (setPush a s).cfg = s.cfg := by unfold setPush; split <;> simp
@[simp] theorem setPush_tbl (a : HostAgent) (s : State) : (setPush a s).tbl = s.tbl := by unfold setPush; split <;> simp
@[simp] theorem setPush_lock (a : HostAgent) (s : State) : (setPush a s).lock = s.lock := by unfold setPush; split <;> simp
@[simp] theorem setPush_noteq (a : HostAgent) (s : State) : (setPush a s).noteq = s.noteq := by unfold setPush; split <;> simp
@[simp] theorem setPush_fault (a : HostAgent) (s : State) : (setPush a s).fault = s.fault := by unfold setPush; split <;> simp
@[simp] theorem setPush_engine (a : HostAgent) (s : State) : (setPush a s).engine = s.engine := by unfold setPush; split <;> simp
@[simp] theorem setPush_out (a : HostAgent) (s : State) : (setPush a s).out = s.out := by unfold setPush; split <;> simp
@[simp] theorem setPush_replies (a : HostAgent) (s : State) : (setPush a s).replies = s.replies := by unfold setPush; split <;> simp
@[simp] theorem setPush_inbox (a : HostAgent) (s : State) : (setPush a s).inbox = s.inbox := by unfold setPush; split <;> simp
@[simp] theorem setPush_shut (a : HostAgent) (s : State) : (setPush a s).shut = s.shut := by unfold setPush; split <;> simp
theorem setPush_of_none {a : HostAgent} {s : State} (h : pendOf a s = none) : setPush a s = s := by simp [setPush, h]
theorem setPush_of_some {a : HostAgent} {s : State} {u : Update} (h : pendOf a s = some u) :
    setPush a s = setPend a none (pushUpdate u s) := by simp [setPush, h]
@[simp] theorem pendOf_setPush_same (a : HostAgent) (s : State) : pendOf a (setPush a s) = none := by
  unfold setPush; split <;> simp_all

/-! ### commitLocked -/

@[simp] theorem commitLocked_cfg (a : HostAgent) (id q : Nat) (s : State) : (commitLocked a id q s).cfg = s.cfg := by simp [commitLocked]
@[simp] theorem commitLocked_tbl (a : HostAgent) (id q : Nat) (s : State) : (commitLocked a id q s).tbl = s.tbl.map (fun e => if e.id = id then { e with q := q } else e) := by simp [commitLocked]
@[simp] theorem commitLocked_lock (a : HostAgent) (id q : Nat) (s : State) : (commitLocked a id q s).lock = .free := by simp [commitLocked]
@[simp] theorem commitLocked_updq (a : HostAgent) (id q : Nat) (s : State) : (commitLocked a id q s).updq = s.updq := by simp [commitLocked]
@[simp] theorem commitLocked_noteq (a : HostAgent) (id q : Nat) (s : State) : (commitLocked a id q s).noteq = s.noteq := by simp [commitLocked]
@[simp] theorem commitLocked_fault (a : HostAgent) (id q : Nat) (s : State) : (commitLocked a id q s).fault = s.fault := by simp [commitLocked]
@[simp] theorem commitLocked_engine (a : HostAgent) (id q : Nat) (s : State) : (commitLocked a id q s).engine = s.engine := by simp [commitLocked]
@[simp] theorem commitLocked_out (a : HostAgent) (id q : Nat) (s : State) : (commitLocked a id q s).out = s.out := by simp [commitLocked]
@[simp] theorem commitLocked_replies (a : HostAgent) (id q : Nat) (s : State) : (commitLocked a id q s).replies = s.replies := by simp [commitLocked]
@[simp] theorem commitLocked_inbox (a : HostAgent) (id q : Nat) (s : State) : (commitLocked a id q s).inbox = s.inbox := by simp [commitLocked]
@[simp] theorem commitLocked_shut (a : HostAgent) (id q : Nat) (s : State) : (commitLocked a id q s).shut = s.shut := by simp [commitLocked]
@[simp] theorem pendOf_commitLocked_same (a : HostAgent) (id q : Nat) (s : State) :
    pendOf a (commitLocked a id q s) = some { id := id, v := resolveId s.cfg id q } := by cases a <;> rfl
theorem pendOf_commitLocked_other {a b : HostAgent} (h : b ≠ a) (id q : Nat) (s : State) :
    pendOf b (commitLocked a id q s) = pendOf b s := by
  cases a <;> cases b <;> first | rfl | exact absurd rfl h

end Sys2Proof.Machine
end

