-- ==== Sys2Proof/Laws/Ops.lean ====
section
/-! SUPPORT. What each shared operation can do: the channels, the two steps of a SET, GET, the effect of what RENDER pops, and the control flow of RENDER and of a step. -/

namespace Sys2Proof.Machine

/-! ### Sequencing -/

theorem whenRunning_running {s : State} (hf : s.fault = none) (hs : s.shut = false) (k : Host.Outcome State Fault Refusal) :
    whenRunning s k = k := by simp [whenRunning, hf, hs]

theorem whenRunning_halted {s : State} {c : FaultCode} (hf : s.fault = some c) (k : Host.Outcome State Fault Refusal) :
    whenRunning s k = .fault (.halted c) := by simp [whenRunning, hf]

/-- A step that answers a next state is a step of a running block. -/
theorem whenRunning_next {s t : State} {k : Host.Outcome State Fault Refusal} (h : whenRunning s k = .next t) :
    s.fault = none ∧ s.shut = false ∧ k = .next t := by
  unfold whenRunning at h
  split at h
  · cases h
  · split at h
    · cases h
    · next hf hs => exact ⟨hf, by simpa using hs, h⟩

@[simp] theorem andThen_of_next (s : State) (k : State → Host.Outcome State Fault Refusal) : andThen (.next s) k = k s := rfl

theorem andThen_next {o : Host.Outcome State Fault Refusal} {k : State → Host.Outcome State Fault Refusal} {t : State}
    (h : andThen o k = .next t) : ∃ s, o = .next s ∧ k s = .next t := by
  cases o with
  | next s => exact ⟨s, rfl, h⟩
  | fault f => cases h
  | refused r => cases h

/-! ### Channels -/

theorem pushBounded_length_le {α : Type} {depth : Nat} (hd : 1 ≤ depth) {q : List α} (hq : q.length ≤ depth) (m : α) :
    (pushBounded depth q m).length ≤ depth := by
  unfold pushBounded
  split
  · simp; omega
  · simp; omega

/-- What a push leaves in a channel was there or is the entry pushed. -/
theorem mem_pushBounded {α : Type} {depth : Nat} {q : List α} {m x : α} (h : x ∈ pushBounded depth q m) : x ∈ q ∨ x = m := by
  unfold pushBounded at h
  split at h
  · rcases List.mem_append.1 h with h | h
    · exact .inl (List.mem_of_mem_tail h)
    · exact .inr (by simpa using h)
  · simpa using h

/-- The entry pushed is the newest. -/
theorem pushBounded_getLast {α : Type} (depth : Nat) (q : List α) (m : α) : (pushBounded depth q m).getLast? = some m := by
  simp [pushBounded]

theorem popNote_snd (s : State) : (popNote s).2 = { s with noteq := s.noteq.tail } := by
  obtain ⟨⟩ := s
  unfold popNote
  split <;> simp_all

theorem popNote_fst (s : State) : (popNote s).1 = s.noteq.head? := by
  unfold popNote; cases s.noteq <;> rfl

theorem popUpdate_snd (s : State) : (popUpdate s).2 = { s with updq := s.updq.tail } := by
  obtain ⟨⟩ := s
  unfold popUpdate
  split <;> simp_all

theorem popUpdate_fst (s : State) : (popUpdate s).1 = s.updq.head? := by
  unfold popUpdate; cases s.updq <;> rfl

/-! ### SET and GET -/

/-- What SET-commit does after the push of an update still pending: the unknown-id policy, a wait, or the write. -/
theorem setCommit_cases (a : HostAgent) (id q : Nat) (s : State) :
    (knownId s.cfg id = false ∧ setCommit a id q s = unknownParameter (setPush a s)) ∨
    (knownId s.cfg id = true ∧ lockedAgainst a s = true ∧ setCommit a id q s = setPush a s) ∨
    (knownId s.cfg id = true ∧ lockedAgainst a s = false ∧
      setCommit a id q s = commitLocked a id (saturateQ q) (setPush a s)) := by
  have hl : lockedAgainst a (setPush a s) = lockedAgainst a s := by simp [lockedAgainst]
  cases hk : knownId s.cfg id <;> cases hw : lockedAgainst a s <;> simp [setCommit, hk, hl, hw]

/-- A SET of a known id by an agent with nothing pending and the lock free for it. -/
theorem setCommit_known {a : HostAgent} {id q : Nat} {s : State} (hp : pendOf a s = none) (hk : knownId s.cfg id = true)
    (hl : lockedAgainst a s = false) : setCommit a id q s = commitLocked a id (saturateQ q) s := by
  simp [setCommit, setPush_of_none hp, hk, hl]

/-- What GET does: the unknown-id policy, a wait, an answer, or nothing. Only FAULT, LOCK and the answers can change. -/
theorem getParameter_cases (a : HostAgent) (id : Nat) (s : State) :
    (knownId s.cfg id = false ∧ getParameter a id s = unknownParameter s) ∨
    (knownId s.cfg id = true ∧ getParameter a id s = s) ∨
    (∃ q, knownId s.cfg id = true ∧ lockedAgainst a s = false ∧ readTable id s = some q ∧
      getParameter a id s =
        releaseLock { s with replies := s.replies ++ [{ agent := a, id := id, q := q, v := resolveId s.cfg id q }] }) := by
  cases hk : knownId s.cfg id
  · exact .inl ⟨rfl, by simp [getParameter, hk]⟩
  · cases hl : lockedAgainst a s
    · cases hr : readTable id s with
      | none => exact .inr (.inl ⟨rfl, by simp [getParameter, hk, hl, hr]⟩)
      | some q => exact .inr (.inr ⟨q, rfl, rfl, rfl, by simp [getParameter, hk, hl, hr]⟩)
    · exact .inr (.inl ⟨rfl, by simp [getParameter, hk, hl]⟩)

theorem saturateQ_le (q : Nat) : saturateQ q ≤ QMAX := Nat.min_le_right q QMAX

theorem ccQuantize_le (d2 : Nat) : ccQuantize d2 ≤ QMAX := Nat.min_le_left QMAX _

/-! ### RENDER -/

/-- The note half of RENDER always answers a next state, in which at most the allocator and the note channel differ. -/
theorem drainNote_next (s : State) : ∃ al, drainNote s = .next (withEngine { s.engine with alloc := al } { s with noteq := s.noteq.tail }) ∧
    (al = s.engine.alloc ∨ ∃ n, n < 128 ∧ (al = removeNote n s.engine.alloc ∨ al = addNote s.cfg.n n s.engine.alloc)) := by
  unfold drainNote popNote
  cases hq : s.noteq with
  | nil => exact ⟨s.engine.alloc, by obtain ⟨⟩ := s; simp_all [withEngine], .inl rfl⟩
  | cons w rest =>
    have hlt : bitField w.toNat 0 7 < 128 := Nat.mod_lt _ (by decide)
    simp only [applyNoteWord, decodeN]
    by_cases h1 : bitField w.toNat 7 9 = 0x100
    · simp only [if_pos h1, execNqNoteOff, List.tail_cons]
      exact ⟨_, rfl, .inr ⟨_, hlt, .inl rfl⟩⟩
    · by_cases h2 : bitField w.toNat 7 9 = 0x120
      · simp only [if_neg h1, if_pos h2, execNqNoteOn, List.tail_cons]
        exact ⟨_, rfl, .inr ⟨_, hlt, .inr rfl⟩⟩
      · simp only [if_neg h1, if_neg h2, List.tail_cons]
        exact ⟨s.engine.alloc, rfl, .inl rfl⟩

/-- The update half of RENDER always answers a next state, in which at most the engine, the update channel and FAULT differ. -/
theorem drainUpdate_next (s : State) : ∃ t, drainUpdate s = .next t := by
  unfold drainUpdate popUpdate
  cases s.updq with
  | nil => exact ⟨_, rfl⟩
  | cons u rest =>
    simp only [applyUpdate]
    split
    · unfold applyKnown
      split <;> exact ⟨_, rfl⟩
    · exact ⟨_, rfl⟩

/-- What RENDER does in a running block: the note half, the update half, then the frames unless the update faulted. -/
theorem execRender_cases {b : Nat} {s t : State} (h : execRender b s = .next t) :
    s.fault = none ∧ s.shut = false ∧ ∃ s1 s2, drainNote s = .next s1 ∧ drainUpdate s1 = .next s2 ∧
      ((∃ c, s2.fault = some c ∧ t = s2) ∨ (s2.fault = none ∧ emitFrames b s2 = .next t)) := by
  obtain ⟨hf, hs, hk⟩ := whenRunning_next h
  obtain ⟨s1, h1, hk⟩ := andThen_next hk
  obtain ⟨s2, h2, hk⟩ := andThen_next hk
  refine ⟨hf, hs, s1, s2, h1, h2, ?_⟩
  cases hc : s2.fault with
  | none => exact .inr ⟨rfl, by simpa [hc] using hk⟩
  | some c => exact .inl ⟨c, rfl, by simpa [hc] using hk.symm⟩

/-- What the frames of a RENDER leave: the engine after them and OUT extended. -/
theorem emitFrames_next {b : Nat} {s t : State} (h : emitFrames b s = .next t) :
    t = emitAll (frames s.cfg b s.engine).1 (withEngine (frames s.cfg b s.engine).2 s) := by
  unfold emitFrames at h
  split at h
  · next hb => subst hb; cases h; simp [frames, emitAll, withEngine]
  · split at h
    · cases h
    · cases h; rfl

theorem frames_length (c : Cfg) (b : Nat) (e : Engine) : (frames c b e).1.length = b := by
  induction b generalizing e with
  | zero => rfl
  | succ b ih => simp [frames, ih]

/-- Frames are computed one after another, whatever the buffers they come in (R461). -/
theorem frames_add (c : Cfg) (a b : Nat) (e : Engine) :
    frames c (a + b) e = ((frames c a e).1 ++ (frames c b (frames c a e).2).1, (frames c b (frames c a e).2).2) := by
  induction a generalizing e with
  | zero => simp [frames]
  | succ a ih => simp [Nat.succ_add, frames, ih]

/-! ### The effect of what RENDER pops -/

open Sys2Proof.Safety

theorem entryEffect_of_decode {w : PortWord} {i : Instr} (h : decode w = .ok i) (s : State) : entryEffect w s = exec i s := by
  unfold entryEffect
  generalize decode w = d at h
  subst h
  rfl

theorem entryEffect_of_no_row {w : PortWord} {e : DecodeError} (h : decode w = .error e) (s : State) : entryEffect w s = .next s := by
  unfold entryEffect
  generalize decode w = d at h
  subst h
  rfl

theorem noteEffect_of_nil {s : State} (h : s.noteq = []) : noteEffect s = .next s := by
  unfold noteEffect
  rw [h]

theorem noteEffect_of_cons {s : State} {x : BitVec 16} {rest : List (BitVec 16)} (h : s.noteq = x :: rest) :
    noteEffect s = entryEffect (.n x) { s with noteq := rest } := by
  unfold noteEffect
  rw [h]

theorem updateEffect_of_nil {s : State} (h : s.updq = []) : updateEffect s = .next s := by
  unfold updateEffect
  rw [h]

theorem updateEffect_of_known {s : State} {u : Update} {rest : List Update} (h : s.updq = u :: rest)
    (hk : knownId s.cfg u.id = true) : updateEffect s = entryEffect (updateWord u.id u.v) { s with updq := rest } := by
  unfold updateEffect
  rw [h]
  exact if_pos hk

theorem updateEffect_of_unknown {s : State} {u : Update} {rest : List Update} (h : s.updq = u :: rest)
    (hk : ¬ knownId s.cfg u.id = true) : updateEffect s = .next (unknownParameter { s with updq := rest }) := by
  unfold updateEffect
  rw [h]
  exact if_neg hk

/-- The note half of RENDER is the effect of the popped note entry. -/
theorem drainNote_eq_noteEffect (s : State) : drainNote s = noteEffect s := by
  cases h : s.noteq with
  | nil => rw [noteEffect_of_nil h]; simp only [drainNote, popNote, h]
  | cons x rest =>
    rw [noteEffect_of_cons h]
    simp only [drainNote, popNote, h]
    rcases decodeN_cases x.toNat with ⟨-, hd⟩ | ⟨-, hd⟩ | ⟨-, -, hd⟩
    · rw [entryEffect_of_decode (w := .n x) hd]; simp only [applyNoteWord, hd]; rfl
    · rw [entryEffect_of_decode (w := .n x) hd]; simp only [applyNoteWord, hd]; rfl
    · rw [entryEffect_of_no_row (w := .n x) hd]; simp only [applyNoteWord, hd]

/-- An id of R401's range has its update row, which is applied. -/
theorem applyKnown_eq_exec {u : Update} (h : u.id ≤ 16) (s : State) :
    ∃ i, decode (updateWord u.id u.v) = .ok i ∧ isChannelInstr i = true ∧ applyKnown u s = exec i s := by
  obtain ⟨id, v⟩ := u
  have h : id ≤ 16 := h
  rw [decode_updateWord (show id < 256 by omega)]
  interval_cases id <;> exact ⟨_, rfl, rfl, rfl⟩

/-- The update half of RENDER is the effect of the popped update, where a known id has a row. -/
theorem drainUpdate_eq_updateEffect (s : State)
    (h : ∀ u, s.updq.head? = some u → knownId s.cfg u.id = true → u.id ≤ 16) : drainUpdate s = updateEffect s := by
  cases hq : s.updq with
  | nil => rw [updateEffect_of_nil hq]; simp only [drainUpdate, popUpdate, hq]
  | cons u rest =>
    simp only [drainUpdate, popUpdate, hq, applyUpdate]
    by_cases hk : knownId s.cfg u.id = true
    · obtain ⟨i, hi, -, he⟩ := applyKnown_eq_exec (h u (by rw [hq]; rfl) hk) { s with updq := rest }
      rw [updateEffect_of_known hq hk, entryEffect_of_decode hi, ← he]
      exact if_pos hk
    · rw [updateEffect_of_unknown hq hk]
      exact if_neg hk

/-- A channel entry that decodes always runs to a next state, in which at most the engine differs. -/
theorem exec_channelInstr {i : Instr} (h : isChannelInstr i = true) (s : State) : ∃ e, exec i s = .next (withEngine e s) := by
  cases i <;> first | exact ⟨_, rfl⟩ | cases h

/-! ### A step -/

/-- What a step of a running block is, by the head of the schedule. -/
theorem step_cases {s t : State} (h : step s = .next t) :
    s.fault = none ∧ s.shut = false ∧
    ((s.inbox = [] ∧ t = s) ∨
     (∃ a rest, s.inbox = .push a :: rest ∧ t = setPush a { s with inbox := rest }) ∨
     (∃ rest, s.inbox = .shutdown :: rest ∧ t = { s with inbox := rest, shut := true }) ∨
     (∃ w rest, s.inbox = .word w :: rest ∧ stepWord w rest s = .next t)) := by
  obtain ⟨hf, hs, hk⟩ := whenRunning_next h
  refine ⟨hf, hs, ?_⟩
  unfold stepSchedule at hk
  split at hk
  · next hi => cases hk; exact .inl ⟨hi, rfl⟩
  · next w rest hi => exact .inr (.inr (.inr ⟨w, rest, hi, hk⟩))
  · next a rest hi => cases hk; exact .inr (.inl ⟨a, rest, hi, rfl⟩)
  · next rest hi => cases hk; exact .inr (.inr (.inl ⟨rest, hi, rfl⟩))

/-- What the step of a port word is: a SET-push first, a wait, an ignored word, a channel push, or the instruction of a
MIDI, register or render word. -/
theorem stepWord_cases {w : PortWord} {rest : List Event} {s t : State} (h : stepWord w rest s = .next t) :
    (∃ a u, wordOwner w = some a ∧ pendOf a s = some u ∧ t = setPush a s) ∨ t = s ∨ t = { s with inbox := rest } ∨
    (∃ x, w = .n x ∧ t = pushNote x { s with inbox := rest }) ∨
    (∃ x, w = .u x ∧ t = pushUpdate (updateOfWord x) { s with inbox := rest }) ∨
    (∃ i, ((wordOwner w).isSome = true ∨ ∃ x, w = .c x) ∧ decode w = .ok i ∧ exec i { s with inbox := rest } = .next t) := by
  unfold stepWord at h
  split at h
  · next a ha =>
    split at h
    · next u hu => cases h; exact .inl ⟨a, u, ha, hu, rfl⟩
    · split at h
      · next i hi =>
        split at h
        · cases h; exact .inr (.inl rfl)
        · exact .inr (.inr (.inr (.inr (.inr ⟨i, .inl (by rw [ha]; rfl), hi, h⟩))))
      · cases h; exact .inr (.inr (.inl rfl))
  · next hw =>
    cases w with
    | n x => cases h; exact .inr (.inr (.inr (.inl ⟨x, rfl, rfl⟩)))
    | u x => cases h; exact .inr (.inr (.inr (.inr (.inl ⟨x, rfl, rfl⟩))))
    | m x => cases hw
    | s a x => cases hw
    | c x =>
      simp only [runWord] at h
      split at h
      · next i hi => exact .inr (.inr (.inr (.inr (.inr ⟨i, .inr ⟨x, rfl⟩, hi, h⟩))))
      · cases h; exact .inr (.inr (.inl rfl))

end Sys2Proof.Machine
end

