-- ==== Sys2Proof/Laws/PerInstr.lean ====
section
/-! SUPPORT. Statements made per instruction: each constructor stands for a row of R150, of the format its encoding has. -/

namespace Sys2Proof.Laws.TableRow

/-- The opcode map has a row with the instruction's mnemonic, and the row's format is that of the encoded word (R150). -/
def Statement (i : Instr) : Prop := ∃ r ∈ opcodeTable, r.mnemonic = i.mnemonic ∧ r.format = (encode i).format

theorem midiNoteOff (chan note vel : Nat) : Statement (.midiNoteOff chan note vel) :=
  ⟨opcodeTable[0], List.getElem_mem _, rfl, rfl⟩
theorem midiNoteOn (chan note vel : Nat) : Statement (.midiNoteOn chan note vel) :=
  ⟨opcodeTable[1], List.getElem_mem _, rfl, rfl⟩
theorem midiCc (chan index value : Nat) : Statement (.midiCc chan index value) :=
  ⟨opcodeTable[2], List.getElem_mem _, rfl, rfl⟩
theorem midiPolyPressure (chan d1 d2 : Nat) : Statement (.midiPolyPressure chan d1 d2) :=
  ⟨opcodeTable[3], List.getElem_mem _, rfl, rfl⟩
theorem midiProgram (chan d1 d2 : Nat) : Statement (.midiProgram chan d1 d2) :=
  ⟨opcodeTable[4], List.getElem_mem _, rfl, rfl⟩
theorem midiChannelPressure (chan d1 d2 : Nat) : Statement (.midiChannelPressure chan d1 d2) :=
  ⟨opcodeTable[5], List.getElem_mem _, rfl, rfl⟩
theorem midiPitchBend (chan d1 d2 : Nat) : Statement (.midiPitchBend chan d1 d2) :=
  ⟨opcodeTable[6], List.getElem_mem _, rfl, rfl⟩
theorem midiSystem (chan d1 d2 : Nat) : Statement (.midiSystem chan d1 d2) :=
  ⟨opcodeTable[7], List.getElem_mem _, rfl, rfl⟩
theorem midiNoStatus (b0 b1 b2 : Nat) : Statement (.midiNoStatus b0 b1 b2) :=
  ⟨opcodeTable[8], List.getElem_mem _, rfl, rfl⟩
theorem set (a : HostAgent) (id q : Nat) : Statement (.set a id q) :=
  ⟨opcodeTable[9], List.getElem_mem _, rfl, rfl⟩
theorem get (a : HostAgent) (id q : Nat) : Statement (.get a id q) :=
  ⟨opcodeTable[10], List.getElem_mem _, rfl, rfl⟩
theorem nqNoteOff (note : Nat) : Statement (.nqNoteOff note) :=
  ⟨opcodeTable[11], List.getElem_mem _, rfl, rfl⟩
theorem nqNoteOn (note : Nat) : Statement (.nqNoteOn note) :=
  ⟨opcodeTable[12], List.getElem_mem _, rfl, rfl⟩
theorem updAttackMs (v : NUM) : Statement (.updAttackMs v) :=
  ⟨opcodeTable[13], List.getElem_mem _, rfl, rfl⟩
theorem updReleaseMs (v : NUM) : Statement (.updReleaseMs v) :=
  ⟨opcodeTable[14], List.getElem_mem _, rfl, rfl⟩
theorem updHarmSpacing (v : NUM) : Statement (.updHarmSpacing v) :=
  ⟨opcodeTable[15], List.getElem_mem _, rfl, rfl⟩
theorem updHarmExponent (v : NUM) : Statement (.updHarmExponent v) :=
  ⟨opcodeTable[16], List.getElem_mem _, rfl, rfl⟩
theorem updFilterCutoff (v : NUM) : Statement (.updFilterCutoff v) :=
  ⟨opcodeTable[17], List.getElem_mem _, rfl, rfl⟩
theorem updFilterResonance (v : NUM) : Statement (.updFilterResonance v) :=
  ⟨opcodeTable[18], List.getElem_mem _, rfl, rfl⟩
theorem updFilterGainDb (v : NUM) : Statement (.updFilterGainDb v) :=
  ⟨opcodeTable[19], List.getElem_mem _, rfl, rfl⟩
theorem updFilterType (v : NUM) : Statement (.updFilterType v) :=
  ⟨opcodeTable[20], List.getElem_mem _, rfl, rfl⟩
theorem updDelayTimeS (v : NUM) : Statement (.updDelayTimeS v) :=
  ⟨opcodeTable[21], List.getElem_mem _, rfl, rfl⟩
theorem updDelayFeedback (v : NUM) : Statement (.updDelayFeedback v) :=
  ⟨opcodeTable[22], List.getElem_mem _, rfl, rfl⟩
theorem updDelayMix (v : NUM) : Statement (.updDelayMix v) :=
  ⟨opcodeTable[23], List.getElem_mem _, rfl, rfl⟩
theorem updDelayFreeze (v : NUM) : Statement (.updDelayFreeze v) :=
  ⟨opcodeTable[24], List.getElem_mem _, rfl, rfl⟩
theorem updDelayReverse (v : NUM) : Statement (.updDelayReverse v) :=
  ⟨opcodeTable[25], List.getElem_mem _, rfl, rfl⟩
theorem updDelayInterp (v : NUM) : Statement (.updDelayInterp v) :=
  ⟨opcodeTable[26], List.getElem_mem _, rfl, rfl⟩
theorem updDelayTopology (v : NUM) : Statement (.updDelayTopology v) :=
  ⟨opcodeTable[27], List.getElem_mem _, rfl, rfl⟩
theorem updReverbRt60S (v : NUM) : Statement (.updReverbRt60S v) :=
  ⟨opcodeTable[28], List.getElem_mem _, rfl, rfl⟩
theorem updReverbMix (v : NUM) : Statement (.updReverbMix v) :=
  ⟨opcodeTable[29], List.getElem_mem _, rfl, rfl⟩
theorem render (b : Nat) : Statement (.render b) :=
  ⟨opcodeTable[30], List.getElem_mem _, rfl, rfl⟩

end Sys2Proof.Laws.TableRow
end

