-- ==== Sys2Proof/Laws/Units.lean ====
section
/-! SUPPORT. What each unit's operations can do: the allocator, the voices, the flags, the ring buffers, the delay line and the reverb, and the frame built of them. -/

namespace Sys2Proof.Machine

open Sys2Proof.Safety

/-! ### The allocator (R200 to R203) -/

theorem addNote_held {n : Nat} {al : List Nat} (h : n ∈ al) (cap : Nat) : addNote cap n al = al := if_pos h

theorem removeNote_absent {n : Nat} {al : List Nat} (h : n ∉ al) : removeNote n al = al := by
  refine List.filter_eq_self.2 fun m hm => ?_
  have : m ≠ n := fun e => h (e ▸ hm)
  simpa using this

theorem mem_addNote {cap n m : Nat} {al : List Nat} (h : m ∈ addNote cap n al) : m ∈ al ∨ m = n := by
  unfold addNote at h
  split at h
  · exact .inl h
  · split at h
    · rcases List.mem_append.1 h with h | h
      · exact .inl (List.mem_of_mem_tail h)
      · exact .inr (by simpa using h)
    · simpa using h

theorem addNote_length_le {cap : Nat} (hc : 1 ≤ cap) {al : List Nat} (h : al.length ≤ cap) (n : Nat) :
    (addNote cap n al).length ≤ cap := by
  unfold addNote
  split
  · exact h
  · split
    · simp; omega
    · simp; omega

theorem addNote_nodup {al : List Nat} (h : al.Nodup) (cap n : Nat) : (addNote cap n al).Nodup := by
  unfold addNote
  split
  · exact h
  · next hn =>
    split
    · refine List.Nodup.append h.tail (List.nodup_singleton n) ?_
      intro x hx hy
      exact hn ((List.mem_singleton.1 hy) ▸ List.mem_of_mem_tail hx)
    · refine List.Nodup.append h (List.nodup_singleton n) ?_
      intro x hx hy
      exact hn ((List.mem_singleton.1 hy) ▸ hx)

theorem mem_removeNote {n m : Nat} {al : List Nat} : m ∈ removeNote n al ↔ m ∈ al ∧ m ≠ n := by
  simp [removeNote]

theorem removeNote_length_le (n : Nat) (al : List Nat) : (removeNote n al).length ≤ al.length :=
  List.length_filter_le _ al

theorem removeNote_nodup {al : List Nat} (h : al.Nodup) (n : Nat) : (removeNote n al).Nodup := h.filter _

/-! ### Flags (R406) -/

/-- DISC answers a code between its bounds. -/
theorem disc_bounds (m : Numerics) (v : NUM) {lo hi : Nat} (h : lo ≤ hi) : lo ≤ disc m v lo hi ∧ disc m v lo hi ≤ hi := by
  simp only [disc]
  split_ifs <;> omega

theorem spacingFlag_cases (m : Numerics) (v : NUM) : spacingFlag m v = 1 ∨ spacingFlag m v = 2 := by
  have h := disc_bounds m v (show 1 ≤ 2 by decide)
  unfold spacingFlag
  omega

/-! ### The voices -/

theorem envProcess_lastNote (m : Numerics) (r : EnvRegs) (v : Voice) : (envProcess m r v).lastNote = v.lastNote := by
  unfold envProcess
  split
  · rfl
  · simp only; split <;> rfl
  · rfl
  · simp only; split <;> rfl

@[simp] theorem envNoteOn_lastNote (v : Voice) : (envNoteOn v).lastNote = v.lastNote := rfl
@[simp] theorem envNoteOff_lastNote (v : Voice) : (envNoteOff v).lastNote = v.lastNote := rfl
@[simp] theorem envNoteOn_envVal (v : Voice) : (envNoteOn v).envVal = v.envVal := rfl
@[simp] theorem envNoteOff_envVal (v : Voice) : (envNoteOff v).envVal = v.envVal := rfl

/-- The gate records the note and never touches the envelope's value or the phase (R462). -/
theorem voiceGate_lastNote (m : Numerics) (cur : Option Nat) (v : Voice) : (voiceGate m cur v).lastNote = cur := by
  unfold voiceGate; split <;> rfl

theorem voiceGate_envVal (m : Numerics) (cur : Option Nat) (v : Voice) : (voiceGate m cur v).envVal = v.envVal := by
  unfold voiceGate
  split
  · simp only; split <;> rfl
  · simp only; split <;> rfl

theorem voiceGate_phase (m : Numerics) (cur : Option Nat) (v : Voice) : (voiceGate m cur v).phase = v.phase := by
  unfold voiceGate
  split
  · simp only; split <;> rfl
  · simp only; split <;> rfl

/-- The voice after VOICE_OUT: the envelope has run, and only the phase is changed besides. -/
theorem voiceOut_voice (c : Cfg) (env : EnvRegs) (osc : OscRegs) (cur : Option Nat) (v : Voice) :
    (voiceOut c env osc cur v).2.envVal = (envProcess c.nm env v).envVal ∧
    (voiceOut c env osc cur v).2.lastNote = v.lastNote := by
  unfold voiceOut
  cases cur <;> exact ⟨rfl, envProcess_lastNote _ _ _⟩

/-- A voice after a frame: its note is its place's note, its envelope value is what ENV_PROCESS made of a voice with the
value it had. -/
theorem mixVoices_mem (c : Cfg) (env : EnvRegs) (osc : OscRegs) (al : List Nat) (vs : List Voice) (i : Nat) (acc : NUM) :
    ∀ w ∈ (mixVoices c env osc al i acc vs).2, ∃ k, w.lastNote = voiceNote al k ∧
      ∃ v ∈ vs, w.envVal = (envProcess c.nm env (voiceGate c.nm (voiceNote al k) v)).envVal := by
  induction vs generalizing i acc with
  | nil => simp [mixVoices]
  | cons v vs ih =>
    intro w hw
    simp only [mixVoices] at hw
    rcases List.mem_cons.1 hw with rfl | hw
    · refine ⟨i, ?_, v, List.mem_cons_self .., ?_⟩
      · rw [(voiceOut_voice ..).2, voiceGate_lastNote]
      · exact (voiceOut_voice ..).1
    · obtain ⟨k, hk, u, hu, he⟩ := ih _ _ w hw
      exact ⟨k, hk, u, List.mem_cons_of_mem _ hu, he⟩

theorem mixVoices_length (c : Cfg) (env : EnvRegs) (osc : OscRegs) (al : List Nat) (vs : List Voice) (i : Nat) (acc : NUM) :
    (mixVoices c env osc al i acc vs).2.length = vs.length := by
  induction vs generalizing i acc with
  | nil => rfl
  | cons v vs ih => simp [mixVoices, ih]

/-- The voice at a place after a frame comes from the voice at that place alone (R259). -/
theorem mixVoices_get (c : Cfg) (env : EnvRegs) (osc : OscRegs) (al : List Nat) (vs : List Voice) (i j : Nat) (acc : NUM)
    (v : Voice) (h : vs[j]? = some v) :
    (mixVoices c env osc al i acc vs).2[j]? =
      some (voiceOut c env osc (voiceNote al (i + j)) (voiceGate c.nm (voiceNote al (i + j)) v)).2 := by
  induction vs generalizing i j acc with
  | nil => simp at h
  | cons w vs ih =>
    cases j with
    | zero =>
      obtain rfl : w = v := by simpa using h
      simp [mixVoices]
    | succ j =>
      have hv : vs[j]? = some v := by simpa using h
      simp only [mixVoices, List.getElem?_cons_succ]
      rw [ih _ _ _ hv, show i + 1 + j = i + (j + 1) by omega]

/-- The increment of a time is never below 0 in a legal binary32 configuration (R220). -/
theorem envIncrement_nonneg {c : Cfg} {l : MathsLib} (hn : c.num = .binary32 l) (hfs : c.nm.lt NUM.zero c.fs = true)
    (hmin : c.nm.lt NUM.zero c.envMsMin = true) (hle : c.nm.le c.envMsMin c.envMsMax = true) (ms : NUM) :
    c.nm.lt (envIncrement c ms) NUM.zero = false := by
  have hm : c.nm = binary32 l := by simp [Cfg.nm, hn, numericsOf]
  rw [hm] at hfs hmin hle
  obtain ⟨_, hfs, _⟩ := (f32Lt_pos_iff _).1 hfs
  obtain ⟨hmn, hms, hm0⟩ := (f32Lt_pos_iff _).1 hmin
  have hmax : f32Neg c.envMsMax = false := by
    have h : f32Le c.envMsMin c.envMsMax = true := hle
    simp only [f32Le, Bool.and_eq_true, decide_eq_true_eq] at h
    by_contra hc
    have h1 : f32Key c.envMsMin = f32Mag c.envMsMin := by simp [f32Key, hms]
    have h2 : f32Key c.envMsMax ≤ 0 := by simp [f32Key, show f32Neg c.envMsMax = true by simpa using hc]
    omega
  have hclamp : f32IsNaN ((binary32 l).clamp ms c.envMsMin c.envMsMax) = true ∨
      f32Neg ((binary32 l).clamp ms c.envMsMin c.envMsMax) = false := by
    unfold Numerics.clamp
    split
    · exact .inr hms
    · next hlo =>
      split
      · exact .inr hmax
      · cases hx : f32IsNaN ms with
        | true => exact .inl rfl
        | false =>
          refine .inr ?_
          have h : ¬ f32Lt ms c.envMsMin = true := hlo
          simp only [f32Lt, hx, hmn, Bool.not_false, Bool.true_and, decide_eq_true_eq] at h
          by_contra hc
          have h1 : f32Key c.envMsMin = f32Mag c.envMsMin := by simp [f32Key, hms]
          have h2 : f32Key ms ≤ 0 := by simp [f32Key, show f32Neg ms = true by simpa using hc]
          omega
  have h1000 : f32Neg ((binary32 l).ofNat 1000) = false := by
    show f32Neg (f32OfRat 1000 1) = false
    decide +kernel
  have hone : f32Neg ((binary32 l).ofNat 1) = false := by rw [binary32_one]; decide
  rw [envIncrement, hm]
  refine (f32Lt_zero_iff _).2 ?_
  rcases f32Div_sign (.inr hone) (f32Mul_sign (f32Div_sign (.inr hfs) (.inr h1000)) hclamp) with h | h
  · exact .inl h
  · exact .inr (.inl h)

theorem voiceNote_mem {al : List Nat} {i k : Nat} (h : voiceNote al i = some k) : k ∈ al := List.mem_of_getElem? h

/-! ### Ring buffers -/

theorem wrapInt_lt (v : Int) {c : Nat} (h : 0 < c) : wrapInt v c < c := by
  unfold wrapInt
  have h1 := Int.emod_nonneg v (show (c : Int) ≠ 0 by omega)
  have h2 := Int.emod_lt_of_pos v (show (0 : Int) < c by omega)
  omega

@[simp] theorem wrapInt_natCast (n c : Nat) : wrapInt (n : Int) c = n % c := by
  unfold wrapInt
  rw [← Int.natCast_emod]
  rfl

/-- The settings of a ring buffer that a tick never touches. -/
def ringSettings (rb : RingBuf) : Bool × Bool × Interp × Nat × Nat := (rb.frozen, rb.rev, rb.interp, rb.frzS, rb.frzStart)

@[simp] theorem ringRead_settings (m : Numerics) (cap : Nat) (rb : RingBuf) :
    ringSettings (ringRead m cap rb).2 = ringSettings rb := rfl

@[simp] theorem ringTick_settings (m : Numerics) (cap : Nat) (v : NUM) (rb : RingBuf) :
    ringSettings (ringTick m cap v rb) = ringSettings rb := by
  have h1 : ringSettings (ringWrite cap v rb) = ringSettings rb := by unfold ringWrite; split <;> rfl
  have h2 : ∀ r, ringSettings (ringServo m r) = ringSettings r := by
    intro r; unfold ringServo; split
    · rfl
    · split <;> rfl
  have h3 : ∀ r, ringSettings (ringAdvance m cap r) = ringSettings r := by
    intro r; unfold ringAdvance; simp only; split <;> rfl
  rw [ringTick, h3, h2, h1]

theorem dlProcess_settings (m : Numerics) (cap : Nat) (topo : Topology) (fb mix x : NUM) (rb : RingBuf) :
    ringSettings (dlProcess m cap topo fb mix x rb).2 = ringSettings rb := by
  simp [dlProcess]

theorem ringServo_frame (m : Numerics) (rb : RingBuf) :
    (ringServo m rb).buf = rb.buf ∧ (ringServo m rb).w = rb.w ∧ (ringServo m rb).goal = rb.goal ∧
    stepLegal m (ringServo m rb).step := by
  unfold ringServo
  split
  · exact ⟨rfl, rfl, rfl, .inr (.inl rfl)⟩
  · split
    · exact ⟨rfl, rfl, rfl, .inr (.inr rfl)⟩
    · exact ⟨rfl, rfl, rfl, .inl rfl⟩

theorem ringAdvance_frame (m : Numerics) (cap : Nat) (rb : RingBuf) :
    (ringAdvance m cap rb).buf = rb.buf ∧ (ringAdvance m cap rb).w = rb.w ∧ (ringAdvance m cap rb).step = rb.step ∧
    (ringAdvance m cap rb).goal = rb.goal ∧ (ringAdvance m cap rb).act = rb.act := by
  unfold ringAdvance
  simp only
  split <;> exact ⟨rfl, rfl, rfl, rfl, rfl⟩

/-- What a delay line's sample leaves in its memory: nothing while frozen, else the value x + d·fb at the write pointer,
which moves on by one (R329, R336). -/
theorem dlProcess_memory (m : Numerics) (cap : Nat) (topo : Topology) (fb mix x : NUM) (rb : RingBuf) :
    let r := dlProcess m cap topo fb mix x rb
    r.2.buf = (if rb.frozen then rb.buf
      else rb.buf.write (rb.w % cap) (m.add x (m.mul (ringRead m cap rb).1 fb))) ∧
    r.2.w = (if rb.frozen then rb.w else (rb.w + 1) % cap) := by
  have h : ∀ (v : NUM), (ringTick m cap v (ringRead m cap rb).2).buf = (ringWrite cap v (ringRead m cap rb).2).buf ∧
      (ringTick m cap v (ringRead m cap rb).2).w = (ringWrite cap v (ringRead m cap rb).2).w := fun v =>
    ⟨(ringAdvance_frame ..).1.trans (ringServo_frame ..).1, (ringAdvance_frame ..).2.1.trans (ringServo_frame ..).2.1⟩
  have hw1 : wrapInt ((rb.w : Int) + 1) cap = (rb.w + 1) % cap := by
    rw [← wrapInt_natCast (rb.w + 1) cap]; rfl
  intro r
  have hr : r.2 = ringTick m cap (m.add x (m.mul (ringRead m cap rb).1 fb)) (ringRead m cap rb).2 := rfl
  rw [hr, (h _).1, (h _).2]
  by_cases hz : rb.frozen
  · have : (ringRead m cap rb).2.frozen = true := hz
    rw [ringWrite, if_pos this, if_pos hz, if_pos hz]
    exact ⟨rfl, rfl⟩
  · have : ¬ (ringRead m cap rb).2.frozen = true := hz
    rw [ringWrite, if_neg this, if_neg hz, if_neg hz, ← hw1, ← wrapInt_natCast]
    exact ⟨rfl, rfl⟩

/-- Any ring buffer whose pointers are elements stays so through a sample. -/
theorem dlProcess_ringOk {m : Numerics} {cap : Nat} {rb : RingBuf} (hc : 0 < cap) (h : RingOk m cap rb)
    (topo : Topology) (fb mix x : NUM) :
    RingOk m cap (dlProcess m cap topo fb mix x rb).2 := by
  have hm := dlProcess_memory m cap topo fb mix x rb
  have hs := dlProcess_settings m cap topo fb mix x rb
  simp only [ringSettings, Prod.mk.injEq] at hs
  refine ⟨?_, ?_, ?_, ?_⟩
  · rw [hm.2]; split
    · exact h.write_pointer
    · exact Nat.mod_lt _ hc
  · rw [hs.2.2.2.2]; exact h.window_start
  · rw [hm.1]; split
    · exact h.memory
    · exact Memory.wf_write _ (Nat.mod_lt _ hc) h.memory
  · show stepLegal m (ringTick m cap _ _).step
    rw [ringTick, (ringAdvance_frame ..).2.2.1]
    exact (ringServo_frame ..).2.2.2

theorem ringFreeze_ringOk {m : Numerics} {cap : Nat} {rb : RingBuf} (hc : 0 < cap) (h : RingOk m cap rb) :
    RingOk m cap (ringFreeze m cap rb) := by
  unfold ringFreeze
  split
  · exact h
  · exact ⟨h.write_pointer, wrapInt_lt _ hc, h.memory, h.step⟩

theorem ringUnfreeze_ringOk {m : Numerics} {cap : Nat} {rb : RingBuf} (h : RingOk m cap rb) :
    RingOk m cap (ringUnfreeze m cap rb) := by
  unfold ringUnfreeze
  split
  · exact ⟨h.write_pointer, h.window_start, h.memory, h.step⟩
  · exact h

theorem ringSetReverse_ringOk {m : Numerics} {cap : Nat} {rb : RingBuf} (h : RingOk m cap rb) (b : Bool) :
    RingOk m cap (ringSetReverse m cap b rb) := by
  unfold ringSetReverse
  split <;> exact ⟨h.write_pointer, h.window_start, h.memory, h.step⟩

/-- Freezing, thawing and reversing leave the memory and the write pointer alone (R331 to R333). -/
theorem ringFreeze_memory (m : Numerics) (cap : Nat) (rb : RingBuf) :
    (ringFreeze m cap rb).buf = rb.buf ∧ (ringFreeze m cap rb).w = rb.w := by
  unfold ringFreeze; split <;> exact ⟨rfl, rfl⟩

theorem ringUnfreeze_memory (m : Numerics) (cap : Nat) (rb : RingBuf) :
    (ringUnfreeze m cap rb).buf = rb.buf ∧ (ringUnfreeze m cap rb).w = rb.w := by
  unfold ringUnfreeze; split <;> exact ⟨rfl, rfl⟩

theorem ringSetReverse_memory (m : Numerics) (cap : Nat) (b : Bool) (rb : RingBuf) :
    (ringSetReverse m cap b rb).buf = rb.buf ∧ (ringSetReverse m cap b rb).w = rb.w := by
  unfold ringSetReverse; split <;> exact ⟨rfl, rfl⟩

/-! ### The reverb -/

theorem setStageGains_length (m : Numerics) (rt60 : NUM) (delays : List NUM) (sts : List Stage) :
    (setStageGains m rt60 delays sts).length = sts.length := by
  induction delays generalizing sts with
  | nil => cases sts <;> rfl
  | cons d delays ih => cases sts with
    | nil => rfl
    | cons st sts => simp [setStageGains, ih]

/-- A change of the decay time changes gains only: the stages keep their ring buffers (R381). -/
theorem setStageGains_rings (m : Numerics) (rt60 : NUM) (delays : List NUM) (sts : List Stage) :
    (setStageGains m rt60 delays sts).map (fun st => st.rb) = sts.map (fun st => st.rb) := by
  induction delays generalizing sts with
  | nil => cases sts <;> rfl
  | cons d delays ih => cases sts with
    | nil => rfl
    | cons st sts => simp [setStageGains, ih]

theorem runStages_length (m : Numerics) (cap : Nat) (x : NUM) (sts : List Stage) :
    (runStages m cap x sts).2.length = sts.length := by
  induction sts generalizing x with
  | nil => rfl
  | cons st sts ih => simp [runStages, ih]

/-- A stage after a sample is the stage before it with its own input run through its delay line. -/
theorem runStages_get (m : Numerics) (cap : Nat) (x : NUM) (sts : List Stage) (j : Nat) (st' : Stage)
    (h : (runStages m cap x sts).2[j]? = some st') :
    ∃ st s, sts[j]? = some st ∧ st' = { st with rb := (dlProcess m cap .allpass st.g NUM.zero s st.rb).2 } := by
  induction sts generalizing x j with
  | nil => simp [runStages] at h
  | cons st sts ih =>
    cases j with
    | zero => exact ⟨st, x, rfl, by simpa [runStages] using h.symm⟩
    | succ j =>
      simp only [runStages, List.getElem?_cons_succ] at h
      obtain ⟨st0, s, h1, h2⟩ := ih _ _ h
      exact ⟨st0, s, by simpa using h1, h2⟩

theorem runStages_mem (m : Numerics) (cap : Nat) (x : NUM) (sts : List Stage) (st' : Stage)
    (h : st' ∈ (runStages m cap x sts).2) :
    ∃ st ∈ sts, ∃ s, st' = { st with rb := (dlProcess m cap .allpass st.g NUM.zero s st.rb).2 } := by
  obtain ⟨j, hj⟩ := List.getElem?_of_mem h
  obtain ⟨st, s, h1, h2⟩ := runStages_get m cap x sts j st' hj
  exact ⟨st, List.mem_of_getElem? h1, s, h2⟩

theorem dlProcess_stageOk {m : Numerics} {cap : Nat} {st : Stage} (hc : 0 < cap) (h : StageOk m cap st) (fb s : NUM) :
    StageOk m cap { st with rb := (dlProcess m cap .allpass fb NUM.zero s st.rb).2 } := by
  have hs := dlProcess_settings m cap .allpass fb NUM.zero s st.rb
  simp only [ringSettings, Prod.mk.injEq] at hs
  exact ⟨dlProcess_ringOk hc h.ring .allpass fb NUM.zero s, hs.1.trans h.running, hs.2.1.trans h.forward, hs.2.2.1.trans h.linear⟩

/-- XFADE of the binary32 NUM at its two ends: the gains are exactly 1 and 0 (R340). -/
theorem xfade_ends (l : MathsLib) (dry wet : NUM) :
    xfade (binary32 l) dry wet NUM.zero = f32Add (f32Mul 0x3F800000#32 dry) (f32Mul NUM.zero wet) ∧
    xfade (binary32 l) dry wet 0x3F800000#32 = f32Add (f32Mul NUM.zero dry) (f32Mul 0x3F800000#32 wet) := by
  have c0 : (binary32 l).clamp NUM.zero ((binary32 l).ofNat 0) ((binary32 l).ofNat 1) = NUM.zero := by
    cases l <;> decide +kernel
  have c1 : (binary32 l).clamp 0x3F800000#32 ((binary32 l).ofNat 0) ((binary32 l).ofNat 1) = 0x3F800000#32 := by
    cases l <;> decide +kernel
  have s1 : (binary32 l).sqrt ((binary32 l).sub ((binary32 l).ofNat 1) NUM.zero) = 0x3F800000#32 := by
    cases l <;> decide +kernel
  have s0 : (binary32 l).sqrt ((binary32 l).sub ((binary32 l).ofNat 1) 0x3F800000#32) = NUM.zero := by
    cases l <;> decide +kernel
  have r1 : (binary32 l).sqrt 0x3F800000#32 = 0x3F800000#32 := by cases l <;> decide +kernel
  have r0 : (binary32 l).sqrt NUM.zero = NUM.zero := by cases l <;> decide +kernel
  constructor
  · simp only [xfade, c0, s1, r0]; rfl
  · simp only [xfade, c1, s0, r1]; rfl

/-! ### The frame -/

/-- The registers of the parameters are no business of a frame (R465): it moves the voices, the taps and the ring buffers. -/
theorem frame_registers (c : Cfg) (e : Engine) :
    (frame c e).2.alloc = e.alloc ∧ (frame c e).2.env = e.env ∧ (frame c e).2.osc = e.osc ∧
    (frame c e).2.dl.fb = e.dl.fb ∧ (frame c e).2.dl.mix = e.dl.mix ∧ (frame c e).2.dl.topo = e.dl.topo ∧
    (frame c e).2.rv.rt60 = e.rv.rt60 ∧ (frame c e).2.rv.mix = e.rv.mix := ⟨rfl, rfl, rfl, rfl, rfl, rfl, rfl, rfl⟩

/-- A frame keeps a sound engine sound. -/
theorem frame_engineOk {c : Cfg} {e : Engine} (hm : 0 < cMain c) (hr : 0 < cRev c) (h : EngineOk c e) :
    EngineOk c (frame c e).2 := by
  refine ⟨⟨h.bank.held, h.bank.distinct, h.bank.notes, ?_, ?_⟩, h.spacing, dlProcess_ringOk hm h.delay e.dl.topo e.dl.fb e.dl.mix _, ?_, ?_⟩
  · exact (mixVoices_length ..).trans h.bank.count
  · intro v hv k hk
    obtain ⟨i, hi, -⟩ := mixVoices_mem _ _ _ _ _ _ _ v hv
    exact h.bank.notes k (voiceNote_mem (hi.symm.trans hk))
  · exact (runStages_length ..).trans h.stages
  · intro st' hst
    obtain ⟨st, hmem, s, rfl⟩ := runStages_mem _ _ _ _ _ hst
    exact dlProcess_stageOk hr (h.stage st hmem) ..

theorem frames_engineOk {c : Cfg} (hm : 0 < cMain c) (hr : 0 < cRev c) (b : Nat) {e : Engine} (h : EngineOk c e) :
    EngineOk c (frames c b e).2 := by
  induction b generalizing e with
  | zero => exact h
  | succ b ih => exact ih (frame_engineOk hm hr h)

end Sys2Proof.Machine
end

