-- ==== Sys2Proof/Laws/Pointers.lean ====
section
/-! SUPPORT. The ring buffer's pointers under the binary32 instance: `wrap` lands in [0, C), a clamp in [4, C − 4], and every operation on a ring buffer keeps both (R45, R50, R323). -/

namespace Sys2Proof.Machine

open Sys2Proof.Safety

/-- wrap of a finite binary32 value of [−C, 2C) lies in [0, C). -/
theorem wrap_below (l : MathsLib) {k : Nat} (hk0 : 0 < k) (hk : k < 2 ^ 24) {v : NUM} (hv : f32IsFinite v = true)
    (hlo : -((k : Int) * 2 ^ 149) ≤ f32Int v) (hhi : f32Int v ≤ (2 * (k : Int) - 2) * 2 ^ 149) :
    pointsBelow (binary32 l) ((binary32 l).ofNat k) ((binary32 l).wrap v ((binary32 l).ofNat k)) := by
  obtain ⟨hcf, hci⟩ := f32OfRat_nat hk
  have hcn := (f32IsFinite_not hcf).1
  have hvn := (f32IsFinite_not hv).1
  have hU : (0 : Int) < 2 ^ 149 := by positivity
  have hz0 : f32Int NUM.zero = 0 := by decide
  set c : NUM := f32OfRat (k : Int) 1 with hc
  -- the domain test
  have hd1 : f32Le (f32Negate c) v = true := by
    have hn : f32IsNaN (f32Negate c) = false := by
      have := f32IsFinite_negate (x := c); rw [hcf] at this; exact (f32IsFinite_not this).1
    rw [f32Le_iff hn hvn, f32Int_negate, hci]; exact hlo
  have hd2 : f32Lt v (f32Mul (f32OfRat 2 1) c) = true := by
    have h2f : f32IsFinite (f32OfRat 2 1) = true := (f32OfRat_nat (k := 2) (by decide)).1
    have h2i : f32Int (f32OfRat 2 1) = 2 * 2 ^ 149 := (f32OfRat_nat (k := 2) (by decide)).2
    obtain ⟨mag, hu, hm, h0⟩ := f32UnitsOfMag_nat hk 127
    have hm : mag < (127 + 25) * 2 ^ 23 := hm.resolve_left (by omega)
    have h2s : f32Neg (f32OfRat 2 1) = false := by decide
    have hcs : f32Neg c = false := by
      by_contra h
      have h : f32Neg c = true := by simpa using h
      have : f32Int c ≤ 0 := by simp [f32Int, h]
      rw [hci] at this
      have : (0 : Int) < (k : Int) * 2 ^ 149 := by positivity
      omega
    have hcu : f32Units c = k * 2 ^ 149 := by
      have : f32Int c = (f32Units c : Int) := by simp [f32Int, hcs]
      rw [hci] at this; exact_mod_cast this.symm
    have h2u : f32Units (f32OfRat 2 1) = 2 * 2 ^ 149 := by
      have : f32Int (f32OfRat 2 1) = (f32Units (f32OfRat 2 1) : Int) := by simp [f32Int, h2s]
      rw [this] at h2i; exact_mod_cast h2i
    obtain ⟨h2n, h2inf⟩ := f32IsFinite_not h2f
    have hcinf := (f32IsFinite_not hcf).2
    have hmul : f32Mul (f32OfRat 2 1) c = f32Pack false mag := by
      have h2n : f32IsNaN (f32OfRat 2 1) = false := h2n
      have h2inf : f32IsInf (f32OfRat 2 1) = false := h2inf
      simp only [f32Mul, h2n, hcn, h2inf, hcinf, Bool.or_self, Bool.false_eq_true, if_false, h2s, hcs, h2u, hcu]
      have : 2 * 2 ^ 149 * (k * 2 ^ 149) = f32UnitsOfMag mag * 2 ^ 149 := by rw [hu]; ring
      rw [this, f32RoundMag_exact (by show mag ≤ 0x7F800000; omega) (by positivity)]
      rfl
    have hmi : mag ≤ f32InfMag := by show mag ≤ 0x7F800000; omega
    rw [hmul, f32Lt_iff hvn (f32IsNaN_pack _ hmi), f32Int_pack _ (by omega), hu]
    rw [if_neg (by decide)]
    have : ((k * 2 ^ (127 + 23) : Nat) : Int) = (2 * k) * 2 ^ 149 := by push_cast; ring
    rw [this]
    have : (2 * (k : Int) - 2) * 2 ^ 149 < 2 * k * 2 ^ 149 := by nlinarith
    omega
  have hx : ∀ x, x = (binary32 l).wrapOnce v c → f32IsFinite x = true ∧ 0 ≤ f32Int x ∧ f32Int x ≤ f32Int c := by
    have fin : ∀ x, f32IsNaN x = false → f32Int x ≤ f32Int c → 0 ≤ f32Int x → f32IsFinite x = true := by
      intro x hn h1 h0
      have hk' := (f32Key_le_iff x c).2 h1
      have h0' := (f32Key_le_iff NUM.zero x).2 (by rw [hz0]; exact h0)
      have hm : f32Mag c < f32InfMag := by simpa [f32IsFinite] using hcf
      have hkc : f32Key c ≤ f32Mag c := by cases hs : f32Neg c <;> simp [f32Key, hs]
      have hm0 : f32Mag x ≤ f32Mag c := by
        simp only [f32Key_zero] at h0'
        cases hs : f32Neg x
        · have : f32Key x = f32Mag x := by simp [f32Key, hs]
          omega
        · have : f32Key x = -(f32Mag x : Int) := by simp [f32Key, hs]
          omega
      simp only [f32IsFinite]; exact decide_eq_true (by omega)
    rintro x rfl
    simp only [Numerics.wrapOnce]
    split
    · next h =>
      have h : f32Lt v NUM.zero = true := h
      rw [f32Lt_iff hvn (by rfl), hz0] at h
      have hn := f32Add_notNaN hv hcf
      have h1 := f32Add_le hv hcf hcn (by omega)
      have h0 := le_f32Add hv hcf (z := NUM.zero) rfl (by rw [hz0, hci]; omega)
      rw [hz0] at h0
      exact ⟨fin _ hn h1 h0, h0, h1⟩
    · next h =>
      have h : ¬ f32Lt v NUM.zero = true := h
      rw [f32Lt_iff hvn (by rfl), hz0] at h
      split
      · next h' =>
        have h' : f32Le c v = true := h'
        rw [f32Le_iff hcn hvn] at h'
        have hnf : f32IsFinite (f32Negate c) = true := by rw [f32IsFinite_negate]; exact hcf
        have hni : f32Int (f32Negate c) = - f32Int c := f32Int_negate c
        have hn := f32Add_notNaN hv hnf
        have h1 := f32Add_le hv hnf hcn (by rw [hni, hci]; nlinarith)
        have h0 := le_f32Add hv hnf (z := NUM.zero) rfl (by rw [hz0, hni]; omega)
        rw [hz0] at h0
        exact ⟨fin _ hn h1 h0, h0, h1⟩
      · next h' =>
        have h' : ¬ f32Le c v = true := h'
        rw [f32Le_iff hcn hvn] at h'
        exact ⟨hv, by omega, by omega⟩
  have hwrap : (binary32 l).wrap v c = if f32Le c ((binary32 l).wrapOnce v c) = true then f32Sub ((binary32 l).wrapOnce v c) c else (binary32 l).wrapOnce v c := by
    unfold Numerics.wrap
    have : ((binary32 l).le ((binary32 l).neg c) v && (binary32 l).lt v ((binary32 l).mul ((binary32 l).ofNat 2) c)) = true := by
      show (f32Le (f32Negate c) v && f32Lt v (f32Mul (f32OfRat 2 1) c)) = true
      rw [hd1, hd2]; rfl
    rw [if_pos this]; rfl
  obtain ⟨hxf, hx0, hxc⟩ := hx _ rfl
  have hxn := (f32IsFinite_not hxf).1
  show f32Le NUM.zero ((binary32 l).wrap v c) = true ∧ f32Lt ((binary32 l).wrap v c) c = true
  rw [hwrap]
  split
  · next h =>
    rw [f32Le_iff hcn hxn] at h
    have he : f32Int ((binary32 l).wrapOnce v c) = f32Int c := by omega
    have hnf : f32IsFinite (f32Negate c) = true := by rw [f32IsFinite_negate]; exact hcf
    have hni : f32Int (f32Negate c) = - f32Int c := f32Int_negate c
    have hn : f32IsNaN (f32Sub ((binary32 l).wrapOnce v c) c) = false := f32Add_notNaN hxf hnf
    have h1 := f32Add_le hxf hnf (z := NUM.zero) rfl (by rw [hni, hz0]; omega)
    have h0 := le_f32Add hxf hnf (z := NUM.zero) rfl (by rw [hni, hz0]; omega)
    rw [hz0] at h1 h0
    rw [f32Le_iff (by rfl) hn, f32Lt_iff hn hcn, hz0, hci]
    refine ⟨h0, lt_of_le_of_lt h1 (by positivity)⟩
  · next h =>
    rw [f32Le_iff hcn hxn] at h
    rw [f32Le_iff (by rfl) hxn, f32Lt_iff hxn hcn, hz0]
    exact ⟨hx0, by omega⟩


/-! ### Values of a range -/

/-- A value that is no NaN and lies within ±2^25 is finite. -/
theorem f32IsFinite_of_bounds {x : NUM} (hn : f32IsNaN x = false) (h1 : -(2 ^ 25 * 2 ^ 149) ≤ f32Int x)
    (h2 : f32Int x ≤ 2 ^ 25 * 2 ^ 149) : f32IsFinite x = true := by
  by_contra hc
  have hm : f32Mag x = f32InfMag := by
    have a := f32Mag_le_inf hn
    have b : ¬ f32Mag x < f32InfMag := by simpa [f32IsFinite] using hc
    omega
  have hu : f32UnitsOfMag f32InfMag = 2 ^ 277 := by decide +kernel
  unfold f32Int f32Units at h1 h2
  rw [hm, hu] at h1 h2
  cases hs : f32Neg x
  · rw [if_neg (by simp [hs])] at h2
    exact absurd h2 (by decide +kernel)
  · rw [if_pos hs] at h1
    exact absurd h1 (by decide +kernel)

theorem f32Le_notNaN {x y : NUM} (h : f32Le x y = true) : f32IsNaN x = false ∧ f32IsNaN y = false := by
  simp only [f32Le, Bool.and_eq_true, Bool.not_eq_true'] at h
  exact h.1

theorem f32Lt_notNaN {x y : NUM} (h : f32Lt x y = true) : f32IsNaN x = false ∧ f32IsNaN y = false := by
  simp only [f32Lt, Bool.and_eq_true, Bool.not_eq_true'] at h
  exact h.1

/-- A value of [0, k) in units. -/
theorem pointsBelow_iff (l : MathsLib) {k : Nat} (hk : k < 2 ^ 24) (x : NUM) :
    pointsBelow (binary32 l) ((binary32 l).ofNat k) x ↔ f32IsFinite x = true ∧ 0 ≤ f32Int x ∧ f32Int x < (k : Int) * 2 ^ 149 := by
  obtain ⟨hcf, hci⟩ := f32OfRat_nat hk
  have hcn := (f32IsFinite_not hcf).1
  show f32Le NUM.zero x = true ∧ f32Lt x (f32OfRat (k : Int) 1) = true ↔ _
  constructor
  · rintro ⟨h1, h2⟩
    have hn := (f32Le_notNaN h1).2
    rw [f32Le_iff (by rfl) hn, show f32Int NUM.zero = 0 by decide] at h1
    rw [f32Lt_iff hn hcn, hci] at h2
    refine ⟨f32IsFinite_of_bounds hn (le_trans (by norm_num) h1) ?_, h1, h2⟩
    have : (k : Int) * 2 ^ 149 ≤ 2 ^ 25 * 2 ^ 149 := by
      have : (k : Int) ≤ 2 ^ 25 := by omega
      exact mul_le_mul_of_nonneg_right this (by positivity)
    omega
  · rintro ⟨hf, h1, h2⟩
    have hn := (f32IsFinite_not hf).1
    rw [f32Le_iff (by rfl) hn, show f32Int NUM.zero = 0 by decide, f32Lt_iff hn hcn, hci]
    exact ⟨h1, h2⟩

/-- A value of [4, C − 4] in units. -/
theorem inside_delay_iff (l : MathsLib) {k : Nat} (hk4 : 4 ≤ k) (hk : k < 2 ^ 24) (x : NUM) :
    inside (binary32 l) ((binary32 l).ofNat 4) (maxDelay (binary32 l) k) x ↔
      f32IsFinite x = true ∧ 4 * 2 ^ 149 ≤ f32Int x ∧ f32Int x ≤ ((k : Int) - 4) * 2 ^ 149 := by
  obtain ⟨hcf, hci⟩ := f32OfRat_nat (show k - 4 < 2 ^ 24 by omega)
  have hcast : ((k - 4 : Nat) : Int) = (k : Int) - 4 := by omega
  rw [hcast] at hcf hci
  have h4f : f32IsFinite (f32OfRat 4 1) = true := (f32OfRat_nat (k := 4) (by decide)).1
  have h4i : f32Int (f32OfRat 4 1) = 4 * 2 ^ 149 := (f32OfRat_nat (k := 4) (by decide)).2
  have hcn := (f32IsFinite_not hcf).1
  have h4n := (f32IsFinite_not h4f).1
  show f32Le (f32OfRat 4 1) x = true ∧ f32Le x (f32OfRat ((k : Int) - 4) 1) = true ↔ _
  constructor
  · rintro ⟨h1, h2⟩
    have hn := (f32Le_notNaN h1).2
    rw [f32Le_iff h4n hn, h4i] at h1
    rw [f32Le_iff hn hcn, hci] at h2
    refine ⟨f32IsFinite_of_bounds hn (le_trans (by norm_num) h1) ?_, h1, h2⟩
    have : ((k : Int) - 4) * 2 ^ 149 ≤ 2 ^ 25 * 2 ^ 149 := mul_le_mul_of_nonneg_right (by omega) (by positivity)
    omega
  · rintro ⟨hf, h1, h2⟩
    have hn := (f32IsFinite_not hf).1
    rw [f32Le_iff h4n hn, h4i, f32Le_iff hn hcn, hci]
    exact ⟨h1, h2⟩

/-- A clamp of a value that is no NaN lands inside. -/
theorem clampDelay_inside (l : MathsLib) {k : Nat} (hk16 : 16 ≤ k) (hk : k < 2 ^ 24) {g : NUM} (hg : f32IsNaN g = false) :
    inside (binary32 l) ((binary32 l).ofNat 4) (maxDelay (binary32 l) k) (clampDelay (binary32 l) k g) := by
  have hin := inside_delay_iff l (show 4 ≤ k by omega) hk
  obtain ⟨hcf, hci⟩ := f32OfRat_nat (show k - 4 < 2 ^ 24 by omega)
  have hcast : ((k - 4 : Nat) : Int) = (k : Int) - 4 := by omega
  rw [hcast] at hcf hci
  have h4f : f32IsFinite (f32OfRat 4 1) = true := (f32OfRat_nat (k := 4) (by decide)).1
  have h4i : f32Int (f32OfRat 4 1) = 4 * 2 ^ 149 := (f32OfRat_nat (k := 4) (by decide)).2
  have hcn := (f32IsFinite_not hcf).1
  have h4n := (f32IsFinite_not h4f).1
  have h44 : (4 : Int) * 2 ^ 149 ≤ ((k : Int) - 4) * 2 ^ 149 := mul_le_mul_of_nonneg_right (by omega) (by positivity)
  unfold clampDelay Numerics.clamp
  split
  · exact (hin _).2 ⟨h4f, h4i.ge, h4i.le.trans h44⟩
  · next h1 =>
    split
    · exact (hin _).2 ⟨hcf, h44.trans hci.ge, hci.le⟩
    · next h2 =>
      have h1 : ¬ f32Lt g (f32OfRat 4 1) = true := h1
      have h2 : ¬ f32Lt (f32OfRat ((k : Int) - 4) 1) g = true := h2
      rw [f32Lt_iff hg h4n] at h1
      rw [f32Lt_iff hcn hg] at h2
      exact ⟨(f32Le_iff h4n hg).2 (by omega), (f32Le_iff hg hcn).2 (by omega)⟩

/-! ### The ring buffer's operations keep the pointers inside -/

theorem readBehind_below (l : MathsLib) {k : Nat} (hk16 : 16 ≤ k) (hk : k < 2 ^ 24) {rb : RingBuf} (hw : rb.w < k) {a : NUM}
    (ha : inside (binary32 l) ((binary32 l).ofNat 4) (maxDelay (binary32 l) k) a) :
    pointsBelow (binary32 l) ((binary32 l).ofNat k) (readBehind (binary32 l) k rb a) := by
  obtain ⟨haf, h4, hD⟩ := (inside_delay_iff l (by omega) hk a).1 ha
  obtain ⟨hwf, hwi⟩ := f32OfRat_nat (show rb.w < 2 ^ 24 by omega)
  obtain ⟨hkf, hki⟩ := f32OfRat_nat hk
  have hkn := (f32IsFinite_not hkf).1
  have hnf : f32IsFinite (f32Negate a) = true := by rw [f32IsFinite_negate]; exact haf
  have hni := f32Int_negate a
  have hkneg : f32IsFinite (f32Negate (f32OfRat (k : Int) 1)) = true := by rw [f32IsFinite_negate]; exact hkf
  have hU : (0 : Int) < 2 ^ 149 := by positivity
  have hwk : (rb.w : Int) * 2 ^ 149 ≤ (k : Int) * 2 ^ 149 := mul_le_mul_of_nonneg_right (by omega) (by positivity)
  have hw0 : (0 : Int) ≤ (rb.w : Int) * 2 ^ 149 := Int.mul_nonneg (Int.natCast_nonneg _) hU.le
  have hn := f32Add_notNaN hwf hnf
  have s1 : f32Int (f32OfRat (rb.w : Int) 1) + f32Int (f32Negate a) ≤ f32Int (f32OfRat (k : Int) 1) := by
    rw [hni, hwi, hki]; omega
  have s0 : f32Int (f32Negate (f32OfRat (k : Int) 1)) ≤ f32Int (f32OfRat (rb.w : Int) 1) + f32Int (f32Negate a) := by
    rw [hni, hwi, f32Int_negate, hki]; linarith
  have h1 := f32Add_le hwf hnf hkn s1
  have h0 := le_f32Add hwf hnf (f32IsFinite_not hkneg).1 s0
  rw [hki] at h1
  rw [f32Int_negate, hki] at h0
  have hb : (k : Int) * 2 ^ 149 ≤ 2 ^ 25 * 2 ^ 149 := mul_le_mul_of_nonneg_right (by omega) (by positivity)
  have h2 : (k : Int) * 2 ^ 149 ≤ (2 * (k : Int) - 2) * 2 ^ 149 := mul_le_mul_of_nonneg_right (by omega) (by positivity)
  have hf : f32IsFinite (f32Add (f32OfRat (rb.w : Int) 1) (f32Negate a)) = true :=
    f32IsFinite_of_bounds hn (by omega) (by omega)
  exact wrap_below l (by omega) hk hf h0 (h1.trans h2)

/-- The value 2(k − 1) is a binary32 value. -/
theorem double_pred {k : Nat} (hk0 : 0 < k) (hk : k < 2 ^ 24) :
    ∃ y : NUM, f32IsNaN y = false ∧ f32Int y = (2 * (k : Int) - 2) * 2 ^ 149 := by
  obtain ⟨mag, hu, hm, h0⟩ := f32UnitsOfMag_nat (show k - 1 < 2 ^ 24 by omega) 127
  have hi : mag ≤ f32InfMag := by
    show mag ≤ 0x7F800000
    rcases hm with h | h
    · rw [h0 h]; omega
    · omega
  refine ⟨f32Pack false mag, f32IsNaN_pack _ hi, ?_⟩
  rw [f32Int_pack _ (lt_of_le_of_lt hi (by decide)), if_neg (by decide), hu]
  have : ((k - 1 : Nat) : Int) = (k : Int) - 1 := by omega
  push_cast [this]; ring

/-- One servo step from inside [0, S) stays inside after `wrap`, for S of at least 4. -/
theorem wrap_step_below (l : MathsLib) {k : Nat} (hk4 : 4 ≤ k) (hk : k < 2 ^ 24) {r s : NUM}
    (hr : pointsBelow (binary32 l) ((binary32 l).ofNat k) r) (hs : f32IsFinite s = true)
    (h1 : -(2 * 2 ^ 149) ≤ f32Int s) (h2 : f32Int s ≤ 2 * 2 ^ 149) :
    pointsBelow (binary32 l) ((binary32 l).ofNat k) ((binary32 l).wrap ((binary32 l).add r s) ((binary32 l).ofNat k)) := by
  obtain ⟨hrf, hr0, hrk⟩ := (pointsBelow_iff l hk r).1 hr
  obtain ⟨y, hyn, hyi⟩ := double_pred (show 0 < k by omega) hk
  have h2f : f32IsFinite (f32OfRat 2 1) = true := (f32OfRat_nat (k := 2) (by decide)).1
  have h2i : f32Int (f32OfRat 2 1) = 2 * 2 ^ 149 := (f32OfRat_nat (k := 2) (by decide)).2
  have hnf : f32IsFinite (f32Negate (f32OfRat 2 1)) = true := by rw [f32IsFinite_negate]; exact h2f
  have hn := f32Add_notNaN hrf hs
  have hkb : (4 : Int) * 2 ^ 149 ≤ (k : Int) * 2 ^ 149 := mul_le_mul_of_nonneg_right (by omega) (by positivity)
  have e2 : (2 * (k : Int) - 2) * 2 ^ 149 = (k : Int) * 2 ^ 149 + (k : Int) * 2 ^ 149 - 2 * 2 ^ 149 := by ring
  have hu := f32Add_le hrf hs hyn (by rw [hyi, e2]; omega)
  have hl := le_f32Add hrf hs (z := f32Negate (f32OfRat 2 1)) (f32IsFinite_not hnf).1 (by rw [f32Int_negate, h2i]; omega)
  rw [hyi] at hu
  rw [f32Int_negate, h2i] at hl
  have hb : (2 * (k : Int) - 2) * 2 ^ 149 ≤ 2 ^ 25 * 2 ^ 149 := mul_le_mul_of_nonneg_right (by omega) (by positivity)
  have hf : f32IsFinite (f32Add r s) = true := f32IsFinite_of_bounds hn (by omega) (by omega)
  have hlk : -((k : Int) * 2 ^ 149) ≤ f32Int (f32Add r s) := by omega
  exact wrap_below l (by omega) hk hf hlk hu

/-- The servo's steps as values. -/
theorem step_bounds (l : MathsLib) {x : NUM} (h : stepLegal (binary32 l) x) :
    f32IsFinite x = true ∧ 0 ≤ f32Int x ∧ f32Int x ≤ 2 * 2 ^ 149 := by
  rcases h with rfl | rfl | rfl
  · show f32IsFinite (f32OfRat 1 2) = true ∧ 0 ≤ f32Int (f32OfRat 1 2) ∧ f32Int (f32OfRat 1 2) ≤ _; decide +kernel
  · show f32IsFinite (f32OfRat 1 1) = true ∧ 0 ≤ f32Int (f32OfRat 1 1) ∧ f32Int (f32OfRat 1 1) ≤ _; decide +kernel
  · show f32IsFinite (f32OfRat 3 2) = true ∧ 0 ≤ f32Int (f32OfRat 3 2) ∧ f32Int (f32OfRat 3 2) ≤ _; decide +kernel

theorem ringAdvance_pointers (l : MathsLib) {k : Nat} (hk16 : 16 ≤ k) (hk : k < 2 ^ 24) {rb : RingBuf}
    (hst : rb.frzStart < k) (hstep : stepLegal (binary32 l) rb.step) (h : RingPointers (binary32 l) k rb) :
    RingPointers (binary32 l) k (ringAdvance (binary32 l) k rb) := by
  obtain ⟨hsf, hs0, hs2⟩ := step_bounds l hstep
  have hs : ∃ s, s = (if rb.rev then (binary32 l).neg rb.step else rb.step) ∧ f32IsFinite s = true ∧
      -(2 * 2 ^ 149) ≤ f32Int s ∧ f32Int s ≤ 2 * 2 ^ 149 := by
    cases rb.rev
    · exact ⟨_, rfl, hsf, by show _ ≤ f32Int rb.step; omega, hs2⟩
    · refine ⟨_, rfl, (f32IsFinite_negate (x := rb.step)).trans hsf, ?_, ?_⟩
      · show _ ≤ f32Int (f32Negate rb.step); rw [f32Int_negate]; omega
      · show f32Int (f32Negate rb.step) ≤ _; rw [f32Int_negate]; omega
  obtain ⟨s, hse, hsf, hs1, hs2⟩ := hs
  unfold ringAdvance
  simp only
  rw [← hse]
  by_cases hz : rb.frozen = true
  · rw [if_pos hz]
    obtain ⟨hw4, hwk⟩ := h.window hz
    have hoff := wrap_step_below l hw4 (by omega) (h.offset hz) hsf hs1 hs2
    refine ⟨h.goal, h.actual, ?_, h.window, fun _ => hoff⟩
    obtain ⟨hof, ho0, hok⟩ := (pointsBelow_iff l (show rb.frzS < 2 ^ 24 by omega) _).1 hoff
    show pointsBelow (binary32 l) ((binary32 l).ofNat k) ((binary32 l).wrap (f32Add (f32OfRat (rb.frzStart : Int) 1)
      ((binary32 l).wrap ((binary32 l).add rb.frzOff s) ((binary32 l).ofNat rb.frzS))) ((binary32 l).ofNat k))
    generalize (binary32 l).wrap ((binary32 l).add rb.frzOff s) ((binary32 l).ofNat rb.frzS) = off at hof ho0 hok ⊢
    obtain ⟨hwf, hwi⟩ := f32OfRat_nat (show rb.frzStart < 2 ^ 24 by omega)
    obtain ⟨y, hyn, hyi⟩ := double_pred (show 0 < k by omega) hk
    have hn := f32Add_notNaN hwf hof
    have ha : (rb.frzStart : Int) * 2 ^ 149 ≤ ((k : Int) - 1) * 2 ^ 149 := mul_le_mul_of_nonneg_right (by omega) (by positivity)
    have hc : (rb.frzS : Int) * 2 ^ 149 ≤ ((k : Int) - 4) * 2 ^ 149 := mul_le_mul_of_nonneg_right (by omega) (by positivity)
    have hU : (0 : Int) < 2 ^ 149 := by positivity
    have hw0 : (0 : Int) ≤ (rb.frzStart : Int) * 2 ^ 149 := Int.mul_nonneg (Int.natCast_nonneg _) hU.le
    have e2 : (2 * (k : Int) - 2) * 2 ^ 149 = ((k : Int) - 1) * 2 ^ 149 + ((k : Int) - 4) * 2 ^ 149 + 3 * 2 ^ 149 := by ring
    have hz0 : f32Int NUM.zero = 0 := by decide
    have s1 : f32Int (f32OfRat (rb.frzStart : Int) 1) + f32Int off ≤ f32Int y := by rw [hyi, e2, hwi]; omega
    have s0 : f32Int NUM.zero ≤ f32Int (f32OfRat (rb.frzStart : Int) 1) + f32Int off := by rw [hwi, hz0]; omega
    have hu := f32Add_le hwf hof hyn s1
    have hl := le_f32Add hwf hof (z := NUM.zero) rfl s0
    rw [hyi] at hu
    rw [hz0] at hl
    have hb : (2 * (k : Int) - 2) * 2 ^ 149 ≤ 2 ^ 25 * 2 ^ 149 := mul_le_mul_of_nonneg_right (by omega) (by positivity)
    have hk0 : (0 : Int) ≤ (k : Int) * 2 ^ 149 := by positivity
    have hf : f32IsFinite (f32Add (f32OfRat (rb.frzStart : Int) 1) off) = true := f32IsFinite_of_bounds hn (by omega) (hu.trans hb)
    have hlk : -((k : Int) * 2 ^ 149) ≤ f32Int (f32Add (f32OfRat (rb.frzStart : Int) 1) off) := by omega
    exact wrap_below l (by omega) hk hf hlk hu
  · rw [if_neg hz]
    exact ⟨h.goal, h.actual, wrap_step_below l (by omega) hk h.read hsf hs1 hs2, fun h' => absurd h' hz, fun h' => absurd h' hz⟩

theorem f32Int_abs (x : NUM) : f32Int (f32Abs x) = |f32Int x| := by
  unfold f32Abs
  rw [f32Int_pack _ (f32Mag_lt x), if_neg (by decide)]
  unfold f32Int f32Units
  cases f32Neg x <;> simp

theorem ringServo_pointers (l : MathsLib) {k : Nat} (hk16 : 16 ≤ k) (hk : k < 2 ^ 24) {rb : RingBuf}
    (h : RingPointers (binary32 l) k rb) : RingPointers (binary32 l) k (ringServo (binary32 l) rb) := by
  have hin := inside_delay_iff l (show 4 ≤ k by omega) hk
  obtain ⟨haf, ha4, haD⟩ := (hin _).1 h.actual
  obtain ⟨hgf, hg4, hgD⟩ := (hin _).1 h.goal
  have han := (f32IsFinite_not haf).1
  have hgn := (f32IsFinite_not hgf).1
  have hngf : f32IsFinite (f32Negate rb.goal) = true := by rw [f32IsFinite_negate]; exact hgf
  have h5f : f32IsFinite (f32OfRat 5 1) = true := (f32OfRat_nat (k := 5) (by decide)).1
  have h5i : f32Int (f32OfRat 5 1) = 5 * 2 ^ 149 := (f32OfRat_nat (k := 5) (by decide)).2
  have h5n := (f32IsFinite_not h5f).1
  have hdn : f32IsNaN (f32Sub rb.act rb.goal) = false := f32Add_notNaN haf hngf
  have hdan : f32IsNaN (f32Abs (f32Sub rb.act rb.goal)) = false := f32IsNaN_pack _ (f32Mag_le_inf hdn)
  have hhf : f32IsFinite (f32OfRat 1 2) = true ∧ f32Int (f32OfRat 1 2) = 2 ^ 148 := by decide +kernel
  have far : ¬ f32Le (f32Abs (f32Sub rb.act rb.goal)) (f32OfRat 5 1) = true →
      5 * 2 ^ 149 < f32Int rb.act - f32Int rb.goal ∨ 5 * 2 ^ 149 < f32Int rb.goal - f32Int rb.act := by
    intro hf
    rw [f32Le_iff hdan h5n, f32Int_abs, h5i] at hf
    by_contra hc
    push Not at hc
    have hu := f32Add_le haf hngf h5n (by rw [f32Int_negate, h5i]; omega)
    have h5nf : f32IsFinite (f32Negate (f32OfRat 5 1)) = true := by rw [f32IsFinite_negate]; exact h5f
    have hl := le_f32Add haf hngf (z := f32Negate (f32OfRat 5 1)) (f32IsFinite_not h5nf).1
      (by rw [f32Int_negate, f32Int_negate, h5i]; omega)
    rw [h5i] at hu
    rw [f32Int_negate, h5i] at hl
    exact hf (abs_le.2 ⟨hl, hu⟩)
  unfold ringServo
  split
  · exact ⟨h.goal, h.actual, h.read, h.window, h.offset⟩
  · next hnear =>
    have hfar := far hnear
    split
    · next hlt =>
      have hlt : f32Lt rb.goal rb.act = true := hlt
      rw [f32Lt_iff hgn han] at hlt
      have hnh : f32IsFinite (f32Negate (f32OfRat 1 2)) = true := by rw [f32IsFinite_negate]; exact hhf.1
      have hn := f32Add_notNaN haf hnh
      have hu := f32Add_le haf hnh han (by rw [f32Int_negate, hhf.2]; norm_num)
      have hl := le_f32Add haf hnh hgn (by rw [f32Int_negate, hhf.2]; norm_num at *; omega)
      have hb : ((k : Int) - 4) * 2 ^ 149 ≤ 2 ^ 25 * 2 ^ 149 := mul_le_mul_of_nonneg_right (by omega) (by positivity)
      have hf := f32IsFinite_of_bounds hn (by omega) (by omega)
      exact ⟨h.goal, (hin _).2 ⟨hf, hg4.trans hl, hu.trans haD⟩, h.read, h.window, h.offset⟩
    · next hlt =>
      have hlt : ¬ f32Lt rb.goal rb.act = true := hlt
      rw [f32Lt_iff hgn han] at hlt
      have hn := f32Add_notNaN haf hhf.1
      have hu := f32Add_le haf hhf.1 hgn (by rw [hhf.2]; norm_num at *; omega)
      have hl := le_f32Add haf hhf.1 han (by rw [hhf.2]; norm_num)
      have hb : ((k : Int) - 4) * 2 ^ 149 ≤ 2 ^ 25 * 2 ^ 149 := mul_le_mul_of_nonneg_right (by omega) (by positivity)
      have hf := f32IsFinite_of_bounds hn (by omega) (by omega)
      exact ⟨h.goal, (hin _).2 ⟨hf, ha4.trans hl, hu.trans hgD⟩, h.read, h.window, h.offset⟩

/-- A sample through a delay line keeps the pointers of its ring buffer inside. -/
theorem dlProcess_pointers (l : MathsLib) {k : Nat} (hk16 : 16 ≤ k) (hk : k < 2 ^ 24) {rb : RingBuf}
    (hok : RingOk (binary32 l) k rb) (h : RingPointers (binary32 l) k rb) (topo : Topology) (fb mix x : NUM) :
    RingPointers (binary32 l) k (dlProcess (binary32 l) k topo fb mix x rb).2 := by
  have hw : ∀ v, RingPointers (binary32 l) k (ringWrite k v (ringRead (binary32 l) k rb).2) ∧
      (ringWrite k v (ringRead (binary32 l) k rb).2).frzStart < k := by
    intro v
    unfold ringWrite
    split <;> exact ⟨⟨h.goal, h.actual, h.read, h.window, h.offset⟩, hok.window_start⟩
  have hs := ringServo_frame (binary32 l)
  show RingPointers (binary32 l) k (ringTick (binary32 l) k _ _)
  unfold ringTick
  refine ringAdvance_pointers l hk16 hk ?_ (hs _).2.2.2 (ringServo_pointers l hk16 hk (hw _).1)
  have : ∀ r, (ringServo (binary32 l) r).frzStart = r.frzStart := by
    intro r; unfold ringServo; split
    · rfl
    · split <;> rfl
  rw [this]; exact (hw _).2

theorem ringFreeze_pointers (l : MathsLib) {k : Nat} (hk16 : 16 ≤ k) (hk : k < 2 ^ 24) {rb : RingBuf}
    (h : RingPointers (binary32 l) k rb) : RingPointers (binary32 l) k (ringFreeze (binary32 l) k rb) := by
  obtain ⟨haf, ha4, haD⟩ := (inside_delay_iff l (show 4 ≤ k by omega) hk _).1 h.actual
  have hfl : (binary32 l).floor rb.act = f32Int rb.act / 2 ^ 149 := by
    show f32Floor rb.act = _
    simp [f32Floor, haf]
  have h4 : 4 ≤ f32Int rb.act / 2 ^ 149 := (Int.le_ediv_iff_mul_le (by positivity)).2 ha4
  have hD : f32Int rb.act / 2 ^ 149 ≤ (k : Int) - 4 := by
    have := Int.ediv_le_ediv (show (0 : Int) < 2 ^ 149 by positivity) haD
    rwa [Int.mul_ediv_cancel _ (by positivity)] at this
  have hS : (((binary32 l).floorNat rb.act : Nat) : Int) = f32Int rb.act / 2 ^ 149 := by
    unfold Numerics.floorNat
    simp only [hfl]
    rw [if_pos (by omega)]; omega
  unfold ringFreeze
  split
  · exact h
  · have hst := wrapInt_lt ((rb.w : Int) - ((binary32 l).floorNat rb.act : Int)) (show 0 < k by omega)
    obtain ⟨hf, hi⟩ := f32OfRat_nat (show wrapInt ((rb.w : Int) - ((binary32 l).floorNat rb.act : Int)) k < 2 ^ 24 by omega)
    refine ⟨h.goal, h.actual, ?_, fun _ => ?_, fun _ => ?_⟩
    · refine (pointsBelow_iff l hk _).2 ⟨hf, ?_, ?_⟩
      · show 0 ≤ f32Int (f32OfRat _ 1); rw [hi]; positivity
      · show f32Int (f32OfRat _ 1) < _; rw [hi]
        exact mul_lt_mul_of_pos_right (by exact_mod_cast hst) (by positivity)
    · show 4 ≤ (binary32 l).floorNat rb.act ∧ (binary32 l).floorNat rb.act + 4 ≤ k
      omega
    · refine (pointsBelow_iff l (show (binary32 l).floorNat rb.act < 2 ^ 24 by omega) _).2 ⟨show f32IsFinite NUM.zero = true by decide,
        show 0 ≤ f32Int NUM.zero by decide, ?_⟩
      show f32Int NUM.zero < _
      rw [show f32Int NUM.zero = 0 by decide]
      have : (0 : Int) < ((binary32 l).floorNat rb.act : Int) := by omega
      positivity

theorem ringUnfreeze_pointers (l : MathsLib) {k : Nat} (hk16 : 16 ≤ k) (hk : k < 2 ^ 24) {rb : RingBuf} (hw : rb.w < k)
    (h : RingPointers (binary32 l) k rb) : RingPointers (binary32 l) k (ringUnfreeze (binary32 l) k rb) := by
  unfold ringUnfreeze
  split
  · exact ⟨h.goal, h.actual, readBehind_below l hk16 hk hw h.actual, (by intro h'; cases h'), (by intro h'; cases h')⟩
  · exact h

theorem ringSetReverse_pointers (l : MathsLib) {k : Nat} (hk16 : 16 ≤ k) (hk : k < 2 ^ 24) {rb : RingBuf} (hw : rb.w < k)
    (h : RingPointers (binary32 l) k rb) (b : Bool) : RingPointers (binary32 l) k (ringSetReverse (binary32 l) k b rb) := by
  unfold ringSetReverse
  split
  · exact ⟨h.goal, h.actual, readBehind_below l hk16 hk hw h.actual, h.window, h.offset⟩
  · exact ⟨h.goal, h.actual, h.read, h.window, h.offset⟩

/-- RB_INIT puts the pointers inside. -/
theorem ringInit_pointers (l : MathsLib) {k : Nat} (hk16 : 16 ≤ k) (hk : k < 2 ^ 24) {rb : RingBuf} (hw : rb.w < k)
    (hz : rb.frozen = false) {g : NUM} (hg : f32IsNaN g = false) :
    RingPointers (binary32 l) k (ringInit (binary32 l) k g rb) := by
  have hc := clampDelay_inside l hk16 hk hg
  exact ⟨hc, hc, readBehind_below l hk16 hk hw hc, (by intro h'; rw [show (ringInit (binary32 l) k g rb).frozen = rb.frozen from rfl, hz] at h'; cases h'),
    (by intro h'; rw [show (ringInit (binary32 l) k g rb).frozen = rb.frozen from rfl, hz] at h'; cases h')⟩

end Sys2Proof.Machine
end

