-- ==== Sys2Proof/Tests/Slice0.lean ====
section
/-! SUPPORT. The model's own tests: ill-formed terms, words written from the spec's encodings, one-step results taken from spec/95_test_vectors.md and the rules' examples, and for each statement a state that meets its hypotheses. -/

namespace Sys2Proof.Tests

set_option Elab.async false

open Sys2Proof.Machine Sys2Proof.Safety

/-! ### WellFormed refuses a field that its format has no bits for (R141 to R145) -/

theorem test_wf_channel : (Instr.midiNoteOn 16 60 0).wellFormed = false := by decide
theorem test_wf_first_data : (Instr.midiCc 0 128 0).wellFormed = false := by decide
theorem test_wf_second_data : (Instr.midiPitchBend 0 0 128).wellFormed = false := by decide
theorem test_wf_no_status_first : (Instr.midiNoStatus 128 0 0).wellFormed = false := by decide
theorem test_wf_no_status_second : (Instr.midiNoStatus 0 256 0).wellFormed = false := by decide
theorem test_wf_no_status_third : (Instr.midiNoStatus 0 0 256).wellFormed = false := by decide
theorem test_wf_set_id : (Instr.set .ui 128 0).wellFormed = false := by decide
theorem test_wf_set_q : (Instr.set .ui 0 256).wellFormed = false := by decide
theorem test_wf_get_id : (Instr.get .midi 128 0).wellFormed = false := by decide
theorem test_wf_get_q : (Instr.get .midi 0 256).wellFormed = false := by decide
theorem test_wf_note_off : (Instr.nqNoteOff 128).wellFormed = false := by decide
theorem test_wf_note_on : (Instr.nqNoteOn 128).wellFormed = false := by decide
theorem test_wf_render : (Instr.render (2 ^ 32)).wellFormed = false := by decide
theorem test_wf_other_messages :
    ([Instr.midiNoteOff 16 0 0, .midiPolyPressure 0 128 0, .midiProgram 0 0 128, .midiChannelPressure 16 0 0,
      .midiSystem 0 128 0].all (fun i => !i.wellFormed)) = true := by decide

/-! ### Decoding: words written from R141 to R145 and R150, one for each constructor -/

theorem test_decode_status_words :
    decode (.m 0x803C40#24) = .ok (.midiNoteOff 0 60 64) ∧ decode (.m 0x9F7F01#24) = .ok (.midiNoteOn 15 127 1) ∧
    decode (.m 0xB0087F#24) = .ok (.midiCc 0 8 127) ∧ decode (.m 0xA13C05#24) = .ok (.midiPolyPressure 1 60 5) ∧
    decode (.m 0xC00500#24) = .ok (.midiProgram 0 5 0) ∧ decode (.m 0xD27F00#24) = .ok (.midiChannelPressure 2 127 0) ∧
    decode (.m 0xE00040#24) = .ok (.midiPitchBend 0 0 64) ∧ decode (.m 0xF80000#24) = .ok (.midiSystem 8 0 0) ∧
    decode (.m 0x7FFFFF#24) = .ok (.midiNoStatus 127 255 255) := by decide

theorem test_decode_register_and_note_words :
    decode (.s .ui 0x7FFF#16) = .ok (.set .ui 127 255) ∧ decode (.s .midi 0x8101#16) = .ok (.get .midi 1 1) ∧
    decode (.n 0x807F#16) = .ok (.nqNoteOff 127) ∧ decode (.n 0x9000#16) = .ok (.nqNoteOn 0) ∧
    decode (.c 0xFFFFFFFF#32) = .ok (.render 4294967295) := by decide

theorem test_decode_update_words :
    decode (.u 0x0041200000#40) = .ok (.updAttackMs 0x41200000#32) ∧
    decode (.u 0x0142C80000#40) = .ok (.updReleaseMs 0x42C80000#32) ∧
    decode (.u 0x0240000000#40) = .ok (.updHarmSpacing 0x40000000#32) ∧
    decode (.u 0x033F800000#40) = .ok (.updHarmExponent 0x3F800000#32) ∧
    decode (.u 0x04461C4000#40) = .ok (.updFilterCutoff 0x461C4000#32) ∧
    decode (.u 0x053F31A1F6#40) = .ok (.updFilterResonance 0x3F31A1F6#32) ∧
    decode (.u 0x0636000000#40) = .ok (.updFilterGainDb 0x36000000#32) ∧
    decode (.u 0x0740400000#40) = .ok (.updFilterType 0x40400000#32) ∧
    decode (.u 0x0840000000#40) = .ok (.updDelayTimeS 0x40000000#32) ∧
    decode (.u 0x093F733333#40) = .ok (.updDelayFeedback 0x3F733333#32) ∧
    decode (.u 0x0A00000000#40) = .ok (.updDelayMix 0#32) ∧
    decode (.u 0x0B3F800000#40) = .ok (.updDelayFreeze 0x3F800000#32) ∧
    decode (.u 0x0C3F800000#40) = .ok (.updDelayReverse 0x3F800000#32) ∧
    decode (.u 0x0D40000000#40) = .ok (.updDelayInterp 0x40000000#32) ∧
    decode (.u 0x0E40000000#40) = .ok (.updDelayTopology 0x40000000#32) ∧
    decode (.u 0x0F3FD78D51#40) = .ok (.updReverbRt60S 0x3FD78D51#32) ∧
    decode (.u 0x10FFFFFFFF#40) = .ok (.updReverbMix 0xFFFFFFFF#32) := by decide

/-- R160: the words no row selects. -/
theorem test_decode_rejects :
    decode (.m 0x90BC64#24) = .error .malformedDataByte ∧ decode (.m 0x903CE4#24) = .error .malformedDataByte ∧
    decode (.n 0x8080#16) = .error .unknownNoteWord ∧ decode (.n 0xA03C#16) = .error .unknownNoteWord ∧
    decode (.u 0x1100000000#40) = .error .unknownUpdateId ∧ decode (.u 0xFF00000000#40) = .error .unknownUpdateId := by
  decide

/-- R150: "the rows of one port never overlap". -/
theorem test_rows_disjoint : opcodeTable.Pairwise (fun r t => r.disjoint t = true) := by decide

/-- R103: status byte first. -/
theorem test_decode_bytes :
    decodeBytes .m .midi [0x90#8, 0x45#8, 0x64#8, 0xAA#8] = .ok (.midiNoteOn 0 69 100, [0xAA#8]) ∧
    decodeBytes .m .midi [0x90#8, 0x45#8] = .error .shortWord := by decide

/-! ### States -/

/-- The reset state with the configuration changes of 95_test_vectors.md P3 and P4: two voices, channels of depth 2. -/
def small : State := State.ofCfg { referenceCfg with n := 2, updDepth := 2, noteDepth := 2 }

/-- A state with words to take. -/
def withInbox (es : List Event) (s : State) : State := { s with inbox := es }

/-- Does the outcome pass the test as a next state? -/
def nextIs (o : Host.Outcome State Fault Refusal) (p : State → Bool) : Bool :=
  match o with
  | .next t => p t
  | .fault _ => false
  | .refused _ => false

/-- The main delay line's ring buffer replaced. -/
def withRing (f : RingBuf → RingBuf) (s : State) : State :=
  withEngine { s.engine with dl := { s.engine.dl with rb := f s.engine.dl.rb } } s

/-! ### One-step results: MIDI (V-MD-1, V-PR-3) -/

theorem test_note_on_velocity_zero :
    nextIs (step (withInbox [.word (.m 0x903C00#24)] small)) (fun t => t.noteq == [0x903C#16] && t.inbox == []) = true := by
  decide +kernel
theorem test_note_off : nextIs (exec (.midiNoteOff 0 60 64) small) (fun t => t.noteq == [0x803C#16]) = true := by
  decide +kernel
theorem test_note_push_evicts_oldest :
    nextIs (exec (.midiNoteOn 0 69 100) { small with noteq := [0x903C#16, 0x9040#16] })
      (fun t => t.noteq == [0x9040#16, 0x9045#16]) = true := by decide +kernel
theorem test_cc_64 :
    nextIs (exec (.midiCc 0 8 64) small)
      (fun t => readTable 8 t == some 18 && t.pendMidi == some ⟨8, 0x3F094D3C#32⟩ && t.updq == []) = true := by decide +kernel
theorem test_cc_127_saturates :
    nextIs (exec (.midiCc 0 8 127) small)
      (fun t => readTable 8 t == some 35 && t.pendMidi == some ⟨8, 0x40000000#32⟩) = true := by decide +kernel
theorem test_cc_unbound_tag : nextIs (exec (.midiCc 0 17 64) small) (fun t => t == small) = true := by decide +kernel
/-- V-CC-1: the first and the last value of each quantized value. -/
theorem test_cc_table :
    [0, 3, 4, 7, 8, 63, 64, 67, 120, 123, 124, 127].map ccQuantize = [0, 0, 1, 1, 2, 17, 18, 18, 34, 34, 35, 35] := by decide
theorem test_ignored_statuses :
    [Instr.midiPolyPressure 0 1 2, .midiProgram 0 5 0, .midiChannelPressure 0 1 0, .midiPitchBend 0 0 64,
      .midiSystem 8 0 0, .midiNoStatus 0x3C 0x64 0].all (fun i => nextIs (exec i small) (fun t => t == small)) = true := by
  decide +kernel

/-! ### The register port (V-PR-3) -/

theorem test_set_saturates :
    nextIs (exec (.set .ui 8 200) small)
      (fun t => readTable 8 t == some 35 && t.pendUi == some ⟨8, 0x40000000#32⟩ && t.lock == .free) = true := by decide +kernel
theorem test_set_push_evicts :
    nextIs (step (withInbox [.push .ui] { small with pendUi := some ⟨13, 0x40000000#32⟩, updq := [⟨16, 1#32⟩, ⟨10, 2#32⟩] }))
      (fun t => t.updq == [⟨10, 2#32⟩, ⟨13, 0x40000000#32⟩] && t.pendUi == none) = true := by decide +kernel
theorem test_set_unknown_id :
    nextIs (exec (.set .ui 20 1) small) (fun t => t == { small with fault := some .unknownId }) = true := by decide +kernel
theorem test_get_default :
    nextIs (exec (.get .ui 8 0) small) (fun t => t.replies == [⟨.ui, 8, 14, 0x3EA8240C#32⟩]) = true := by decide +kernel
theorem test_get_unknown_id_ignored :
    let s := { small with cfg := { small.cfg with unknownId := .ignore } }
    nextIs (exec (.get .ui 127 0) s) (fun t => t == s) = true := by decide +kernel

/-! ### The note channel (R200, R470, R471) -/

theorem test_nq_note_off :
    nextIs (exec (.nqNoteOff 60) (withEngine { small.engine with alloc := [60, 64] } small))
      (fun t => t.engine.alloc == [64]) = true := by decide +kernel
theorem test_nq_note_on_steals_oldest :
    nextIs (exec (.nqNoteOn 67) (withEngine { small.engine with alloc := [60, 64] } small))
      (fun t => t.engine.alloc == [64, 67]) = true := by decide +kernel

/-! ### The update channel: the examples of R430 to R446 -/

theorem test_attack_10_ms :
    nextIs (exec (.updAttackMs (f32OfRat 10 1)) small) (fun t => t.engine.env.inc == f32OfRat 1 480) = true := by
  decide +kernel
theorem test_release_100_ms :
    nextIs (exec (.updReleaseMs (f32OfRat 100 1)) small) (fun t => t.engine.env.dec == f32OfRat 1 4800) = true := by
  decide +kernel
theorem test_spacing_rounds :
    nextIs (exec (.updHarmSpacing (f32OfRat 16 10)) small) (fun t => t.engine.osc.spacing == 2) = true := by decide +kernel
/-- U5: −∞ gives 0. -/
theorem test_exponent_negative_infinity :
    nextIs (exec (.updHarmExponent 0xFF800000#32) small) (fun t => t.engine.osc.exponent == NUM.zero) = true := by decide +kernel
theorem test_cutoff_clamped :
    nextIs (exec (.updFilterCutoff (f32OfRat 30000 1)) small) (fun t => t.engine.flt.fc == f32OfRat 23520 1) = true := by
  decide +kernel
theorem test_resonance_clamped :
    nextIs (exec (.updFilterResonance (f32OfRat 1 1000)) small) (fun t => t.engine.flt.q == f32OfRat 1 100) = true := by
  decide +kernel
/-- U5: +∞ is clamped to the upper bound. -/
theorem test_gain_infinity :
    nextIs (exec (.updFilterGainDb 0x7F800000#32) small) (fun t => t.engine.flt.gdb == f32OfRat 120 1) = true := by
  decide +kernel
theorem test_filter_type_rounds :
    nextIs (exec (.updFilterType (f32OfRat 22 10)) small) (fun t => t.engine.flt.kind == .bp) = true := by decide +kernel
theorem test_delay_time_sets_goal_only :
    nextIs (exec (.updDelayTimeS (f32OfRat 1 2)) small)
      (fun t => t.engine.dl.rb == { small.engine.dl.rb with goal := f32OfRat 24000 1 }) = true := by decide +kernel
/-- R323: the goal is clamped to C − 4. -/
theorem test_delay_time_clamped :
    nextIs (exec (.updDelayTimeS (f32OfRat 3 1)) small) (fun t => t.engine.dl.rb.goal == f32OfRat 95996 1) = true := by
  decide +kernel
/-- U12: the feedback is stored unclamped. -/
theorem test_feedback_unclamped :
    nextIs (exec (.updDelayFeedback (f32OfRat 5 1)) small) (fun t => t.engine.dl.fb == f32OfRat 5 1) = true := by decide +kernel
theorem test_delay_mix_infinity :
    nextIs (exec (.updDelayMix 0x7F800000#32) small) (fun t => t.engine.dl.mix == f32OfRat 1 1) = true := by decide +kernel
/-- R331: W = 1000, ACT = 480.5. -/
theorem test_freeze_captures :
    nextIs (exec (.updDelayFreeze (f32OfRat 1 1)) (withRing (fun rb => { rb with w := 1000, act := f32OfRat 961 2 }) small))
      (fun t => let rb := t.engine.dl.rb
        rb.frozen && rb.frzS == 480 && rb.frzStart == 520 && rb.r == f32OfRat 520 1) = true := by decide +kernel
/-- R332: the same buffer after the thaw. -/
theorem test_thaw_resynchronises :
    nextIs (exec (.updDelayFreeze (f32OfRat 0 1))
        (withRing (fun rb => { rb with w := 1000, act := f32OfRat 961 2, frozen := true }) small))
      (fun t => !t.engine.dl.rb.frozen && t.engine.dl.rb.r == f32OfRat 1039 2) = true := by decide +kernel
/-- R333: W = 10, ACT = 4. -/
theorem test_leaving_reverse :
    nextIs (exec (.updDelayReverse (f32OfRat 0 1))
        (withRing (fun rb => { rb with w := 10, act := f32OfRat 4 1, rev := true }) small))
      (fun t => !t.engine.dl.rb.rev && t.engine.dl.rb.r == f32OfRat 6 1) = true := by decide +kernel
theorem test_interp_allpass :
    nextIs (exec (.updDelayInterp (f32OfRat 2 1)) small) (fun t => t.engine.dl.rb.interp == .allpass) = true := by decide +kernel
theorem test_topology_comb :
    nextIs (exec (.updDelayTopology (f32OfRat 2 1)) small) (fun t => t.engine.dl.topo == .comb) = true := by decide +kernel
/-- R381, V-RV-3: a time below 0.001 s is raised to it. The gains of stages 1 to 5 are 0; the formula gives
10^-33.9 for stage 0, which V-RV-3 prints as 0 (log 33). -/
theorem test_rt60_underflow :
    nextIs (exec (.updReverbRt60S (f32OfRat (-1) 1)) small)
      (fun t => t.engine.rv.rt60 == f32OfRat 1 1000 && t.engine.rv.stages.tail.all (fun st => st.g == NUM.zero) &&
        t.engine.rv.stages.all (fun st => f32Lt st.g (f32OfRat 1 (10 ^ 33)))) = true := by decide +kernel
theorem test_reverb_mix_clamped :
    nextIs (exec (.updReverbMix (f32OfRat 12 10)) small) (fun t => t.engine.rv.mix == f32OfRat 1 1) = true := by decide +kernel

/-! ### RENDER -/

/-- V-EN-1: the four frames after a first note. -/
theorem test_render_first_note :
    nextIs (exec (.render 4) { State.reset with noteq := [0x9045#16] })
      (fun t => t.out == [0#32, 0x380ED963#32, 0x38858CF9#32, 0x389EB7B5#32] && t.engine.alloc == [69]) = true := by
  decide +kernel
/-- P6: an unknown id faults after the note entry was applied, and no frame is emitted. -/
theorem test_render_unknown_update :
    nextIs (exec (.render 4) { State.reset with noteq := [0x9045#16], updq := [⟨17, 0x3F800000#32⟩] })
      (fun t => t.fault == some .unknownId && t.out == [] && t.engine == { State.reset.engine with alloc := [69] } &&
        t.noteq == [] && t.updq == []) = true := by decide +kernel

/-! ### Numbers: R11, R50, U5, and the examples of R328 and R330 -/

/-- R50: 0 ≤ R < C, although −2^-30 + 16 rounds to 16. -/
theorem test_wrap_stays_below : (binary32 .platform).wrap (f32OfRat (-1) (2 ^ 30)) (f32OfRat 16 1) = NUM.zero := by
  decide +kernel
/-- U5, id 6: a NaN gain makes pow(10, NaN) a NaN. -/
theorem test_pow_of_nan (l : MathsLib) : f32IsNaN ((binary32 l).pow 0x41200000#32 0x7FC00000#32) = true :=
  f32NaN_isNaN 0x41200000#32 0x7FC00000#32
theorem test_read_between_elements :
    (ringRead (binary32 .platform) 16
      { ringRaw (binary32 .platform) 16 with interp := .linear, r := f32OfRat 41 4, buf := [(10, f32OfRat 1 1)] }).1 =
      f32OfRat 3 4 := by decide +kernel
theorem test_advance_wraps :
    (ringAdvance (binary32 .platform) 16
      { ringRaw (binary32 .platform) 16 with step := f32OfRat 3 2, r := f32OfRat 15 1 }).r = f32OfRat 1 2 := by decide +kernel

/-! ### Exceptions and construction (V-FT-1 to V-FT-6) -/

theorem test_halted_block_has_no_step :
    step { small with fault := some .unknownId } = .fault (.halted .unknownId) := rfl

/-- The reference configuration with its last descriptor changed. -/
def lastRow (f : Descriptor → Descriptor) : Cfg :=
  { referenceCfg with ptable := referenceTable.map (fun d => if d.id = 16 then f d else d) }

theorem test_construct_duplicate_id :
    construct (lastRow (fun d => { d with id := 15 })) ⟨true, true, true⟩ = .faulted .dupId := by decide +kernel
theorem test_construct_duplicate_tag :
    construct (lastRow (fun d => { d with tag := '0' })) ⟨true, true, true⟩ = .faulted .dupTag := by decide +kernel
theorem test_construct_both_duplicates :
    construct (lastRow (fun d => { d with id := 15, tag := '0' })) ⟨true, true, true⟩ = .faulted .dupId := by decide +kernel
theorem test_construct_zero_skew :
    construct (lastRow (fun d => { d with skew := NUM.zero })) ⟨true, true, true⟩ = .faulted .invalidDescriptor := by
  decide +kernel
theorem test_construct_no_device : construct referenceCfg ⟨false, true, false⟩ = .faulted .noAudioDevice := by decide +kernel
theorem test_construct_bad_format : construct referenceCfg ⟨true, false, true⟩ = .faulted .unsupportedFormat := by
  decide +kernel
theorem test_construct_no_midi : construct referenceCfg ⟨true, true, false⟩ = .faulted .noMidiPort := by decide +kernel
/-- R6: floor(FS × −1) is below 16. -/
theorem test_construct_negative_time :
    construct { referenceCfg with delayMaxS := f32OfRat (-1) 1 } ⟨true, true, true⟩ = .refused := by decide +kernel
theorem test_construct_illegal : construct { referenceCfg with n := 0 } ⟨true, true, true⟩ = .refused := by decide +kernel

/-! ### Witnesses: for each statement a state and operands that meet its hypotheses together -/

theorem small_running : Running small := ⟨rfl, rfl⟩

/-- A sound state other than the reset state. -/
theorem witness_inv : Inv small := by
  refine ⟨by decide +kernel, by decide +kernel,
    ⟨by decide +kernel, by decide +kernel, rfl, ?_, by decide +kernel, by decide +kernel, by decide +kernel⟩,
    ⟨⟨by decide +kernel, by decide +kernel, by decide +kernel, by decide +kernel, ?_⟩, by decide +kernel,
      ⟨by decide +kernel, by decide +kernel, by decide +kernel, by unfold stepLegal; decide +kernel⟩, by decide +kernel, ?_⟩,
    .inl rfl⟩
  · intro a u h
    cases a <;> cases h
  · intro v hv k hk
    have none_played : ∀ v ∈ small.engine.voices, v.lastNote = none := by decide +kernel
    rw [none_played v hv] at hk
    cases hk
  · have stages_fresh : ∀ st ∈ small.engine.rv.stages,
        st.rb.w < cRev small.cfg ∧ st.rb.frzStart < cRev small.cfg ∧ Memory.wf (cRev small.cfg) st.rb.buf = true ∧
        st.rb.step = small.cfg.nm.ofNat 1 ∧ st.rb.frozen = false ∧ st.rb.rev = false ∧ st.rb.interp = .linear := by
      decide +kernel
    intro st hst
    obtain ⟨a, b, c, d, e, f, g⟩ := stages_fresh st hst
    exact ⟨⟨a, b, c, .inr (.inl d)⟩, e, f, g⟩

/-- StepKeepsValuesBounded, FilterClampsBoundItsState. -/
theorem witness_bounded : small.cfg.isBinary32 = true ∧ Bounded small.cfg small.engine := by
  refine ⟨rfl, ?_⟩
  constructor <;> (try unfold within) <;> decide +kernel

/-- DecodeOfEncodedInstruction: fields at their bounds. -/
theorem witness_wellFormed :
    [Instr.midiNoteOff 15 127 127, .midiCc 0 0 127, .midiNoStatus 127 255 255, .set .ui 127 255, .get .midi 127 255,
      .nqNoteOn 127, .updReverbMix 0xFFFFFFFF#32, .render 4294967295].all Instr.wellFormed = true := by decide

/-- EncodeOfDecodedWord, DecodeFollowsOpcodeTable. -/
theorem witness_decode :
    decode (.m 0xFF7F7F#24) = .ok (.midiSystem 15 127 127) ∧
    ((opcodeTable.filter (fun r => r.selects (.m 0xFF7F7F#24))).map (fun r => r.mnemonic)) = ["MIDI_SYSTEM"] := by
  decide

/-- StepRunsDecodedWord: the four clauses. -/
theorem witness_step_word :
    decode (.c 4#32) = .ok (.render 4) ∧
    decode (.s .ui 0x0823#16) = .ok (.set .ui 8 35) ∧ pendOf .ui small = none ∧ instrWaits (.set .ui 8 35) small = false ∧
    instrWaits (.set .ui 8 35) { small with lock := .held .midi } = true ∧
    pendOf .ui { small with pendUi := some ⟨8, 0#32⟩ } = some ⟨8, 0#32⟩ := by decide +kernel

/-- RenderRunsPoppedEntries: a note word of each kind, one that is none, updates of the first and the last id, and a block
with entries in both channels. -/
theorem witness_popped :
    decode (.n 0x8000#16) = .ok (.nqNoteOff 0) ∧ decode (.n 0x907F#16) = .ok (.nqNoteOn 127) ∧
    decode (.n 0x0000#16) = .error .unknownNoteWord ∧
    (knownId small.cfg 0 = true ∧ decode (updateWord 0 7#32) = .ok (.updAttackMs 7#32)) ∧
    (knownId small.cfg 16 = true ∧ decode (updateWord 16 7#32) = .ok (.updReverbMix 7#32)) ∧
    small.updq = [] ∧ small.noteq = [] ∧
    (let both := { small with noteq := [0x903C#16, 0x803C#16], updq := [⟨16, 7#32⟩, ⟨0, 7#32⟩] }
     both.fault = none ∧ both.shut = false ∧ both.noteq = 0x903C#16 :: [0x803C#16] ∧ both.updq = ⟨16, 7#32⟩ :: [⟨0, 7#32⟩]) := by
  decide +kernel

/-- MalformedMidiWordIsIgnored: either data byte. -/
theorem witness_malformed :
    ((0x90BC64#24).getLsbD 23 = true ∧ (0x90BC64#24).getLsbD 15 = true) ∧
    ((0x903CE4#24).getLsbD 23 = true ∧ (0x903CE4#24).getLsbD 7 = true) ∧ small.pendMidi = none := by decide +kernel

/-- HaltedOrShutBlockHasNoStep. -/
theorem witness_halted_or_shut :
    ({ small with fault := some .unknownId } : State).fault = some .unknownId ∧
    Running (withInbox [.shutdown] small) ∧
    (({ small with shut := true } : State).fault = none ∧ ({ small with shut := true } : State).shut = true) :=
  ⟨rfl, ⟨rfl, rfl⟩, rfl, rfl⟩

/-- ForeignChannelMessageIsIgnored, IgnoredStatusesChangeNothing. -/
theorem witness_foreign : Running small ∧ 1 ≠ small.cfg.midiChannel ∧ 15 ≠ small.cfg.midiChannel :=
  ⟨small_running, by decide +kernel⟩

/-- NoteMessagesPushNoteEntries: the lowest and the highest note, on a full and on an empty channel. -/
theorem witness_note :
    Running small ∧ 0 < 128 ∧ 127 < 128 ∧ small.noteq.length ≠ small.cfg.noteDepth ∧
    ({ small with noteq := [0x903C#16, 0x9040#16] } : State).noteq.length = small.cfg.noteDepth :=
  ⟨small_running, by decide +kernel⟩

/-- ControlChangeCommitsItsValue: the first and the last bound index, unbound ones, and the bounds of the value. -/
theorem witness_cc :
    Running small ∧ (ccBinding small.cfg 0).isSome = true ∧ (ccBinding small.cfg 16).isSome = true ∧
    ccBinding small.cfg 17 = none ∧ ccBinding small.cfg 36 = none ∧ ccBinding small.cfg 127 = none ∧
    small.pendMidi = none ∧ small.lock ≠ .held .ui ∧ 0 < 128 ∧ 127 < 128 := ⟨small_running, by decide +kernel⟩

/-- SetCommitsAndLeavesUpdatePending: the first and the last id, for either agent. -/
theorem witness_set :
    Running small ∧ pendOf .midi small = none ∧ pendOf .ui small = none ∧
    lockedAgainst .ui small = false ∧ lockedAgainst .midi small = false ∧
    (descriptorOf small.cfg 0).isSome = true ∧ (descriptorOf small.cfg 16).isSome = true :=
  ⟨small_running, by decide +kernel⟩

/-- SetPushQueuesPendingUpdate: into a channel with room and into a full one. -/
theorem witness_push :
    let s := withInbox [.push .ui] { small with pendUi := some ⟨8, 0x40000000#32⟩ }
    Running s ∧ pendOf .ui s = some ⟨8, 0x40000000#32⟩ ∧ s.updq.length ≠ s.cfg.updDepth ∧
    ({ s with updq := [⟨16, 1#32⟩, ⟨10, 2#32⟩] } : State).updq.length = s.cfg.updDepth :=
  ⟨⟨rfl, rfl⟩, by decide +kernel⟩

/-- GetAnswersTableValue. -/
theorem witness_get :
    Running small ∧ small.lock = .free ∧ knownId small.cfg 0 = true ∧ knownId small.cfg 16 = true ∧
    readTable 0 small = some 5 ∧ readTable 16 small = some 0 := ⟨small_running, by decide +kernel⟩

/-- HostStepPushesFirstAndWaits: the four clauses. -/
theorem witness_pending_and_locked :
    pendOf .ui { small with pendUi := some ⟨8, 0#32⟩ } = some ⟨8, 0#32⟩ ∧
    pendOf .midi { small with pendMidi := some ⟨8, 0#32⟩ } = some ⟨8, 0#32⟩ ∧ (∃ d, ccBinding small.cfg 8 = some d) ∧
    lockedAgainst .ui { small with lock := .held .midi } = true ∧ knownId small.cfg 8 = true ∧
    lockedAgainst .midi { small with lock := .held .ui } = true :=
  ⟨rfl, rfl, Option.isSome_iff_exists.mp (by decide +kernel), rfl, by decide +kernel, rfl⟩

/-- UnknownIdFollowsPolicy: the first and the last unknown id, under either policy. -/
theorem witness_unknown_id :
    knownId small.cfg 17 = false ∧ knownId small.cfg 127 = false ∧ small.cfg.unknownId = .fault ∧
    ({ small.cfg with unknownId := .ignore } : Cfg).unknownId = .ignore := by decide +kernel

/-- GetReturnsLastSet, HostInstructionFrame, HostsAreBlindToEngineState. -/
theorem witness_host_next :
    lockedAgainst .ui small = false ∧ readTable 8 small = some 14 ∧
    [Instr.set .ui 8 200, .midiCc 0 8 64, .get .ui 8 0, .midiNoteOn 0 60 1].all (fun i =>
      isHostInstr i && nextIs (exec i small) (fun _ => true)) = true := by decide +kernel

/-- ChannelKeepsNewestInOrder, AllocatorStaysBoundedAndDistinct: the least depth and capacity; a held and an absent note. -/
theorem witness_capacity_one :
    1 ≤ 1 ∧ 60 ∈ addNote 1 60 (removeNote 61 (addNote 1 61 [])) ∧
    61 ∉ addNote 1 60 (removeNote 61 (addNote 1 61 [])) := by decide

/-- NoteEntriesChangeAllocator: held, absent with room, absent without room. -/
theorem witness_allocator :
    let s := withEngine { small.engine with alloc := [60] } small
    let full := withEngine { small.engine with alloc := [60, 64] } small
    60 ∈ s.engine.alloc ∧ (64 ∉ s.engine.alloc ∧ s.engine.alloc.length ≠ s.cfg.n) ∧
    (67 ∉ full.engine.alloc ∧ full.engine.alloc.length = full.cfg.n) := by decide +kernel

/-- FilterUpdatesRecomputeCoefficients, DelayUpdatesWriteOneField, FreezeUpdateCapturesWindow: a value for each code, the
halves among them. -/
theorem witness_codes :
    [f32OfRat 0 1, f32OfRat 1 2, f32OfRat 3 2, f32OfRat 5 2].map (fun v => disc small.cfg.nm v 0 3) = [0, 1, 2, 3] ∧
    [f32OfRat 0 1, f32OfRat 1 2, f32OfRat 3 2].map (fun v => disc small.cfg.nm v 0 2) = [0, 1, 2] ∧
    [f32OfRat 0 1, f32OfRat 1 2].map (fun v => disc small.cfg.nm v 0 1) = [0, 1] := by decide +kernel

/-- CoefficientsFollowTopology: a filter of each type. -/
theorem witness_filter_types :
    [FilterType.lp, .hp, .bp, .pk].map (fun k => ({ small.engine.flt with kind := k } : Biquad).kind) =
      [.lp, .hp, .bp, .pk] := by decide +kernel

/-- FreezeUpdateCapturesWindow, ReverseUpdateResynchronises: each state of the buffer. -/
theorem witness_freeze_states :
    small.engine.dl.rb.frozen = false ∧ small.engine.dl.rb.rev = false ∧
    (withRing (fun rb => { rb with frozen := true, rev := true }) small).engine.dl.rb.frozen = true ∧
    (withRing (fun rb => { rb with frozen := true, rev := true }) small).engine.dl.rb.rev = true := by decide +kernel

/-- ReverbUpdatesSetGainsAndMix. -/
theorem witness_stage_counts :
    small.cfg.reverbDelaysMs.length = NSTAGES ∧ small.engine.rv.stages.length = NSTAGES := by decide +kernel

/-- DiscRoundsHalfUpWithinBounds: a NaN, below, above, a half between the bounds, and each bound itself. -/
theorem witness_disc :
    let m := small.cfg.nm
    m.le 0x7FC00000#32 0x7FC00000#32 = false ∧
    m.lt (f32OfRat (-1) 1) (m.ofNat 0) = true ∧
    (m.le (f32OfRat 4 1) (f32OfRat 4 1) = true ∧ m.lt (f32OfRat 4 1) (m.ofNat 0) = false ∧
      m.lt (m.ofNat 3) (f32OfRat 4 1) = true) ∧
    (m.le (f32OfRat 3 2) (f32OfRat 3 2) = true ∧ m.lt (f32OfRat 3 2) (m.ofNat 0) = false ∧
      m.lt (m.ofNat 3) (f32OfRat 3 2) = false ∧ m.floor (m.add (f32OfRat 3 2) (m.rat 1 2)) = (2 : Nat)) ∧
    [0, 3].all (fun k => m.le (m.ofNat k) (m.ofNat k) && !m.lt (m.ofNat k) (m.ofNat 0) && !m.lt (m.ofNat 3) (m.ofNat k) &&
      m.floor (m.add (m.ofNat k) (m.rat 1 2)) == (k : Int)) = true := by
  decide +kernel

/-- VoiceGateFollowsNoteEdges: a press, a change, a held note, a silent voice, a release. -/
theorem witness_gate :
    voiceReset.lastNote ≠ some 0 ∧ ({ voiceReset with lastNote := some 127 } : Voice).lastNote = some 127 ∧
    ({ voiceReset with lastNote := some 127 } : Voice).lastNote ≠ some 60 ∧ voiceReset.lastNote = none ∧
    ({ voiceReset with lastNote := some 0 } : Voice).lastNote ≠ none := by decide

/-- EnvelopeProcessRampsAndClamps: either state that rests, and both outcomes of each ramp. -/
theorem witness_envelope :
    let m := small.cfg.nm
    let r := small.engine.env
    m.le (m.ofNat 1) (m.add (m.ofNat 1) r.inc) = true ∧ m.le (m.ofNat 1) (m.add NUM.zero r.inc) = false ∧
    m.le (m.sub NUM.zero r.dec) (m.ofNat 0) = true ∧ m.le (m.sub (m.ofNat 1) r.dec) (m.ofNat 0) = false ∧
    [EnvState.off, .attack, .sustain, .release].map (fun k => ({ voiceReset with envState := k } : Voice).envState) =
      [.off, .attack, .sustain, .release] := by decide +kernel

/-- OscillatorStopsBelowNyquist: a series that the guard ends, one that MAX_PARTIALS ends, one without a partial, and the
reference normalisation. -/
theorem witness_series :
    let count (freq cap : Nat) :=
      (oscLoop small.cfg.nm small.cfg.fs (f32OfRat freq 1) NUM.zero NUM.zero 1 cap 0 NUM.zero 0).2
    count 10000 4 = 2 ∧ count 10000 1 = 1 ∧ count 10000 small.cfg.maxPartials = 2 ∧ count 24001 small.cfg.maxPartials = 0 ∧
    small.cfg.oscNorm = .sumOfGains := by decide +kernel

/-- VoicesAreIndependentLanes: the first and the last voice, one with a note and one without. -/
theorem witness_lanes :
    let e := { small.engine with alloc := [60] }
    e.voices[0]? = some voiceReset ∧ e.voices[1]? = some voiceReset ∧ voiceNote e.alloc 0 = some 60 ∧
    voiceNote e.alloc 1 = none := by decide +kernel

/-- ServoSnapsOrGlides: the bound of the snap, above and below the goal. -/
theorem witness_servo :
    let m := small.cfg.nm
    let near (act goal : NUM) := m.le (m.abs (m.sub act goal)) (m.ofNat 5)
    near (f32OfRat 105 1) (f32OfRat 100 1) = true ∧
    (near (f32OfRat 106 1) (f32OfRat 100 1) = false ∧ m.lt (f32OfRat 100 1) (f32OfRat 106 1) = true) ∧
    (near (f32OfRat 94 1) (f32OfRat 100 1) = false ∧ m.lt (f32OfRat 100 1) (f32OfRat 94 1) = false) := by decide +kernel

/-- RingReadInterpolatesNeighbours: a capacity, a read pointer inside it, each mode, and a frozen buffer at each side of
step 1. -/
theorem witness_ring_read :
    let m := small.cfg.nm
    let rb := small.engine.dl.rb
    0 < cMain small.cfg ∧ 0 ≤ m.floor rb.r ∧ m.floor rb.r < cMain small.cfg ∧ rb.interp = .linear ∧ (ringSetInterp .none rb).interp = .none ∧
    (ringSetInterp .allpass rb).interp = .allpass ∧ rb.frozen = false ∧
    m.lt (m.rat 1 2) (m.ofNat 1) = true ∧ m.lt (m.ofNat 1) (m.ofNat 1) = false ∧
    (ringFreeze m (cMain small.cfg) { rb with step := m.rat 1 2 }).frozen = true := by decide +kernel

theorem ringOk_at_last {m : Numerics} {cap : Nat} {rb : RingBuf} (h : RingOk m cap rb) (b : Bool) :
    RingOk m cap { rb with w := cap - 1, frozen := b } :=
  ⟨Nat.sub_one_lt_of_lt h.write_pointer, h.window_start, h.memory, h.step⟩

/-- DelayLineWritesAtWritePointer: a value in each case of `wrap`, with a result below C. -/
theorem witness_wrap :
    let m := small.cfg.nm
    let c := m.ofNat 16
    [m.ofInt (-16), m.rat (-1) 2, NUM.zero, m.rat 31 2, c, m.ofNat 31].all (fun v =>
      m.le (m.neg c) v && m.lt v (m.mul (m.ofNat 2) c)) = true ∧
    m.lt (m.rat (-1) 2) NUM.zero = true ∧ m.le c (m.add (m.rat (-1) 2) c) = false ∧
    m.lt (m.rat 31 2) NUM.zero = false ∧ m.le c (m.rat 31 2) = false ∧
    m.le c c = true ∧ m.le c (m.sub c c) = false := by decide +kernel

/-- DelayLineWritesAtWritePointer: a sound buffer at its last element, running and frozen. -/
theorem witness_ring_ok (b : Bool) :
    RingOk small.cfg.nm (cMain small.cfg) { small.engine.dl.rb with w := cMain small.cfg - 1, frozen := b } :=
  ringOk_at_last witness_inv.engine.delay b

/-- ReverbDryAndWetAreExact: the two mixes, with a finite input and a finite wet sample. -/
theorem witness_reverb :
    let m := small.cfg.nm
    let rv := small.engine.rv
    small.cfg.isBinary32 = true ∧ m.isFinite (m.ofNat 1) = true ∧
    m.isFinite (runStages m (cRev small.cfg) (m.ofNat 1) rv.stages).1 = true ∧ rv.mix = m.ofNat 0 ∧
    (rvSetMix m (m.ofNat 1) rv).mix = m.ofNat 1 := by decide +kernel

/-- ResolveOfZeroIsMinimum: every descriptor of the reference table. -/
theorem witness_resolve :
    small.cfg.isBinary32 = true ∧ referenceTable.all (fun d =>
      let m := small.cfg.nm
      m.lt (m.ofNat 0) d.skew && m.isFinite d.min && m.isFinite (m.sub d.max d.min)) = true := by decide +kernel

/-- RenderEmitsExactlyItsFrames, RenderSplitsIntoBuffers, SoundRunningBlockAlwaysSteps: nothing queued. -/
theorem witness_render : Inv small ∧ Running small ∧ small.updq.head? = none ∧ small.noteq = [] ∧ small.updq = [] :=
  ⟨witness_inv, small_running, by decide +kernel⟩

/-- RenderFaultsOnUnknownUpdate: with a note of either kind before it, with one that is none, and with no note. -/
theorem witness_render_fault :
    let s := { small with updq := [⟨17, 0#32⟩] }
    Running s ∧ knownId s.cfg 17 = false ∧ s.cfg.unknownId = .fault ∧ s.noteq = [] ∧
    decode (.n 0x803C#16) = .ok (.nqNoteOff 60) ∧ decode (.n 0x903C#16) = .ok (.nqNoteOn 60) ∧
    decode (.n 0xFFFF#16) = .error .unknownNoteWord := ⟨⟨rfl, rfl⟩, by decide +kernel⟩

/-- ChannelEntryFrame. -/
theorem witness_channel_next :
    [Instr.nqNoteOn 60, .nqNoteOff 60, .updDelayFreeze 0x3F800000#32, .updReverbRt60S 0x3F800000#32].all (fun i =>
      isChannelInstr i && nextIs (exec i small) (fun _ => true)) = true := by decide +kernel

/-- RenderFrame: a RENDER that ends without a fault, running and frozen, with every stage in its place. -/
theorem witness_render_next :
    nextIs (exec (.render 1) small) (fun t => t.fault == none && !t.engine.dl.rb.frozen) = true ∧
    nextIs (exec (.render 1) { small with updq := [⟨11, 0x3F800000#32⟩] })
      (fun t => t.fault == none && t.engine.dl.rb.frozen) = true ∧
    (small.engine.rv.stages[0]?).isSome = true ∧ (small.engine.rv.stages[5]?).isSome = true := by decide +kernel

/-- NoStepChangesConfiguration, StepOnlyAppendsFrames, OnlyUnknownIdFaults, StepKeepsBlockSound, StepKeepsValuesBounded:
a step of each kind of head of the schedule, one of them raising the fault. -/
theorem witness_next_steps :
    [.word (.m 0xB00840#24), .word (.s .ui 0x1401#16), .word (.n 0x903C#16), .word (.u 0x0941200000#40), .word (.c 1#32),
      .push .ui, .shutdown].all (fun e => nextIs (step (withInbox [e] small)) (fun t => t.inbox == [])) = true ∧
    nextIs (step (withInbox [.word (.s .ui 0x1401#16)] small)) (fun t => t.fault == some .unknownId) = true := by
  decide +kernel

/-- ResetIsSound, StepKeepsValuesBounded: a legal configuration other than the reference one with a valid table, capacities
that binary32 holds, a default and an update that are no NaN, and pointers inside. -/
theorem witness_pointers :
    small.cfg ≠ referenceCfg ∧ cfgLegal small.cfg = true ∧ validateTable small.cfg = none ∧ small.cfg.isBinary32 = true ∧
    (cMain small.cfg < 2 ^ 24 ∧ cRev small.cfg < 2 ^ 24) ∧ small.cfg.nm.isNaN (resolvedDefault small.cfg 8) = false ∧
    ({ small with updq := [⟨8, 0x40000000#32⟩] } : State).updq.head?.all (fun u => !small.cfg.nm.isNaN u.v) = true := by
  decide +kernel

theorem witness_delay_pointers : RingPointers small.cfg.nm (cMain small.cfg) small.engine.dl.rb := by
  constructor <;> (try unfold inside) <;> (try unfold pointsBelow) <;> decide +kernel

theorem witness_stage_pointers :
    small.engine.rv.stages.all (fun st =>
      let m := small.cfg.nm
      let top := maxDelay m (cRev small.cfg)
      m.le (m.ofNat 4) st.rb.goal && m.le st.rb.goal top && m.le (m.ofNat 4) st.rb.act && m.le st.rb.act top &&
      m.le (m.ofNat 0) st.rb.r && m.lt st.rb.r (m.ofNat (cRev small.cfg)) && !st.rb.frozen) = true := by decide +kernel

/-- ConstructionChecksInOrder: a legal configuration with a sound table; the failing ones are the test_construct_… above. -/
theorem witness_construction :
    cfgLegal referenceCfg = true ∧ (referenceCfg.ptable.map (fun d => d.id)).Nodup ∧
    (referenceCfg.ptable.map (fun d => d.tag)).Nodup ∧ idsExact (referenceCfg.ptable.map (fun d => d.id)) = true ∧
    referenceCfg.ptable.all (fun d => !descriptorBad referenceCfg.nm d) = true ∧
    cfgLegal { referenceCfg with n := 0 } = false ∧
    ¬ ((lastRow (fun d => { d with id := 15 })).ptable.map (fun d => d.id)).Nodup ∧
    ¬ ((lastRow (fun d => { d with tag := '0' })).ptable.map (fun d => d.tag)).Nodup ∧
    idsExact ((lastRow (fun d => { d with id := 18 })).ptable.map (fun d => d.id)) = false := by decide +kernel

end Sys2Proof.Tests
end

section
/-! SUPPORT. Legal configurations and the checks of construction (00_scope.md R6, 47_parameter_interface.md R404, 70_reset_and_hazards.md R560). -/

namespace Sys2Proof.Machine

/-! ### Legality (R6) -/

/-- A capacity of at least 16 samples is the floor of its product, not the 0 that stands for a negative floor. -/
theorem sixteen_le_capacityOf_iff (c : Cfg) (t : NUM) :
    16 ≤ capacityOf c t ↔ 16 ≤ c.nm.floor (c.nm.mul c.fs t) := by
  unfold capacityOf
  omega

theorem capacityLegal_iff (c : Cfg) (t : NUM) :
    capacityLegal c t = true ↔ c.nm.isFinite (c.nm.mul c.fs t) = true ∧ 16 ≤ c.nm.floor (c.nm.mul c.fs t) := by
  rw [← sixteen_le_capacityOf_iff]
  simp [capacityLegal]

/-- A ring buffer of at least 16 samples has the capacity that its floor names. -/
theorem capacityOf_cast {c : Cfg} {t : NUM} (h : 16 ≤ c.nm.floor (c.nm.mul c.fs t)) :
    (capacityOf c t : Int) = c.nm.floor (c.nm.mul c.fs t) := by
  unfold capacityOf
  omega

/-- Legality as the conjunction of its clauses. -/
theorem cfgLegal_iff (c : Cfg) :
    cfgLegal c = true ↔
      capacityLegal c c.delayMaxS = true ∧ capacityLegal c c.revMaxS = true ∧
      c.reverbDelaysMs.length = NSTAGES ∧
      (∀ d ∈ c.reverbDelaysMs, c.nm.le (msToSamples c d) (maxDelay c.nm (cRev c)) = true) ∧
      c.nm.lt NUM.zero c.fs = true ∧ c.nm.lt NUM.zero c.envMsMin = true ∧ c.nm.le c.envMsMin c.envMsMax = true ∧
      1 ≤ c.maxPartials ∧ c.nm.isFinite c.fbScale = true ∧
      1 ≤ c.n ∧ 1 ≤ c.ch ∧ 1 ≤ c.updDepth ∧ 1 ≤ c.noteDepth ∧ c.midiChannel < 16 := by
  simp only [cfgLegal, Bool.and_eq_true, decide_eq_true_eq, beq_iff_eq, List.all_eq_true, and_assoc]

/-! ### The table's checks (R404) -/

/-- The ids 0..16 and no other. -/
theorem idsExact_iff (ids : List Nat) : idsExact ids = true ↔ ∀ k, k ∈ ids ↔ k ≤ 16 := by
  simp only [idsExact, Bool.and_eq_true, List.all_eq_true, List.mem_range, List.contains_iff_mem, decide_eq_true_eq]
  constructor
  · rintro ⟨hall, hle⟩ k
    exact ⟨hle k, fun hk => hall k (Nat.lt_succ_of_le hk)⟩
  · intro h
    exact ⟨fun k hk => (h k).2 (Nat.le_of_lt_succ hk), fun k hk => (h k).1 hk⟩

theorem descriptorBad_iff (m : Numerics) (d : Descriptor) :
    descriptorBad m d = true ↔
      m.le d.skew (m.ofNat 0) = true ∨ m.lt d.max d.min = true ∨ 35 < d.defaultQ ∨ tagIndex d.tag = none := by
  simp [descriptorBad, or_assoc]

theorem validateTable_dupId {c : Cfg} (h : ¬ (c.ptable.map (fun d => d.id)).Nodup) : validateTable c = some .dupId := by
  simp [validateTable, h]

theorem validateTable_dupTag {c : Cfg} (hid : (c.ptable.map (fun d => d.id)).Nodup)
    (h : ¬ (c.ptable.map (fun d => d.tag)).Nodup) : validateTable c = some .dupTag := by
  simp [validateTable, hid, h]

/-- With distinct ids and tags the table fails exactly on a wrong id set or a bad descriptor. -/
theorem validateTable_of_nodup {c : Cfg} (hid : (c.ptable.map (fun d => d.id)).Nodup)
    (htag : (c.ptable.map (fun d => d.tag)).Nodup) :
    validateTable c =
      if idsExact (c.ptable.map (fun d => d.id)) = true ∧ ∀ d ∈ c.ptable, ¬ descriptorBad c.nm d = true then none
      else some .invalidDescriptor := by
  simp only [validateTable, hid, htag, decide_true, Bool.not_true, Bool.false_eq_true, if_false]
  by_cases hx : idsExact (c.ptable.map (fun d => d.id)) = true
  · by_cases hb : ∃ d ∈ c.ptable, descriptorBad c.nm d = true
    · rw [if_pos (by simp [List.any_eq_true.2 hb]), if_neg (fun h => hb.elim fun d hd => h.2 d hd.1 hd.2)]
    · have hany : c.ptable.any (descriptorBad c.nm) = false := by
        simpa [List.any_eq_false] using hb
      rw [if_neg (by simp [hx, hany]), if_pos ⟨hx, fun d hd h => hb ⟨d, hd, h⟩⟩]
  · rw [if_pos (by simp [hx]), if_neg (fun h => hx h.1)]

/-! ### The outcomes of construction (R502, R560) -/

theorem construct_illegal {c : Cfg} (h : cfgLegal c = false) (env : Env) : construct c env = .refused := by
  simp [construct, h]

theorem construct_badTable {c : Cfg} (hl : cfgLegal c = true) {code : FaultCode} (h : validateTable c = some code) (env : Env) :
    construct c env = .faulted code := by
  simp [construct, hl, h]

theorem construct_badEnv {c : Cfg} (hl : cfgLegal c = true) (ht : validateTable c = none) {code : FaultCode} {env : Env}
    (h : validateEnv env = some code) : construct c env = .faulted code := by
  simp [construct, hl, ht, h]

theorem construct_built {c : Cfg} (hl : cfgLegal c = true) (ht : validateTable c = none) {env : Env}
    (h : validateEnv env = none) : construct c env = .built (State.ofCfg c) := by
  simp [construct, hl, ht, h]

end Sys2Proof.Machine

open Sys2Proof Sys2Proof.Machine Sys2Proof.Safety

/-- Settles O54: the legality conjunction is read off the clauses of `cfgLegal`, the capacities being the floors of their
products; each later clause is the check of `validateTable` or `validateEnv` that answers first. -/
theorem constructionChecksInOrder : Obligations.ConstructionChecksInOrder := by
  unfold Obligations.ConstructionChecksInOrder
  intro c env m samples ids tags exact bad
  refine ⟨?_, fun hl => construct_illegal hl env, fun hl => ⟨fun hid => ?_, fun hid htag => ?_, fun hid htag hbad => ?_,
    fun hid htag hexact hgood => ?_⟩⟩
  · rw [cfgLegal_iff, capacityLegal_iff, capacityLegal_iff]
    refine and_congr_right fun _ => and_congr_right fun hrev => and_congr_right fun _ => ?_
    have hmax : maxDelay c.nm (cRev c) = m.ofInt (samples c.revMaxS - 4) :=
      congrArg (fun k : Int => m.ofInt (k - 4)) (capacityOf_cast hrev.2)
    rw [hmax, show c.midiChannel ≤ 15 ↔ c.midiChannel < 16 by omega]
    rfl
  · exact construct_badTable hl (validateTable_dupId hid) env
  · exact construct_badTable hl (validateTable_dupTag hid htag) env
  · refine construct_badTable hl ((validateTable_of_nodup hid htag).trans (if_neg ?_)) env
    rintro ⟨hx, hd⟩
    rcases hbad with hne | ⟨d, hmem, hb⟩
    · exact hne ((idsExact_iff ids).1 hx)
    · exact hd d hmem ((descriptorBad_iff m d).2 hb)
  · have ht : validateTable c = none := (validateTable_of_nodup hid htag).trans
      (if_pos ⟨(idsExact_iff ids).2 hexact, fun d hd h => hgood d hd ((descriptorBad_iff m d).1 h)⟩)
    refine ⟨fun ha => construct_badEnv hl ht ?_, fun ha hf => construct_badEnv hl ht ?_,
      fun ha hf hp => construct_badEnv hl ht ?_, fun ha hf hp => construct_built hl ht ?_⟩
    · simp [validateEnv, ha]
    · simp [validateEnv, ha, hf]
    · simp [validateEnv, ha, hf, hp]
    · simp [validateEnv, ha, hf, hp]
end

section
/-! SUPPORT. A sample through a delay line, field by field (45_ring_buffer_delay.md R329 to R340), and `wrap` inside its domain (00_scope.md R11). -/

namespace Sys2Proof.Machine

open Sys2Proof.Safety

/-! ### The parts of a tick -/

theorem ringWrite_running {rb : RingBuf} (h : rb.frozen = false) (cap : Nat) (v : NUM) :
    ringWrite cap v rb = { rb with buf := rb.buf.write (rb.w % cap) v, w := (rb.w + 1) % cap } := by
  have hw : wrapInt ((rb.w : Int) + 1) cap = (rb.w + 1) % cap := wrapInt_natCast (rb.w + 1) cap
  simp [ringWrite, h, hw]

theorem ringWrite_frozen {rb : RingBuf} (h : rb.frozen = true) (cap : Nat) (v : NUM) : ringWrite cap v rb = rb :=
  if_pos h

/-- Is the delay within the servo's 5 samples of its goal (R324)? -/
def servoNear (m : Numerics) (rb : RingBuf) : Bool := m.le (m.abs (m.sub rb.act rb.goal)) (m.ofNat 5)

/-- The step the servo sets (R324). -/
def servoStep (m : Numerics) (rb : RingBuf) : NUM :=
  if servoNear m rb = true then m.ofNat 1 else if m.lt rb.goal rb.act = true then m.rat 3 2 else m.rat 1 2

/-- The delay the servo leaves (R324). -/
def servoAct (m : Numerics) (rb : RingBuf) : NUM :=
  if servoNear m rb = true then rb.act
  else if m.lt rb.goal rb.act = true then m.sub rb.act (m.rat 1 2) else m.add rb.act (m.rat 1 2)

/-- The servo writes the step and the delay alone. -/
theorem ringServo_eq (m : Numerics) (rb : RingBuf) :
    ringServo m rb = { rb with step := servoStep m rb, act := servoAct m rb } := by
  unfold ringServo servoStep servoAct servoNear
  split
  · rfl
  · split <;> rfl

/-- How far the read pointer moves: the step, against the direction of writing in reverse (R330). -/
def readMove (m : Numerics) (rev : Bool) (step : NUM) : NUM := if rev = true then m.neg step else step

theorem ringAdvance_running {rb : RingBuf} (h : rb.frozen = false) (m : Numerics) (cap : Nat) :
    ringAdvance m cap rb = { rb with r := m.wrap (m.add rb.r (readMove m rb.rev rb.step)) (m.ofNat cap) } := by
  simp [ringAdvance, readMove, h]

theorem ringAdvance_frozen {rb : RingBuf} (h : rb.frozen = true) (m : Numerics) (cap : Nat) :
    ringAdvance m cap rb =
      let off := m.wrap (m.add rb.frzOff (readMove m rb.rev rb.step)) (m.ofNat rb.frzS)
      { rb with frzOff := off, r := m.wrap (m.add (m.ofNat rb.frzStart) off) (m.ofNat cap) } := by
  simp [ringAdvance, readMove, h]

/-! ### A tick -/

/-- A tick of a running buffer: the write, the servo's two fields and the read pointer (R335). -/
theorem ringTick_running {rb : RingBuf} (h : rb.frozen = false) (m : Numerics) (cap : Nat) (v : NUM) :
    ringTick m cap v rb =
      { rb with
        buf := rb.buf.write (rb.w % cap) v, w := (rb.w + 1) % cap, step := servoStep m rb, act := servoAct m rb
        r := m.wrap (m.add rb.r (readMove m rb.rev (servoStep m rb))) (m.ofNat cap) } := by
  rw [ringTick, ringWrite_running h, ringServo_eq]
  exact ringAdvance_running (by exact h) m cap

/-- A tick of a frozen buffer: no write; the offset moves inside the window and the read pointer with it (R335). -/
theorem ringTick_frozen {rb : RingBuf} (h : rb.frozen = true) (m : Numerics) (cap : Nat) (v : NUM) :
    ringTick m cap v rb =
      let off := m.wrap (m.add rb.frzOff (readMove m rb.rev (servoStep m rb))) (m.ofNat rb.frzS)
      { rb with
        step := servoStep m rb, act := servoAct m rb, frzOff := off
        r := m.wrap (m.add (m.ofNat rb.frzStart) off) (m.ofNat cap) } := by
  rw [ringTick, ringWrite_frozen h, ringServo_eq]
  exact ringAdvance_frozen (by exact h) m cap

/-! ### `wrap` -/

/-- Inside [−C, 2C), where the case of R11 gives a result below C, `wrap` is that result. -/
theorem wrap_eq_wrapOnce {m : Numerics} {v c : NUM} (hlo : m.le (m.neg c) v = true)
    (hhi : m.lt v (m.mul (m.ofNat 2) c) = true) (h : m.le c (m.wrapOnce v c) = false) :
    m.wrap v c = m.wrapOnce v c := by
  simp [Numerics.wrap, hlo, hhi, h]

end Sys2Proof.Machine

open Sys2Proof Sys2Proof.Machine Sys2Proof.Safety

/-- Settles O39: the sample is the read, then the tick of a running or a frozen buffer; a sound buffer's write pointer is
an element, so the write lands there and `Memory.read_write_other` keeps the other elements. -/
theorem delayLineWritesAtWritePointer : Obligations.DelayLineWritesAtWritePointer := by
  unfold Obligations.DelayLineWritesAtWritePointer
  refine ⟨?_, fun m v c hlo hhi => ?_⟩
  · intro m cap topo fb mix x rb hok d r near shrink step act move off
    have hw : rb.w % cap = rb.w := Nat.mod_eq_of_lt hok.write_pointer
    refine ⟨fun hz => ?_, fun hz => ringTick_frozen (rb := (ringRead m cap rb).2) hz m cap _, ?_, ?_, ?_⟩
    · have hr : r.2 = _ := ringTick_running (rb := (ringRead m cap rb).2) hz m cap (m.add x (m.mul d fb))
      have hbuf : r.2.buf = rb.buf.write rb.w (m.add x (m.mul d fb)) := by rw [hr, ← hw]; rfl
      refine ⟨?_, fun i hi => ?_, ?_⟩
      · rw [hbuf, Memory.read_write_same _ hok.memory]
      · rw [hbuf, Memory.read_write_other hi _ hok.memory]
      · rw [hr]; rfl
    · rintro rfl; rfl
    · rintro rfl; rfl
    · rintro rfl; rfl
  · exact wrap_eq_wrapOnce hlo hhi
end

section
/-! SUPPORT. What the engine's registers go through: the seventeen updates, the frames, and every other step, which leaves the engine alone. -/

namespace Sys2Proof.Machine

open Sys2Proof.Safety

/-! ### The update channel -/

/-- The engine after the update of one parameter to `v`: one constructor per row of R430 to R446. -/
inductive EngineUpdate (c : Cfg) (v : NUM) (e : Engine) : Engine → Prop
  | attackMs : EngineUpdate c v e (setAttackMs c v e)
  | releaseMs : EngineUpdate c v e (setReleaseMs c v e)
  | harmSpacing : EngineUpdate c v e (setHarmSpacing c v e)
  | harmExponent : EngineUpdate c v e (setHarmExponent c v e)
  | filterCutoff : EngineUpdate c v e (recomputeFilter c (setFilterCutoff c v e))
  | filterResonance : EngineUpdate c v e (recomputeFilter c (setFilterResonance c v e))
  | filterGainDb : EngineUpdate c v e (recomputeFilter c (setFilterGainDb c v e))
  | filterType : EngineUpdate c v e (recomputeFilter c (setFilterType c v e))
  | delayTime : EngineUpdate c v e (setDelayTime c v e)
  | delayFeedback : EngineUpdate c v e (setDelayFeedback v e)
  | delayMix : EngineUpdate c v e (setDelayMix c v e)
  | delayFreeze : EngineUpdate c v e (setDelayFreeze c v e)
  | delayReverse : EngineUpdate c v e (setDelayReverse c v e)
  | delayInterp : EngineUpdate c v e (setDelayInterp c v e)
  | delayTopology : EngineUpdate c v e (setDelayTopology c v e)
  | reverbRt60 : EngineUpdate c v e (setReverbRt60 c v e)
  | reverbMix : EngineUpdate c v e (setReverbMix c v e)

/-- A popped update has its row's effect on the engine, or its id has no row and the policy decides. -/
theorem applyKnown_cases {u : Update} {s t : State} (h : applyKnown u s = .next t) :
    (∃ e, EngineUpdate s.cfg u.v s.engine e ∧ t = withEngine e s) ∨ t = unknownParameter s := by
  obtain ⟨id, v⟩ := u
  by_cases hid : id ≤ 16
  · left
    interval_cases id <;> cases h <;> exact ⟨_, by constructor, rfl⟩
  · right
    rw [applyKnown, decodeUpdate_unknown (Nat.lt_of_not_le hid)] at h
    cases h
    rfl

/-- The update half of RENDER leaves the engine as it was, or applies the value at the head of the update channel. -/
theorem drainUpdate_cases {s t : State} (h : drainUpdate s = .next t) :
    t.cfg = s.cfg ∧ (t.engine = s.engine ∨
      ∃ u, s.updq.head? = some u ∧ EngineUpdate s.cfg u.v s.engine t.engine) := by
  unfold drainUpdate popUpdate at h
  cases hq : s.updq with
  | nil =>
    simp only [hq] at h
    cases h
    exact ⟨rfl, .inl rfl⟩
  | cons u rest =>
    simp only [hq, applyUpdate] at h
    split at h
    · rcases applyKnown_cases h with ⟨e, he, rfl⟩ | rfl
      · exact ⟨rfl, .inr ⟨u, rfl, he⟩⟩
      · exact ⟨by simp, .inl (by simp)⟩
    · cases h
      exact ⟨by simp, .inl (by simp)⟩

/-! ### Steps that do not reach the engine -/

theorem setCommit_engine (a : HostAgent) (id q : Nat) (s : State) :
    (setCommit a id q s).cfg = s.cfg ∧ (setCommit a id q s).engine = s.engine := by
  rcases setCommit_cases a id q s with ⟨-, h⟩ | ⟨-, -, h⟩ | ⟨-, -, h⟩ <;> rw [h] <;> simp

theorem getParameter_engine (a : HostAgent) (id : Nat) (s : State) :
    (getParameter a id s).cfg = s.cfg ∧ (getParameter a id s).engine = s.engine := by
  rcases getParameter_cases a id s with ⟨-, h⟩ | ⟨-, h⟩ | ⟨q, -, -, -, h⟩ <;> rw [h] <;> simp

theorem onChannel_engine {chan : Nat} {s k : State} (hk : k.cfg = s.cfg ∧ k.engine = s.engine) :
    (onChannel chan s k).cfg = s.cfg ∧ (onChannel chan s k).engine = s.engine := by
  unfold onChannel
  split
  · exact hk
  · exact ⟨rfl, rfl⟩

theorem ccSet_engine (index value : Nat) (s : State) :
    (ccSet index value s).cfg = s.cfg ∧ (ccSet index value s).engine = s.engine := by
  unfold ccSet
  split
  · exact ⟨rfl, rfl⟩
  · exact setCommit_engine ..

/-- A MIDI-decode step changes what its end state changes. -/
theorem midiStep_engine {s k t : State} (h : midiStep s k = .next t) (hk : k.cfg = s.cfg ∧ k.engine = s.engine) :
    t.cfg = s.cfg ∧ t.engine = s.engine := by
  obtain ⟨-, -, hn⟩ := whenRunning_next h
  cases hn
  exact hk

/-- A MIDI or register-port instruction leaves the configuration and the engine alone (R49). -/
theorem exec_hostInstr_engine {i : Instr} (hi : isHostInstr i = true) {s t : State} (h : exec i s = .next t) :
    t.cfg = s.cfg ∧ t.engine = s.engine := by
  cases i with
  | midiNoteOff chan note vel => exact midiStep_engine h (onChannel_engine ⟨rfl, rfl⟩)
  | midiNoteOn chan note vel => exact midiStep_engine h (onChannel_engine ⟨rfl, rfl⟩)
  | midiCc chan index value => exact midiStep_engine h (onChannel_engine (ccSet_engine ..))
  | set a id q => exact midiStep_engine h (setCommit_engine ..)
  | get a id q => exact midiStep_engine h (getParameter_engine ..)
  | midiPolyPressure | midiProgram | midiChannelPressure | midiPitchBend | midiSystem | midiNoStatus =>
    exact midiStep_engine h ⟨rfl, rfl⟩
  | _ => cases hi

theorem isHostInstr_of_decodeStatus {kind chan d1 d2 : Nat} {i : Instr} (h : decodeStatus kind chan d1 d2 = .ok i) :
    isHostInstr i = true := by
  unfold decodeStatus at h
  split at h <;> cases h <;> rfl

/-- The words of the MIDI and the register port hold instructions of the hosts. -/
theorem isHostInstr_of_owner {w : PortWord} {i : Instr} (hw : (wordOwner w).isSome = true) (h : decode w = .ok i) :
    isHostInstr i = true := by
  cases w with
  | m w =>
    have h : decodeM w.toNat = .ok i := h
    rcases decodeM_cases w.toNat with ⟨-, hd⟩ | ⟨-, -, hd⟩ | ⟨-, -, -, hd⟩
    · rw [hd] at h; cases h; rfl
    · rw [hd] at h; cases h
    · exact isHostInstr_of_decodeStatus (hd ▸ h)
  | s a w =>
    have h : decodeS a w.toNat = .ok i := h
    rcases decodeS_cases a w.toNat with ⟨-, hd⟩ | ⟨-, hd⟩ <;> rw [hd] at h <;> cases h <;> rfl
  | n w => cases hw
  | u w => cases hw
  | c w => cases hw

/-- A step leaves the configuration and the engine alone, or it is a RENDER of the state with its word taken off. -/
theorem step_engine {s t : State} (h : step s = .next t) :
    (t.cfg = s.cfg ∧ t.engine = s.engine) ∨ ∃ b rest, execRender b { s with inbox := rest } = .next t := by
  obtain ⟨-, -, ⟨-, rfl⟩ | ⟨a, rest, -, rfl⟩ | ⟨rest, -, rfl⟩ | ⟨w, rest, -, hw⟩⟩ := step_cases h
  · exact .inl ⟨rfl, rfl⟩
  · exact .inl (by simp)
  · exact .inl ⟨rfl, rfl⟩
  · rcases stepWord_cases hw with ⟨a, u, -, -, rfl⟩ | rfl | rfl | ⟨x, -, rfl⟩ | ⟨x, -, rfl⟩ | ⟨i, howner, hd, hx⟩
    · exact .inl (by simp)
    · exact .inl ⟨rfl, rfl⟩
    · exact .inl ⟨rfl, rfl⟩
    · exact .inl ⟨rfl, rfl⟩
    · exact .inl ⟨rfl, rfl⟩
    · rcases howner with ho | ⟨x, rfl⟩
      · have he := exec_hostInstr_engine (isHostInstr_of_owner ho hd) hx
        exact .inl he
      · cases hd
        exact .inr ⟨x.toNat, rest, hx⟩

/-- What a RENDER makes of the engine: another set of held notes, at most one update with the value at the head of its
channel, and a number of frames (R460). -/
theorem execRender_engine {b : Nat} {s t : State} (h : execRender b s = .next t) :
    t.cfg = s.cfg ∧ ∃ al e n,
      (al = s.engine.alloc ∨ ∃ k, k < 128 ∧ (al = removeNote k s.engine.alloc ∨ al = addNote s.cfg.n k s.engine.alloc)) ∧
      (e = { s.engine with alloc := al } ∨
        ∃ u, s.updq.head? = some u ∧ EngineUpdate s.cfg u.v { s.engine with alloc := al } e) ∧
      t.engine = (frames s.cfg n e).2 := by
  obtain ⟨-, -, s1, s2, h1, h2, h3⟩ := execRender_cases h
  obtain ⟨al, hn, hal⟩ := drainNote_next s
  rw [hn] at h1
  cases h1
  obtain ⟨hc, he⟩ := drainUpdate_cases h2
  have hc : s2.cfg = s.cfg := hc
  rcases h3 with ⟨-, -, ht⟩ | ⟨-, hf⟩
  · rw [ht]
    exact ⟨hc, al, s2.engine, 0, hal, he, rfl⟩
  · rw [emitFrames_next hf, ← hc]
    exact ⟨rfl, al, s2.engine, b, by rw [hc]; exact hal, by rw [hc]; exact he, rfl⟩

/-! ### Updates and frames keep a sound engine sound -/

theorem alloc_engineOk {c : Cfg} {e : Engine} (hn : 1 ≤ c.n) (h : EngineOk c e) {al : List Nat}
    (hal : al = e.alloc ∨ ∃ k, k < 128 ∧ (al = removeNote k e.alloc ∨ al = addNote c.n k e.alloc)) :
    EngineOk c { e with alloc := al } := by
  obtain ⟨⟨hheld, hdistinct, hnotes, hcount, hlast⟩, hspacing, hdelay, hstages, hstage⟩ := h
  suffices hb : al.length ≤ c.n ∧ al.Nodup ∧ ∀ k ∈ al, k < 128 from
    ⟨⟨hb.1, hb.2.1, hb.2.2, hcount, hlast⟩, hspacing, hdelay, hstages, hstage⟩
  rcases hal with rfl | ⟨k, hk, rfl | rfl⟩
  · exact ⟨hheld, hdistinct, hnotes⟩
  · exact ⟨(removeNote_length_le k _).trans hheld, removeNote_nodup hdistinct k,
      fun j hj => hnotes j (mem_removeNote.1 hj).1⟩
  · refine ⟨addNote_length_le hn hheld k, addNote_nodup hdistinct _ k, fun j hj => ?_⟩
    rcases mem_addNote hj with hj | rfl
    · exact hnotes j hj
    · exact hk

/-- A stage after a change of the decay time is a stage from before with another gain. -/
theorem setStageGains_mem {m : Numerics} {rt60 : NUM} {delays : List NUM} {sts : List Stage} {st' : Stage}
    (h : st' ∈ setStageGains m rt60 delays sts) : ∃ st ∈ sts, ∃ g, st' = { st with g := g } := by
  have hmem : st'.rb ∈ (setStageGains m rt60 delays sts).map (fun st => st.rb) := List.mem_map_of_mem h
  rw [setStageGains_rings] at hmem
  obtain ⟨st, hst, he⟩ := List.mem_map.1 hmem
  exact ⟨st, hst, st'.g, by rw [he]⟩

theorem voicesOk_of_eq {n : Nat} {e e' : Engine} (h : VoicesOk n e) (ha : e'.alloc = e.alloc) (hv : e'.voices = e.voices) :
    VoicesOk n e' := by
  obtain ⟨hheld, hdistinct, hnotes, hcount, hlast⟩ := h
  rw [← ha] at hheld hdistinct hnotes
  rw [← hv] at hcount hlast
  exact ⟨hheld, hdistinct, hnotes, hcount, hlast⟩

/-- No update touches a held note or a voice. -/
theorem EngineUpdate.bank {c : Cfg} {v : NUM} {e e' : Engine} (hu : EngineUpdate c v e e') :
    e'.alloc = e.alloc ∧ e'.voices = e.voices := by
  cases hu <;> exact ⟨rfl, rfl⟩

/-- An update keeps a sound engine sound: it writes registers without a structural bound, the spacing, or a ring buffer by
one of its setters. -/
theorem EngineUpdate.engineOk {c : Cfg} {v : NUM} {e e' : Engine} (hc : 0 < cMain c) (hu : EngineUpdate c v e e')
    (h : EngineOk c e) : EngineOk c e' := by
  have hbank : VoicesOk c.n e' := voicesOk_of_eq h.bank hu.bank.1 hu.bank.2
  obtain ⟨hwp, hws, hmem, hstep⟩ := h.delay
  cases hu with
  | harmSpacing => exact ⟨hbank, spacingFlag_cases c.nm v, h.delay, h.stages, h.stage⟩
  | delayFreeze =>
    refine ⟨hbank, h.spacing, ?_, h.stages, h.stage⟩
    show RingOk c.nm (cMain c) (if boolFlag c.nm v = true then _ else _)
    split
    · exact ringFreeze_ringOk hc h.delay
    · exact ringUnfreeze_ringOk h.delay
  | delayReverse => exact ⟨hbank, h.spacing, ringSetReverse_ringOk h.delay _, h.stages, h.stage⟩
  | reverbRt60 =>
    refine ⟨hbank, h.spacing, h.delay, (setStageGains_length ..).trans h.stages, fun st' hst' => ?_⟩
    obtain ⟨st, hst, g, rfl⟩ := setStageGains_mem hst'
    obtain ⟨hring, hrun, hfwd, hlin⟩ := h.stage st hst
    exact ⟨hring, hrun, hfwd, hlin⟩
  | _ => exact ⟨hbank, h.spacing, ⟨hwp, hws, hmem, hstep⟩, h.stages, h.stage⟩

end Sys2Proof.Machine
end

section
/-! SUPPORT. The bounds of the value registers and the pointer ranges under the binary32 NUM, through updates and frames (10_state.md R50). -/

namespace Sys2Proof.Machine

open Sys2Proof.Safety

/-! ### NaNs and infinities -/

theorem f32Le_of_lt {x y : NUM} (h : f32Lt x y = true) : f32Le x y = true := by
  simp only [f32Lt, f32Le, Bool.and_eq_true, decide_eq_true_eq] at h ⊢
  exact ⟨h.1, h.2.le⟩

theorem f32Lt_of_not_le {x y : NUM} (h : ¬ f32Le x y = true) : f32Lt x y = false :=
  Bool.eq_false_iff.2 fun hlt => h (f32Le_of_lt hlt)

theorem f32NaN_not_finite (x y : NUM) : f32IsFinite (f32NaN x y) = false := by
  have h := f32NaN_isNaN x y
  simp only [f32IsNaN, decide_eq_true_eq] at h
  exact decide_eq_false (by omega)

theorem f32Inf_not_finite (neg : Bool) : f32IsFinite (f32Pack neg f32InfMag) = false := by
  rw [f32IsFinite, f32Mag_pack neg (by decide)]
  exact decide_eq_false (lt_irrefl _)

/-- What is not finite is a NaN or an infinity. -/
theorem f32_nan_or_inf {x : NUM} (h : ¬ f32IsFinite x = true) : f32IsNaN x = true ∨ f32IsInf x = true := by
  simp only [f32IsFinite, f32IsNaN, f32IsInf, decide_eq_true_eq, beq_iff_eq] at h ⊢
  omega

/-- A value whose difference with itself is a number is finite. -/
theorem f32IsFinite_of_sub_self {x : NUM} (h : f32IsNaN (f32Sub x x) = false) : f32IsFinite x = true := by
  by_contra hc
  have hs : f32Neg (f32Negate x) = !f32Neg x := f32Neg_pack _ (f32Mag_lt x)
  have hsub : f32Sub x x = f32NaN x (f32Negate x) := by
    rw [f32Sub, f32Add]
    rcases f32_nan_or_inf hc with hn | hi
    · simp [hn]
    · have hi' : f32IsInf (f32Negate x) = true := by
        rw [f32IsInf, f32Negate, f32Mag_pack _ (f32Mag_lt x)]; exact hi
      simp [hi, hi', hs]
  rw [hsub, f32NaN_isNaN] at h
  cases h

/-- The left factor of a finite product is finite. -/
theorem f32IsFinite_left_of_mul {x y : NUM} (h : f32IsFinite (f32Mul x y) = true) : f32IsFinite x = true := by
  by_contra hc
  rw [f32Mul] at h
  split_ifs at h with hn hi hz
  · simp [f32NaN_not_finite] at h
  · simp [f32NaN_not_finite] at h
  · simp [f32Inf_not_finite] at h
  · rcases f32_nan_or_inf hc with hx | hx
    · simp [hx] at hn
    · simp [hx] at hi

/-- The product of a number and a finite value other than 0 is a number. -/
theorem f32Mul_notNaN {x y : NUM} (hx : f32IsNaN x = false) (hy : f32IsFinite y = true) (hy0 : f32Mag y ≠ 0) :
    f32IsNaN (f32Mul x y) = false := by
  obtain ⟨hyn, hyi⟩ := f32IsFinite_not hy
  simp only [f32Mul, hx, hyn, hyi, Bool.or_self, Bool.or_false, Bool.false_eq_true, if_false]
  split
  · next hi =>
    have hxi : f32Mag x = f32InfMag := by simpa [f32IsInf] using hi
    have hx0 : f32Mag x ≠ 0 := by rw [hxi]; decide
    rw [if_neg (by simp [hx0, hy0])]
    exact f32IsNaN_pack _ le_rfl
  · exact f32IsNaN_pack _ (f32RoundMag_le_inf _ _)

/-- The NaN test of the binary32 NUM. -/
theorem isNaN_binary32 (l : MathsLib) (x : NUM) : (binary32 l).isNaN x = f32IsNaN x := by
  show (!f32Le x x) = f32IsNaN x
  simp [f32Le]

/-- What the finiteness test of the binary32 NUM accepts is finite. -/
theorem isFinite_binary32 {l : MathsLib} {x : NUM} (h : (binary32 l).isFinite x = true) : f32IsFinite x = true :=
  f32IsFinite_of_sub_self (f32Le_notNaN h).1

/-! ### What clamp, max and the literals give -/

theorem isBinary32_nm {c : Cfg} (h : c.isBinary32 = true) : ∃ l, c.num = .binary32 l ∧ c.nm = binary32 l := by
  unfold Cfg.isBinary32 at h
  split at h
  · next l hl => exact ⟨l, hl, by rw [Cfg.nm, hl]; rfl⟩
  · cases h

section Binary32

variable {m : Numerics} {l : MathsLib}

theorem ofNat_zero (hm : m = binary32 l) : m.ofNat 0 = NUM.zero := by
  rw [hm]
  rfl

/-- A clamp lands within its bounds, where they are in order. -/
theorem clamp_within (hm : m = binary32 l) {lo hi : NUM} (hle : m.lt hi lo = false) (v : NUM) :
    within m lo hi (m.clamp v lo hi) := by
  subst hm
  unfold Numerics.clamp
  split
  · exact ⟨f32Lt_irrefl lo, hle⟩
  · next hlo =>
    split
    · exact ⟨hle, f32Lt_irrefl hi⟩
    · next hhi => exact ⟨by simpa using hlo, by simpa using hhi⟩

/-- A maximum is not below its second operand. -/
theorem max_not_below (hm : m = binary32 l) (a b : NUM) : m.lt (m.max a b) b = false := by
  subst hm
  unfold Numerics.max
  split
  · next h => exact f32Lt_asymm h
  · exact f32Lt_irrefl b

/-- The fixed bounds of the registers are in order: those of the envelope and the mixes, of the resonance, of the gain and
of the taps. -/
theorem literal_bounds_ordered (hm : m = binary32 l) :
    m.lt (m.ofNat 1) (m.ofNat 0) = false ∧ m.lt (m.ofNat 1000) (m.rat 1 100) = false ∧
    m.lt (m.ofNat 120) (m.ofInt (-120)) = false ∧ m.lt (m.ofNat 100) (m.ofInt (-100)) = false := by
  subst hm
  cases l <;> decide +kernel

/-- The largest delay of a legal ring buffer is not below 4: rounding is monotone, so this needs no exact capacity. -/
theorem delay_bounds_ordered (hm : m = binary32 l) {cap : Nat} (hc : 16 ≤ cap) :
    m.lt (maxDelay m cap) (m.ofNat 4) = false := by
  subst hm
  obtain ⟨h4f, h4i⟩ := f32OfRat_nat (show 4 < 2 ^ 24 by decide)
  have h4n := (f32IsFinite_not h4f).1
  obtain ⟨z, hz, hz4⟩ : ∃ z : Int, z = (cap : Int) - 4 ∧ 4 ≤ z := ⟨_, rfl, by omega⟩
  have hneg : ¬ z * 2 ^ 149 < 0 := not_lt.2 (by positivity)
  have hmax : f32OfRat z 1 = f32Pack (decide (z * 2 ^ 149 < 0)) (f32RoundMag (z * 2 ^ 149).natAbs 1) := by
    rw [f32OfRat, if_neg (by omega), Int.natAbs_mul, decide_eq_false (show ¬ z < 0 by omega), decide_eq_false hneg]
    rfl
  have hle : f32Int (f32OfRat (4 : Nat) 1) ≤ f32Int (f32OfRat z 1) := by
    rw [hmax]
    refine le_f32Round Nat.one_pos h4n ?_
    rw [h4i, Nat.cast_one, mul_one]
    exact mul_le_mul_of_nonneg_right hz4 (by positivity)
  have hn : f32IsNaN (f32OfRat z 1) = false := by
    rw [hmax]
    exact f32IsNaN_pack _ (f32RoundMag_le_inf _ _)
  show f32Lt (f32OfRat ((cap : Int) - 4) 1) (f32OfRat (4 : Nat) 1) = false
  rw [← hz, Bool.eq_false_iff, Ne, f32Lt_iff hn h4n]
  omega

/-- ENV_PROCESS keeps the value in [0, 1] when no rate is below 0 (R223): a ramp ends at its bound, a rise from 0 up stays
at 0 or above, and a fall from 1 down stays at 1 or below. -/
theorem envProcess_within (hm : m = binary32 l) {regs : EnvRegs} (hinc : m.lt regs.inc (m.ofNat 0) = false)
    (hdec : m.lt regs.dec (m.ofNat 0) = false) {v : Voice} (hv : within m (m.ofNat 0) (m.ofNat 1) v.envVal) :
    within m (m.ofNat 0) (m.ofNat 1) (envProcess m regs v).envVal := by
  have h01 := (literal_bounds_ordered hm).1
  subst hm
  have hirrefl : ∀ x : NUM, (binary32 l).lt x x = false := f32Lt_irrefl
  unfold envProcess
  split
  · exact hv
  · simp only
    split
    · exact ⟨h01, hirrefl _⟩
    · next h => exact ⟨f32Add_nonneg hv.1 hinc, f32Lt_of_not_le h⟩
  · exact hv
  · simp only
    split
    · exact ⟨hirrefl _, h01⟩
    · next h =>
      rw [binary32_one] at hv
      exact ⟨f32Lt_of_not_le h, by rw [binary32_one]; exact f32Sub_le_one hv.2 hdec⟩

end Binary32

/-! ### The value registers -/

/-- The bounds of a legal configuration that the registers' bounds rest on (R6). -/
theorem cfgLegal_capacities {c : Cfg} (h : cfgLegal c = true) : 16 ≤ cMain c ∧ 16 ≤ cRev c := by
  obtain ⟨hmain, hrev, -⟩ := (cfgLegal_iff c).1 h
  exact ⟨(sixteen_le_capacityOf_iff ..).2 ((capacityLegal_iff ..).1 hmain).2,
    (sixteen_le_capacityOf_iff ..).2 ((capacityLegal_iff ..).1 hrev).2⟩

/-- In a legal binary32 configuration the increment of a time is not below 0 (R220). -/
theorem envIncrement_not_below {c : Cfg} {l : MathsLib} (hn : c.num = .binary32 l) (hm : c.nm = binary32 l)
    (hl : cfgLegal c = true) (v : NUM) : c.nm.lt (envIncrement c v) (c.nm.ofNat 0) = false := by
  obtain ⟨-, -, -, -, hfs, hmin, hle, -⟩ := (cfgLegal_iff c).1 hl
  rw [ofNat_zero hm]
  exact envIncrement_nonneg hn hfs hmin hle v

/-- Freezing, thawing, reversing and a sample leave the goal alone. -/
theorem ringFreeze_goal (m : Numerics) (cap : Nat) (rb : RingBuf) : (ringFreeze m cap rb).goal = rb.goal := by
  unfold ringFreeze
  split <;> rfl

theorem ringUnfreeze_goal (m : Numerics) (cap : Nat) (rb : RingBuf) : (ringUnfreeze m cap rb).goal = rb.goal := by
  unfold ringUnfreeze
  split <;> rfl

theorem ringSetReverse_goal (m : Numerics) (cap : Nat) (b : Bool) (rb : RingBuf) :
    (ringSetReverse m cap b rb).goal = rb.goal := by
  unfold ringSetReverse
  split <;> rfl

theorem ringWrite_goal (cap : Nat) (v : NUM) (rb : RingBuf) : (ringWrite cap v rb).goal = rb.goal := by
  unfold ringWrite
  split <;> rfl

theorem dlProcess_goal (m : Numerics) (cap : Nat) (topo : Topology) (fb mix x : NUM) (rb : RingBuf) :
    (dlProcess m cap topo fb mix x rb).2.goal = rb.goal := by
  obtain ⟨-, -, -, hadvance, -⟩ := ringAdvance_frame m cap
    (ringServo m (ringWrite cap (m.add x (m.mul (ringRead m cap rb).1 fb)) (ringRead m cap rb).2))
  exact hadvance.trans ((ringServo_frame ..).2.2.1.trans (ringWrite_goal ..))

theorem setDelayFreeze_goal (c : Cfg) (v : NUM) (e : Engine) : (setDelayFreeze c v e).dl.rb.goal = e.dl.rb.goal := by
  rw [setDelayFreeze]
  split
  · exact ringFreeze_goal ..
  · exact ringUnfreeze_goal ..

theorem alloc_bounded {c : Cfg} {e : Engine} (h : Bounded c e) (al : List Nat) : Bounded c { e with alloc := al } := by
  obtain ⟨⟩ := h
  constructor <;> assumption

/-- An update writes its register by a clamp, a maximum or the increment's formula, or writes none of the bounded ones. -/
theorem EngineUpdate.bounded {c : Cfg} {l : MathsLib} (hn : c.num = .binary32 l) (hm : c.nm = binary32 l)
    (hl : cfgLegal c = true) {v : NUM} {e e' : Engine} (hu : EngineUpdate c v e e') (h : Bounded c e) : Bounded c e' := by
  obtain ⟨h01, hres, hgain, -⟩ := literal_bounds_ordered hm
  cases hu with
  | attackMs => exact { h with increment := envIncrement_not_below hn hm hl v }
  | releaseMs => exact { h with decrement := envIncrement_not_below hn hm hl v }
  | harmSpacing => exact { h with }
  | harmExponent => exact { h with exponent := max_not_below hm .. }
  | filterCutoff => exact { h with cutoff := fun hle => clamp_within hm hle v }
  | filterResonance => exact { h with resonance := clamp_within hm hres v }
  | filterGainDb => exact { h with gain := clamp_within hm hgain v }
  | filterType => exact { h with }
  | delayTime => exact { h with goal := clamp_within hm (delay_bounds_ordered hm (cfgLegal_capacities hl).1) _ }
  | delayFeedback => exact { h with }
  | delayMix => exact { h with delay_mix := clamp_within hm h01 v }
  | delayFreeze => exact { h with goal := (setDelayFreeze_goal c v e).symm ▸ h.goal }
  | delayReverse => exact { h with goal := (ringSetReverse_goal ..).symm ▸ h.goal }
  | delayInterp => exact { h with }
  | delayTopology => exact { h with }
  | reverbRt60 => exact { h with decay := max_not_below hm .. }
  | reverbMix => exact { h with reverb_mix := clamp_within hm h01 v }

/-- A frame runs the envelopes, clamps the taps and leaves the other registers alone (R465). -/
theorem frame_bounded {c : Cfg} {l : MathsLib} (hm : c.nm = binary32 l) {e : Engine} (h : Bounded c e) :
    Bounded c (frame c e).2 := by
  obtain ⟨-, -, -, htap⟩ := literal_bounds_ordered hm
  refine { h with envelope := ?_, tap1 := clamp_within hm htap _, tap2 := clamp_within hm htap _, goal := ?_ }
  · intro w hw
    obtain ⟨k, -, v, hv, he⟩ := mixVoices_mem _ _ _ _ _ _ _ w hw
    rw [he]
    exact envProcess_within hm h.increment h.decrement (by rw [voiceGate_envVal]; exact h.envelope v hv)
  · exact (dlProcess_goal c.nm (cMain c) e.dl.topo e.dl.fb e.dl.mix _ e.dl.rb).symm ▸ h.goal

/-- What every frame keeps, any number of frames keep. -/
theorem frames_preserve {P : Engine → Prop} {c : Cfg} (hP : ∀ e, P e → P (frame c e).2) (b : Nat) {e : Engine} (h : P e) :
    P (frames c b e).2 := by
  induction b generalizing e with
  | zero => exact h
  | succ b ih => exact ih (hP e h)

/-! ### The pointers -/

theorem alloc_pointers {c : Cfg} {e : Engine} (h : Pointers c e) (al : List Nat) : Pointers c { e with alloc := al } :=
  ⟨h.delay, h.stage⟩

/-- The goal a delay time asks for is a number: a legal sample rate is finite and above 0. -/
theorem delayTime_notNaN {c : Cfg} {l : MathsLib} (hm : c.nm = binary32 l) (hl : cfgLegal c = true) {v : NUM}
    (hv : c.nm.isNaN v = false) : f32IsNaN (c.nm.mul v c.fs) = false := by
  obtain ⟨hmain, -, -, -, hfs, -⟩ := (cfgLegal_iff c).1 hl
  have hfin := ((capacityLegal_iff c c.delayMaxS).1 hmain).1
  rw [hm] at hfs hfin hv ⊢
  rw [isNaN_binary32] at hv
  exact f32Mul_notNaN hv (f32IsFinite_left_of_mul (isFinite_binary32 hfin)) ((f32Lt_pos_iff _).1 hfs).2.2

/-- An update with a number moves a goal by the clamp to [4, C − 4] and the read pointer by `wrap`, or moves neither. -/
theorem EngineUpdate.pointers {c : Cfg} {l : MathsLib} (hm : c.nm = binary32 l) (hl : cfgLegal c = true)
    (hcap : exactCapacities c) {v : NUM} (hv : c.nm.isNaN v = false) {e e' : Engine} (hok : EngineOk c e)
    (hu : EngineUpdate c v e e') (h : Pointers c e) : Pointers c e' := by
  obtain ⟨hmain, -⟩ := cfgLegal_capacities hl
  obtain ⟨hexact, -⟩ := hcap
  have hw := hok.delay.write_pointer
  have hd := h.delay
  cases hu with
  | delayTime =>
    have hgoal := clampDelay_inside l hmain hexact (delayTime_notNaN hm hl hv)
    rw [← hm] at hgoal
    exact ⟨{ hd with goal := hgoal }, h.stage⟩
  | delayFreeze =>
    refine ⟨?_, h.stage⟩
    show RingPointers c.nm (cMain c) (if boolFlag c.nm v = true then _ else _)
    rw [hm] at hd ⊢
    split
    · exact ringFreeze_pointers l hmain hexact hd
    · exact ringUnfreeze_pointers l hmain hexact hw hd
  | delayReverse =>
    have hrev := ringSetReverse_pointers l hmain hexact hw (hm ▸ hd) (boolFlag c.nm v)
    rw [← hm] at hrev
    exact ⟨hrev, h.stage⟩
  | delayInterp => exact ⟨{ hd with }, h.stage⟩
  | reverbRt60 =>
    refine ⟨hd, fun st' hst' => ?_⟩
    obtain ⟨st, hst, g, rfl⟩ := setStageGains_mem hst'
    exact h.stage st hst
  | _ => exact ⟨hd, h.stage⟩

/-- A frame runs a sample through the delay line and through each stage, which keeps their pointers. -/
theorem frame_pointers {c : Cfg} {l : MathsLib} (hm : c.nm = binary32 l) (hl : cfgLegal c = true)
    (hcap : exactCapacities c) {e : Engine} (hok : EngineOk c e) (h : Pointers c e) : Pointers c (frame c e).2 := by
  obtain ⟨hmain, hrev⟩ := cfgLegal_capacities hl
  have hsample : ∀ {cap : Nat} {rb : RingBuf}, 16 ≤ cap → cap < 2 ^ 24 → RingOk c.nm cap rb → RingPointers c.nm cap rb →
      ∀ topo fb mix x, RingPointers c.nm cap (dlProcess c.nm cap topo fb mix x rb).2 := by
    rw [hm]
    exact fun h16 h24 hr hp => dlProcess_pointers l h16 h24 hr hp
  refine ⟨hsample hmain hcap.1 hok.delay h.delay e.dl.topo e.dl.fb e.dl.mix _, fun st' hst' => ?_⟩
  obtain ⟨st, hst, s, rfl⟩ := runStages_mem _ _ _ _ _ hst'
  exact hsample hrev hcap.2 (hok.stage st hst).ring (h.stage st hst) .allpass st.g NUM.zero s

end Sys2Proof.Machine

open Sys2Proof Sys2Proof.Machine Sys2Proof.Safety

/-- Settles O60: only RENDER reaches the engine. It changes the held notes, applies at most one update and runs frames;
each of the three keeps the bounds, and, together with the soundness of the engine, the pointers. -/
theorem stepKeepsValuesBounded : Obligations.StepKeepsValuesBounded := by
  unfold Obligations.StepKeepsValuesBounded
  intro s t hb hinv hstep
  obtain ⟨l, hn, hm⟩ := isBinary32_nm hb
  have hl := hinv.legal
  obtain ⟨hmain, hrev⟩ := cfgLegal_capacities hl
  obtain ⟨-, -, -, -, -, -, -, -, -, hvoices, -⟩ := (cfgLegal_iff s.cfg).1 hl
  rcases step_engine hstep with ⟨hc, he⟩ | ⟨b, rest, hr⟩
  · rw [hc, he]
    exact ⟨id, fun _ _ => id⟩
  · obtain ⟨hc, al, e, n, hal, hupd, ht⟩ := execRender_engine hr
    rw [hc, ht]
    have hok0 : EngineOk s.cfg { s.engine with alloc := al } := alloc_engineOk hvoices hinv.engine hal
    refine ⟨fun hB => frames_preserve (fun _ => frame_bounded hm) n ?_, fun hcap hnan hP => ?_⟩
    · have hB0 := alloc_bounded hB al
      rcases hupd with rfl | ⟨u, -, hu⟩
      · exact hB0
      · exact hu.bounded hn hm hl hB0
    · have hP0 := alloc_pointers hP al
      have hsound : EngineOk s.cfg e ∧ Pointers s.cfg e := by
        rcases hupd with rfl | ⟨u, hhead, hu⟩
        · exact ⟨hok0, hP0⟩
        · exact ⟨hu.engineOk (by omega) hok0, hu.pointers hm hl hcap (hnan u hhead) hok0 hP0⟩
      exact (frames_preserve (P := fun e => EngineOk s.cfg e ∧ Pointers s.cfg e)
        (fun _ h => ⟨frame_engineOk (by omega) (by omega) h.1, frame_pointers hm hl hcap h.1 h.2⟩) n hsound).2
end

section
/-! SUPPORT. What a step can do to the state as a whole: the operations of the host side, and RENDER as one record of what it changes (20_memory.md R120 to R124, 47_parameter_interface.md R410 to R412, 48_engine_render.md R460). -/

namespace Sys2Proof.Machine

open Sys2Proof.Safety

/-! ### A MIDI or register-port instruction -/

/-- What a host instruction makes of a running block: nothing, a note entry, a SET-commit or a GET (R410, R412, R450 to R454). -/
inductive HostEffect (s : State) : Instr → State → Prop
  | nothing (i : Instr) : HostEffect s i s
  | noteOff (chan note vel : Nat) : HostEffect s (.midiNoteOff chan note vel) (pushNote (noteOffWord note) s)
  | noteOn (chan note vel : Nat) : HostEffect s (.midiNoteOn chan note vel) (pushNote (noteOnWord note) s)
  | cc (chan index value : Nat) (d : Descriptor) (bound : ccBinding s.cfg index = some d) :
      HostEffect s (.midiCc chan index value) (setCommit .midi d.id (ccQuantize value) s)
  | set (a : HostAgent) (id q : Nat) : HostEffect s (.set a id q) (setCommit a id q s)
  | get (a : HostAgent) (id q : Nat) : HostEffect s (.get a id q) (getParameter a id s)

theorem HostEffect.onChannel {s k : State} {i : Instr} (h : HostEffect s i k) (chan : Nat) :
    HostEffect s i (onChannel chan s k) := by
  unfold Machine.onChannel
  split
  · exact h
  · exact .nothing i

theorem HostEffect.ccSet (s : State) (chan index value : Nat) :
    HostEffect s (.midiCc chan index value) (ccSet index value s) := by
  unfold Machine.ccSet
  split
  · exact .nothing _
  · next d hd => exact .cc chan index value d hd

/-- A step of a running block to a state the instruction can reach. -/
theorem HostEffect.of_whenRunning {s k t : State} {i : Instr} (hk : HostEffect s i k)
    (h : whenRunning s (.next k) = .next t) : HostEffect s i t := by
  obtain ⟨-, -, hn⟩ := whenRunning_next h
  cases hn
  exact hk

theorem exec_hostInstr_effect {i : Instr} (hi : isHostInstr i = true) {s t : State} (h : exec i s = .next t) :
    HostEffect s i t := by
  cases i with
  | midiNoteOff chan note vel => exact .of_whenRunning ((HostEffect.noteOff chan note vel).onChannel chan) h
  | midiNoteOn chan note vel => exact .of_whenRunning ((HostEffect.noteOn chan note vel).onChannel chan) h
  | midiCc chan index value => exact .of_whenRunning ((HostEffect.ccSet s chan index value).onChannel chan) h
  | set a id q => exact .of_whenRunning (.set a id q) h
  | get a id q => exact .of_whenRunning (.get a id q) h
  | midiPolyPressure | midiProgram | midiChannelPressure | midiPitchBend | midiSystem | midiNoStatus =>
    exact .of_whenRunning (.nothing _) h
  | _ => cases hi

/-! ### What SET, GET and the unknown-id policy change -/

/-- The unknown-id policy touches FAULT alone. -/
theorem unknownParameter_eq (s : State) :
    ∃ f, unknownParameter s = { s with fault := f } ∧ (f = s.fault ∨ f = some .unknownId) := by
  cases hp : s.cfg.unknownId with
  | ignore => exact ⟨s.fault, unknownParameter_ignore hp, .inl rfl⟩
  | fault =>
    cases hf : s.fault with
    | none => exact ⟨_, unknownParameter_fault hp hf, .inr rfl⟩
    | some d => exact ⟨some d, by rw [← hf]; simp [unknownParameter, hp, raiseFault_of_some hf], .inl rfl⟩

theorem getParameter_eq (a : HostAgent) (id : Nat) (s : State) :
    ∃ l f rs, getParameter a id s = { s with lock := l, fault := f, replies := rs } ∧
      (l = s.lock ∨ l = .free) ∧ (f = s.fault ∨ f = some .unknownId) := by
  rcases getParameter_cases a id s with ⟨-, h⟩ | ⟨-, h⟩ | ⟨q, -, -, -, h⟩
  · obtain ⟨f, he, hf⟩ := unknownParameter_eq s
    exact ⟨s.lock, f, s.replies, h.trans he, .inl rfl, hf⟩
  · exact ⟨s.lock, s.fault, s.replies, h, .inl rfl, .inl rfl⟩
  · exact ⟨.free, s.fault, _, h, .inr rfl, .inl rfl⟩

theorem pendOf_setPush_other {a b : HostAgent} (h : b ≠ a) (s : State) : pendOf b (setPush a s) = pendOf b s := by
  unfold setPush
  split
  · exact pendOf_setPend_other h ..
  · rfl

/-- A write of one table entry leaves the others' values. -/
theorem readTable_of_write {s t : State} {id q k : Nat}
    (h : t.tbl = s.tbl.map (fun e => if e.id = id then { e with q := q } else e)) (hk : k ≠ id) :
    readTable k t = readTable k s := by
  have hid : (fun e : TblEntry => e.id == k) ∘ (fun e => if e.id = id then { e with q := q } else e) = fun e => e.id == k := by
    funext e
    simp only [Function.comp_apply]
    split <;> rfl
  rw [readTable, h, List.find?_map, hid, readTable]
  cases hf : s.tbl.find? (fun e => e.id == k) with
  | none => rfl
  | some e =>
    have he : e.id = k := by simpa using List.find?_some hf
    simp [he, hk]

/-- The frame of both steps of a SET: the engine, the output, the note channel, the answers and the schedule stay, and of the
table and the pending updates what is not its id's or its agent's (R410, R411). -/
structure CommitFrame (a : HostAgent) (id : Nat) (s t : State) : Prop where
  cfg : t.cfg = s.cfg
  engine : t.engine = s.engine
  out : t.out = s.out
  inbox : t.inbox = s.inbox
  shut : t.shut = s.shut
  noteq : t.noteq = s.noteq
  replies : t.replies = s.replies
  lock : t.lock = s.lock ∨ t.lock = .free
  pending : ∀ b, b ≠ a → pendOf b t = pendOf b s
  table : ∀ k, k ≠ id → readTable k t = readTable k s

theorem setPush_frame (a : HostAgent) (id : Nat) (s : State) : CommitFrame a id s (setPush a s) where
  cfg := setPush_cfg ..
  engine := setPush_engine ..
  out := setPush_out ..
  inbox := setPush_inbox ..
  shut := setPush_shut ..
  noteq := setPush_noteq ..
  replies := setPush_replies ..
  lock := .inl (setPush_lock ..)
  pending := fun _ hb => pendOf_setPush_other hb s
  table := fun k _ => by rw [readTable, setPush_tbl, readTable]

theorem commitLocked_frame (a : HostAgent) (id q : Nat) (s : State) : CommitFrame a id s (commitLocked a id q s) where
  cfg := commitLocked_cfg ..
  engine := commitLocked_engine ..
  out := commitLocked_out ..
  inbox := commitLocked_inbox ..
  shut := commitLocked_shut ..
  noteq := commitLocked_noteq ..
  replies := commitLocked_replies ..
  lock := .inr (commitLocked_lock ..)
  pending := fun _ hb => pendOf_commitLocked_other hb ..
  table := fun _ hk => readTable_of_write (commitLocked_tbl ..) hk

theorem CommitFrame.trans {a : HostAgent} {id : Nat} {s t u : State} (h : CommitFrame a id s t) (h' : CommitFrame a id t u) :
    CommitFrame a id s u where
  cfg := h'.cfg.trans h.cfg
  engine := h'.engine.trans h.engine
  out := h'.out.trans h.out
  inbox := h'.inbox.trans h.inbox
  shut := h'.shut.trans h.shut
  noteq := h'.noteq.trans h.noteq
  replies := h'.replies.trans h.replies
  lock := h'.lock.elim (fun e => h.lock.imp e.trans e.trans) .inr
  pending := fun b hb => (h'.pending b hb).trans (h.pending b hb)
  table := fun k hk => (h'.table k hk).trans (h.table k hk)

theorem setCommit_frame (a : HostAgent) (id q : Nat) (s : State) : CommitFrame a id s (setCommit a id q s) := by
  have hpush := setPush_frame a id s
  rcases setCommit_cases a id q s with ⟨-, h⟩ | ⟨-, -, h⟩ | ⟨-, -, h⟩ <;> rw [h]
  · obtain ⟨f, he, -⟩ := unknownParameter_eq (setPush a s)
    rw [he]
    exact { hpush with }
  · exact hpush
  · exact hpush.trans (commitLocked_frame ..)

/-- A CC's descriptor is one of PTABLE's. -/
theorem knownId_of_ccBinding {c : Cfg} {k : Nat} {d : Descriptor} (h : ccBinding c k = some d) : knownId c d.id = true := by
  unfold ccBinding at h
  split at h
  · cases h
  · exact List.find?_isSome.2 ⟨d, List.mem_of_find?_eq_some h, beq_self_eq_true d.id⟩

/-- Only an unknown id brings SET-commit to FAULT. -/
theorem setCommit_fault_of_known {id : Nat} {s : State} (hk : knownId s.cfg id = true) (a : HostAgent) (q : Nat) :
    (setCommit a id q s).fault = s.fault := by
  rcases setCommit_cases a id q s with ⟨hu, -⟩ | ⟨-, -, h⟩ | ⟨-, -, h⟩
  · rw [hk] at hu
    cases hu
  · rw [h, setPush_fault]
  · rw [h, commitLocked_fault, setPush_fault]

theorem HostEffect.engine_out {s t : State} {i : Instr} (h : HostEffect s i t) : t.engine = s.engine ∧ t.out = s.out := by
  cases h with
  | nothing | noteOff | noteOn => exact ⟨rfl, rfl⟩
  | cc chan index value d => exact ⟨(setCommit_frame ..).engine, (setCommit_frame ..).out⟩
  | set a id q => exact ⟨(setCommit_frame ..).engine, (setCommit_frame ..).out⟩
  | get a id q =>
    obtain ⟨l, f, rs, he, -⟩ := getParameter_eq a id s
    rw [he]
    exact ⟨rfl, rfl⟩

/-! ### Samples -/

/-- Engines with the same delay memory and the same stage buffers hold the same samples. -/
theorem sameSamples_of_rings {e e' : Engine} (hbuf : e'.dl.rb.buf = e.dl.rb.buf)
    (hrings : e'.rv.stages.map (fun st => st.rb) = e.rv.stages.map (fun st => st.rb)) : sameSamples e e' := by
  refine ⟨fun i => by rw [hbuf], by simpa using congrArg List.length hrings, fun j st st' h h' i => ?_⟩
  have hj := congrArg (fun l => l[j]?) hrings
  simp only [List.getElem?_map, h, h', Option.map_some, Option.some.injEq] at hj
  rw [hj]

/-! ### A step -/

/-- What a step that is not a RENDER makes of the state whose schedule has moved on: nothing, a word put on a channel, a
SET-push, or a host instruction. -/
inductive HostStep (s : State) : State → Prop
  | stay : HostStep s s
  | note (w : BitVec 16) : HostStep s (pushNote w s)
  | update (u : Update) (byte_id : u.id < 256) : HostStep s (pushUpdate u s)
  | push (a : HostAgent) : HostStep s (setPush a s)
  | instr (i : Instr) (t : State) (effect : HostEffect s i t) : HostStep s t

/-- A step is a RENDER whose word heads the schedule, or a step of the host side; nothing but the schedule and the end of
the run has changed before it. -/
theorem step_render_or_host {s t : State} (h : step s = .next t) :
    (∃ x rest, s.inbox = .word (.c x) :: rest ∧ exec (.render x.toNat) { s with inbox := rest } = .next t) ∨
    ∃ rest b, HostStep { s with inbox := rest, shut := b } t := by
  obtain ⟨-, -, ⟨-, rfl⟩ | ⟨a, rest, -, rfl⟩ | ⟨rest, -, rfl⟩ | ⟨w, rest, hi, hw⟩⟩ := step_cases h
  · exact .inr ⟨t.inbox, t.shut, .stay⟩
  · exact .inr ⟨rest, s.shut, .push a⟩
  · exact .inr ⟨rest, true, .stay⟩
  · rcases stepWord_cases hw with ⟨a, -, -, -, rfl⟩ | rfl | rfl | ⟨x, -, rfl⟩ | ⟨x, -, rfl⟩ | ⟨i, ho | ⟨x, rfl⟩, hd, hx⟩
    · exact .inr ⟨s.inbox, s.shut, .push a⟩
    · exact .inr ⟨t.inbox, t.shut, .stay⟩
    · exact .inr ⟨rest, s.shut, .stay⟩
    · exact .inr ⟨rest, s.shut, .note x⟩
    · exact .inr ⟨rest, s.shut, .update _ (bitField_lt ..)⟩
    · exact .inr ⟨rest, s.shut, .instr i t (exec_hostInstr_effect (isHostInstr_of_owner ho hd) hx)⟩
    · cases hd
      exact .inl ⟨x, rest, hi, hx⟩

theorem HostStep.engine_out {s t : State} (h : HostStep s t) : t.engine = s.engine ∧ t.out = s.out := by
  cases h with
  | stay | note | update => exact ⟨rfl, rfl⟩
  | push a => exact ⟨setPush_engine .., setPush_out ..⟩
  | instr i t effect => exact effect.engine_out

/-! ### RENDER -/

/-- The update half of RENDER: the head of the update channel is gone, and the engine or FAULT may have changed. -/
theorem drainUpdate_eq {s t : State} (h : drainUpdate s = .next t) :
    ∃ e f, t = { s with updq := s.updq.tail, engine := e, fault := f } ∧ (f = s.fault ∨ f = some .unknownId) := by
  have hunknown : ∀ rest, ∃ e f, unknownParameter { s with updq := rest } = { s with updq := rest, engine := e, fault := f } ∧
      (f = s.fault ∨ f = some .unknownId) := fun rest => by
    obtain ⟨f, he, hf⟩ := unknownParameter_eq { s with updq := rest }
    exact ⟨s.engine, f, he, hf⟩
  unfold drainUpdate popUpdate at h
  cases hq : s.updq with
  | nil =>
    simp only [hq] at h
    cases h
    exact ⟨s.engine, s.fault, by rw [List.tail_nil, ← hq], .inl rfl⟩
  | cons u rest =>
    simp only [hq, applyUpdate] at h
    split at h
    · rcases applyKnown_cases h with ⟨e, -, rfl⟩ | rfl
      · exact ⟨e, s.fault, rfl, .inl rfl⟩
      · exact hunknown rest
    · cases h
      exact hunknown rest

/-- RENDER takes the heads off the two channels and changes at most the engine, FAULT and the end of OUT besides (R123,
R124, R460). -/
theorem execRender_eq {b : Nat} {s t : State} (h : execRender b s = .next t) :
    ∃ e f ys, t = { s with noteq := s.noteq.tail, updq := s.updq.tail, engine := e, fault := f, out := s.out ++ ys } ∧
      (f = none ∨ f = some .unknownId) := by
  obtain ⟨hf, -, s1, s2, h1, h2, h3⟩ := execRender_cases h
  obtain ⟨al, hn, -⟩ := drainNote_next s
  rw [hn] at h1
  cases h1
  obtain ⟨e, f, rfl, hfault⟩ := drainUpdate_eq h2
  have hfault : f = none ∨ f = some .unknownId := hfault.imp_left (fun h => h.trans hf)
  rcases h3 with ⟨-, -, rfl⟩ | ⟨-, hx⟩
  · exact ⟨e, f, [], by rw [List.append_nil]; rfl, hfault⟩
  · rw [emitFrames_next hx]
    exact ⟨_, f, _, rfl, hfault⟩

end Sys2Proof.Machine

open Sys2Proof Sys2Proof.Machine Sys2Proof.Safety

/-- Settles O49: a step of the host side leaves the configuration alone, and so does RENDER. -/
theorem noStepChangesConfiguration : Obligations.NoStepChangesConfiguration := by
  unfold Obligations.NoStepChangesConfiguration
  intro s t h
  rcases step_engine h with ⟨hc, -⟩ | ⟨b, rest, hr⟩
  · exact hc
  · exact (execRender_engine hr).1

/-- Settles O50: RENDER appends its frames, and the operations of the host side touch neither OUT nor the engine. -/
theorem stepOnlyAppendsFrames : Obligations.StepOnlyAppendsFrames := by
  unfold Obligations.StepOnlyAppendsFrames
  intro s t h
  rcases step_render_or_host h with ⟨x, rest, hi, hr⟩ | ⟨rest, b, hs⟩
  · obtain ⟨e, f, ys, rfl, -⟩ := execRender_eq hr
    exact ⟨⟨ys, rfl⟩, fun hnot => absurd hi (hnot x rest)⟩
  · obtain ⟨hengine, hout⟩ := hs.engine_out
    exact ⟨⟨[], by rw [List.append_nil]; exact hout⟩, fun _ => ⟨hout, hengine⟩⟩

/-- Settles O46: of the four things a host instruction can do, a note entry reaches the note channel alone, GET the answers,
LOCK and FAULT, and SET-commit has the frame `setCommit_frame`. -/
theorem hostInstructionFrame : Obligations.HostInstructionFrame := by
  unfold Obligations.HostInstructionFrame
  intro i s t hi h
  have hsame : sameSamples s.engine s.engine := sameSamples_of_rings rfl rfl
  cases exec_hostInstr_effect hi h with
  | nothing =>
    exact ⟨rfl, rfl, hsame, rfl, rfl, rfl, .inl rfl, fun _ _ _ _ => ⟨fun _ _ => rfl, fun _ _ => rfl⟩,
      fun _ _ _ _ => ⟨rfl, fun _ _ => rfl⟩, fun _ _ => ⟨rfl, rfl, rfl, rfl⟩, fun _ _ => rfl, fun _ => rfl, fun _ _ => rfl⟩
  | noteOff chan note vel =>
    exact ⟨rfl, rfl, hsame, rfl, rfl, rfl, .inl rfl, nofun, nofun, fun _ _ => ⟨rfl, rfl, rfl, rfl⟩,
      fun hne => absurd rfl (hne chan note vel), fun _ => rfl, fun _ _ => rfl⟩
  | noteOn chan note vel =>
    exact ⟨rfl, rfl, hsame, rfl, rfl, rfl, .inl rfl, nofun, nofun, fun _ _ => ⟨rfl, rfl, rfl, rfl⟩,
      fun _ hne => absurd rfl (hne chan note vel), fun _ => rfl, fun _ _ => rfl⟩
  | cc chan index value d hd =>
    have hc := setCommit_frame .midi d.id (ccQuantize value) s
    refine ⟨hc.cfg, hc.engine, by rw [hc.engine]; exact hsame, hc.out, hc.inbox, hc.shut, hc.lock, nofun, ?_,
      fun _ hne => absurd rfl (hne chan index value), fun _ _ => hc.noteq, fun _ => hc.replies, ?_⟩
    · rintro ch k q ⟨⟩
      exact ⟨hc.pending .ui nofun, fun j hj => hc.table j (hj d hd)⟩
    · exact fun _ _ => setCommit_fault_of_known (knownId_of_ccBinding hd) ..
  | set a id q =>
    have hc := setCommit_frame a id q s
    refine ⟨hc.cfg, hc.engine, by rw [hc.engine]; exact hsame, hc.out, hc.inbox, hc.shut, hc.lock, ?_, nofun,
      fun hne => absurd rfl (hne a id q), fun _ _ => hc.noteq, fun _ => hc.replies, fun hne => absurd rfl (hne a id q)⟩
    rintro b j r ⟨⟩
    exact ⟨hc.pending, hc.table⟩
  | get a id q =>
    obtain ⟨l, f, rs, he, hl, -⟩ := getParameter_eq a id s
    rw [he]
    exact ⟨rfl, rfl, hsame, rfl, rfl, rfl, hl, nofun, nofun, fun _ _ => ⟨rfl, rfl, rfl, rfl⟩, fun _ _ => rfl,
      fun hne => absurd rfl (hne a id q), fun _ hne => absurd rfl (hne a id q)⟩
end

section
/-! SUPPORT. Every operation of a step keeps a sound block sound (10_state.md R50). -/

namespace Sys2Proof.Machine

open Sys2Proof.Safety

/-! ### What a valid table gives (R404) -/

/-- The checks that a valid table has passed. -/
theorem validateTable_none {c : Cfg} (h : validateTable c = none) :
    (∀ k, k ∈ c.ptable.map (fun d => d.id) ↔ k ≤ 16) ∧ ∀ d ∈ c.ptable, ¬ descriptorBad c.nm d = true := by
  have hid : (c.ptable.map (fun d => d.id)).Nodup := by
    by_contra hn
    cases h.symm.trans (validateTable_dupId hn)
  have htag : (c.ptable.map (fun d => d.tag)).Nodup := by
    by_contra hn
    cases h.symm.trans (validateTable_dupTag hid hn)
  rw [validateTable_of_nodup hid htag] at h
  split at h
  · next hok => exact ⟨(idsExact_iff _).1 hok.1, hok.2⟩
  · cases h

/-- A known id is one of R401's range. -/
theorem id_le_of_known {c : Cfg} (h : validateTable c = none) {id : Nat} (hk : knownId c id = true) : id ≤ 16 := by
  obtain ⟨d, hd, he⟩ := List.find?_isSome.1 hk
  rw [← eq_of_beq he]
  exact ((validateTable_none h).1 d.id).1 (List.mem_map_of_mem hd)

/-! ### The host side -/

theorem pushNote_hostOk {s : State} (h : HostOk s) (hd : 1 ≤ s.cfg.noteDepth) (w : BitVec 16) : HostOk (pushNote w s) :=
  { h with notes := pushBounded_length_le hd h.notes w }

theorem pushUpdate_hostOk {s : State} (h : HostOk s) (hd : 1 ≤ s.cfg.updDepth) {u : Update} (hu : u.id < 256) :
    HostOk (pushUpdate u s) :=
  { h with
    updates := pushBounded_length_le hd h.updates u
    update_ids := fun x hx => (mem_pushBounded hx).elim (h.update_ids x) (fun he => he ▸ hu) }

/-- A pending update of a known id, or none, is a sound one. -/
theorem setPend_hostOk {s : State} (h : HostOk s) (a : HostAgent) {p : Option Update}
    (hp : ∀ u, p = some u → knownId s.cfg u.id = true) : HostOk (setPend a p s) := by
  obtain ⟨hids, hq, hlock, hpend, hupd, huid, hnotes⟩ := h
  refine ⟨by simpa using hids, by simpa using hq, by simpa using hlock, fun b u hb => ?_, by simpa using hupd,
    by simpa using huid, by simpa using hnotes⟩
  rw [setPend_cfg]
  by_cases hba : b = a
  · subst hba
    exact hp u (by rw [← hb, pendOf_setPend_same])
  · exact hpend b u (by rw [← hb, pendOf_setPend_other hba])

theorem setPush_hostOk {s : State} (h : HostOk s) (hd : 1 ≤ s.cfg.updDepth) (ht : validateTable s.cfg = none) (a : HostAgent) :
    HostOk (setPush a s) := by
  cases hp : pendOf a s with
  | none => rw [setPush_of_none hp]; exact h
  | some u =>
    rw [setPush_of_some hp]
    have hu : u.id ≤ 16 := id_le_of_known ht (h.pending a u hp)
    exact setPend_hostOk (pushUpdate_hostOk h hd (by omega)) a nofun

theorem writeTable_hostOk {s : State} (h : HostOk s) (id : Nat) {q : Nat} (hq : q ≤ QMAX) : HostOk (writeTable id q s) := by
  refine { h with ids := ?_, quantized := ?_ }
  · rw [writeTable_tbl, List.map_map, writeTable_cfg, ← h.ids]
    refine List.map_congr_left fun e _ => ?_
    simp only [Function.comp_apply]
    split <;> rfl
  · intro e' he'
    obtain ⟨e, he, rfl⟩ := List.mem_map.1 he'
    split
    · exact hq
    · exact h.quantized e he

theorem commitLocked_hostOk {s : State} (h : HostOk s) (a : HostAgent) {id q : Nat} (hk : knownId s.cfg id = true)
    (hq : q ≤ QMAX) : HostOk (commitLocked a id q s) := by
  have hpend : HostOk (setPend a (some { id := id, v := resolveId s.cfg id q }) (writeTable id q s)) :=
    setPend_hostOk (writeTable_hostOk h id hq) a fun u hu => by cases hu; exact hk
  cases a <;> exact { hpend with unlocked := rfl }

/-! ### The invariant -/

/-- What keeps the configuration and the engine of a sound block needs only a sound host side and the one fault of R504. -/
theorem inv_of_host {s t : State} (h : Inv s) (hc : t.cfg = s.cfg) (he : t.engine = s.engine) (hh : HostOk t)
    (hf : t.fault = none ∨ t.fault = some .unknownId) : Inv t := by
  refine ⟨?_, ?_, hh, ?_, hf⟩
  · rw [hc]; exact h.legal
  · rw [hc]; exact h.table
  · rw [hc, he]; exact h.engine

/-- The depths of the channels of a sound block (R6). -/
theorem inv_depths {s : State} (h : Inv s) : 1 ≤ s.cfg.updDepth ∧ 1 ≤ s.cfg.noteDepth := by
  obtain ⟨-, -, -, -, -, -, -, -, -, -, -, hupd, hnote, -⟩ := (cfgLegal_iff s.cfg).1 h.legal
  exact ⟨hupd, hnote⟩

theorem setPush_inv {s : State} (h : Inv s) (a : HostAgent) : Inv (setPush a s) :=
  inv_of_host h (setPush_cfg ..) (setPush_engine ..) (setPush_hostOk h.host (inv_depths h).1 h.table a)
    (by rw [setPush_fault]; exact h.faults)

theorem inv_with_fault {s : State} (h : Inv s) {f : Option FaultCode} (hf : f = s.fault ∨ f = some .unknownId) :
    Inv { s with fault := f } :=
  inv_of_host h rfl rfl { h.host with } (hf.elim (fun he => he ▸ h.faults) .inr)

theorem unknownParameter_inv {s : State} (h : Inv s) : Inv (unknownParameter s) := by
  obtain ⟨f, he, hf⟩ := unknownParameter_eq s
  rw [he]
  exact inv_with_fault h hf

theorem setCommit_inv {s : State} (h : Inv s) (a : HostAgent) (id q : Nat) : Inv (setCommit a id q s) := by
  have hpush : Inv (setPush a s) := setPush_inv h a
  rcases setCommit_cases a id q s with ⟨-, he⟩ | ⟨-, -, he⟩ | ⟨hk, -, he⟩ <;> rw [he]
  · exact unknownParameter_inv hpush
  · exact hpush
  · exact inv_of_host hpush (commitLocked_cfg ..) (commitLocked_engine ..)
      (commitLocked_hostOk hpush.host a (by rw [setPush_cfg]; exact hk) (saturateQ_le q))
      (by rw [commitLocked_fault]; exact hpush.faults)

theorem getParameter_inv {s : State} (h : Inv s) (a : HostAgent) (id : Nat) : Inv (getParameter a id s) := by
  obtain ⟨l, f, rs, he, hl, hf⟩ := getParameter_eq a id s
  rw [he]
  have hfault : Inv { s with fault := f } := inv_with_fault h hf
  exact inv_of_host h rfl rfl { h.host with unlocked := hl.elim (fun e => e.trans h.host.unlocked) (fun e => e) } hfault.faults

theorem HostEffect.inv {s t : State} {i : Instr} (he : HostEffect s i t) (h : Inv s) : Inv t := by
  cases he with
  | nothing => exact h
  | noteOff | noteOn => exact inv_of_host h rfl rfl (pushNote_hostOk h.host (inv_depths h).2 _) h.faults
  | cc chan index value d => exact setCommit_inv h ..
  | set a id q => exact setCommit_inv h a id q
  | get a id q => exact getParameter_inv h a id

theorem HostStep.inv {s t : State} (hs : HostStep s t) (h : Inv s) : Inv t := by
  cases hs with
  | stay => exact h
  | note w => exact inv_of_host h rfl rfl (pushNote_hostOk h.host (inv_depths h).2 w) h.faults
  | update u hu => exact inv_of_host h rfl rfl (pushUpdate_hostOk h.host (inv_depths h).1 hu) h.faults
  | push a => exact setPush_inv h a
  | instr i t effect => exact effect.inv h

/-- An engine that the entries RENDER pops can make of that of `s`: other held notes, and at most the update at the head of
its channel applied (R460). -/
def EntriesApplied (s : State) (e : Engine) : Prop :=
  ∃ al, (al = s.engine.alloc ∨ ∃ k, k < 128 ∧ (al = removeNote k s.engine.alloc ∨ al = addNote s.cfg.n k s.engine.alloc)) ∧
    (e = { s.engine with alloc := al } ∨
      ∃ u, s.updq.head? = some u ∧ EngineUpdate s.cfg u.v { s.engine with alloc := al } e)

theorem EntriesApplied.engineOk {s : State} {e : Engine} (he : EntriesApplied s e) (h : Inv s) : EngineOk s.cfg e := by
  obtain ⟨hmain, -⟩ := cfgLegal_capacities h.legal
  obtain ⟨-, -, -, -, -, -, -, -, -, hvoices, -⟩ := (cfgLegal_iff s.cfg).1 h.legal
  obtain ⟨al, hal, hupd⟩ := he
  have halloc : EngineOk s.cfg { s.engine with alloc := al } := alloc_engineOk hvoices h.engine hal
  rcases hupd with rfl | ⟨u, -, hu⟩
  · exact halloc
  · exact hu.engineOk (by omega) halloc

/-- The engine RENDER leaves in a sound block is sound: the entries and every frame keep it so. -/
theorem execRender_engineOk {b : Nat} {s t : State} (h : Inv s) (hr : execRender b s = .next t) : EngineOk s.cfg t.engine := by
  obtain ⟨hmain, hrev⟩ := cfgLegal_capacities h.legal
  obtain ⟨-, al, e, n, hal, hupd, ht⟩ := execRender_engine hr
  have he : EntriesApplied s e := ⟨al, hal, hupd⟩
  rw [ht]
  exact frames_engineOk (by omega) (by omega) n (he.engineOk h)

theorem execRender_inv {b : Nat} {s t : State} (h : Inv s) (hr : execRender b s = .next t) : Inv t := by
  have hengine := execRender_engineOk h hr
  obtain ⟨e, f, ys, rfl, hf⟩ := execRender_eq hr
  have hhost : HostOk { s with noteq := s.noteq.tail, updq := s.updq.tail } :=
    { h.host with
      updates := (List.tail_sublist _).length_le.trans h.host.updates
      update_ids := fun u hu => h.host.update_ids u (List.mem_of_mem_tail hu)
      notes := (List.tail_sublist _).length_le.trans h.host.notes }
  exact ⟨h.legal, h.table, { hhost with }, hengine, hf⟩

end Sys2Proof.Machine

open Sys2Proof Sys2Proof.Machine Sys2Proof.Safety

/-- Settles O58: the invariant does not speak of the schedule; the operations of the host side keep it, and so does RENDER. -/
theorem stepKeepsBlockSound : Obligations.StepKeepsBlockSound := by
  unfold Obligations.StepKeepsBlockSound
  intro s t hinv hstep
  have hmoved : ∀ rest b, Inv { s with inbox := rest, shut := b } := fun rest b =>
    inv_of_host hinv rfl rfl { hinv.host with } hinv.faults
  rcases step_render_or_host hstep with ⟨x, rest, -, hr⟩ | ⟨rest, b, hs⟩
  · exact execRender_inv (hmoved rest s.shut) hr
  · exact hs.inv (hmoved rest b)
end

section
/-! SUPPORT. What RENDER writes in the sample memories: nothing by the entries it pops, and by each frame one element at the write pointer of every running ring buffer (20_memory.md R101, 45_ring_buffer_delay.md R329). -/

namespace Sys2Proof.Machine

open Sys2Proof.Safety

/-! ### The entries -/

/-- What no channel entry changes: the sample memories and write pointers, the voices and the filter's taps (R430 to R446). -/
structure EntryFrame (e e' : Engine) : Prop where
  buf : e'.dl.rb.buf = e.dl.rb.buf
  w : e'.dl.rb.w = e.dl.rb.w
  rings : e'.rv.stages.map (fun st => st.rb) = e.rv.stages.map (fun st => st.rb)
  voices : e'.voices = e.voices
  z1 : e'.flt.z1 = e.flt.z1
  z2 : e'.flt.z2 = e.flt.z2
  fb : e'.flt.fb = e.flt.fb

theorem alloc_entryFrame (e : Engine) (al : List Nat) : EntryFrame e { e with alloc := al } :=
  ⟨rfl, rfl, rfl, rfl, rfl, rfl, rfl⟩

theorem setDelayFreeze_memory (c : Cfg) (v : NUM) (e : Engine) :
    (setDelayFreeze c v e).dl.rb.buf = e.dl.rb.buf ∧ (setDelayFreeze c v e).dl.rb.w = e.dl.rb.w := by
  rw [setDelayFreeze]
  split
  · exact ringFreeze_memory ..
  · exact ringUnfreeze_memory ..

theorem EngineUpdate.entryFrame {c : Cfg} {v : NUM} {e e' : Engine} (hu : EngineUpdate c v e e') : EntryFrame e e' := by
  cases hu with
  | delayFreeze =>
    obtain ⟨hbuf, hw⟩ := setDelayFreeze_memory c v e
    exact ⟨hbuf, hw, rfl, rfl, rfl, rfl, rfl⟩
  | delayReverse =>
    obtain ⟨hbuf, hw⟩ := ringSetReverse_memory c.nm (cMain c) (boolFlag c.nm v) e.dl.rb
    exact ⟨hbuf, hw, rfl, rfl, rfl, rfl, rfl⟩
  | reverbRt60 => exact ⟨rfl, rfl, setStageGains_rings .., rfl, rfl, rfl, rfl⟩
  | _ => exact ⟨rfl, rfl, rfl, rfl, rfl, rfl, rfl⟩

/-- A channel entry changes the held notes, or is one of the seventeen updates; it always runs to a next state. -/
theorem exec_channelInstr_cases {i : Instr} (hi : isChannelInstr i = true) (s : State) :
    ∃ e, exec i s = .next (withEngine e s) ∧
      ((∃ al, e = { s.engine with alloc := al }) ∨ ∃ v, EngineUpdate s.cfg v s.engine e) := by
  cases i with
  | nqNoteOff note => exact ⟨_, rfl, .inl ⟨_, rfl⟩⟩
  | nqNoteOn note => exact ⟨_, rfl, .inl ⟨_, rfl⟩⟩
  | updAttackMs v => exact ⟨_, rfl, .inr ⟨v, .attackMs⟩⟩
  | updReleaseMs v => exact ⟨_, rfl, .inr ⟨v, .releaseMs⟩⟩
  | updHarmSpacing v => exact ⟨_, rfl, .inr ⟨v, .harmSpacing⟩⟩
  | updHarmExponent v => exact ⟨_, rfl, .inr ⟨v, .harmExponent⟩⟩
  | updFilterCutoff v => exact ⟨_, rfl, .inr ⟨v, .filterCutoff⟩⟩
  | updFilterResonance v => exact ⟨_, rfl, .inr ⟨v, .filterResonance⟩⟩
  | updFilterGainDb v => exact ⟨_, rfl, .inr ⟨v, .filterGainDb⟩⟩
  | updFilterType v => exact ⟨_, rfl, .inr ⟨v, .filterType⟩⟩
  | updDelayTimeS v => exact ⟨_, rfl, .inr ⟨v, .delayTime⟩⟩
  | updDelayFeedback v => exact ⟨_, rfl, .inr ⟨v, .delayFeedback⟩⟩
  | updDelayMix v => exact ⟨_, rfl, .inr ⟨v, .delayMix⟩⟩
  | updDelayFreeze v => exact ⟨_, rfl, .inr ⟨v, .delayFreeze⟩⟩
  | updDelayReverse v => exact ⟨_, rfl, .inr ⟨v, .delayReverse⟩⟩
  | updDelayInterp v => exact ⟨_, rfl, .inr ⟨v, .delayInterp⟩⟩
  | updDelayTopology v => exact ⟨_, rfl, .inr ⟨v, .delayTopology⟩⟩
  | updReverbRt60S v => exact ⟨_, rfl, .inr ⟨v, .reverbRt60⟩⟩
  | updReverbMix v => exact ⟨_, rfl, .inr ⟨v, .reverbMix⟩⟩
  | _ => cases hi

/-! ### A ring buffer over `b` samples -/

/-- What `b` samples leave in a ring buffer of capacity `cap`: everything while frozen, else every element but the `b` from
the write pointer on, which has moved past them (R329). -/
structure RingMoved (cap b : Nat) (rb rb' : RingBuf) : Prop where
  frozen : rb'.frozen = rb.frozen
  kept : rb.frozen = true → rb'.w = rb.w ∧ rb'.buf = rb.buf
  moved : rb.frozen = false → rb'.w = (rb.w + b) % cap
  others : rb.frozen = false → ∀ i, ¬ writtenBy cap rb.w b i → rb'.buf.read i = rb.buf.read i

theorem RingMoved.refl {m : Numerics} {cap : Nat} {rb : RingBuf} (h : RingOk m cap rb) : RingMoved cap 0 rb rb :=
  ⟨rfl, fun _ => ⟨rfl, rfl⟩, fun _ => (Nat.mod_eq_of_lt h.write_pointer).symm, fun _ _ _ => rfl⟩

/-- One sample through a delay line writes the element at the write pointer, or nothing. -/
theorem dlProcess_ringMoved {m : Numerics} {cap : Nat} {rb : RingBuf} (h : RingOk m cap rb) (topo : Topology) (fb mix x : NUM) :
    RingMoved cap 1 rb (dlProcess m cap topo fb mix x rb).2 := by
  obtain ⟨hbuf, hw⟩ := dlProcess_memory m cap topo fb mix x rb
  refine ⟨congrArg Prod.fst (dlProcess_settings m cap topo fb mix x rb), fun hz => ?_, fun hz => ?_, fun hz i hi => ?_⟩
  · rw [if_pos hz] at hbuf hw
    exact ⟨hw, hbuf⟩
  · rw [hw, hz]
    rfl
  · have hne : i ≠ rb.w % cap := fun he => hi ⟨0, Nat.one_pos, he⟩
    rw [hbuf, hz]
    exact Memory.read_write_other hne _ h.memory

theorem RingMoved.trans {cap a b : Nat} {rb rb' rb'' : RingBuf} (h : RingMoved cap a rb rb') (h' : RingMoved cap b rb' rb'') :
    RingMoved cap (a + b) rb rb'' := by
  refine ⟨h'.frozen.trans h.frozen, fun hz => ?_, fun hz => ?_, fun hz i hi => ?_⟩
  · obtain ⟨hw, hbuf⟩ := h.kept hz
    obtain ⟨hw', hbuf'⟩ := h'.kept (h.frozen.trans hz)
    exact ⟨hw'.trans hw, hbuf'.trans hbuf⟩
  · rw [h'.moved (h.frozen.trans hz), h.moved hz, Nat.mod_add_mod, Nat.add_assoc]
  · have hfirst : ¬ writtenBy cap rb.w a i := fun ⟨k, hk, he⟩ => hi ⟨k, by omega, he⟩
    have hlater : ¬ writtenBy cap rb'.w b i := fun ⟨k, hk, he⟩ =>
      hi ⟨a + k, by omega, by rw [he, h.moved hz, Nat.mod_add_mod, Nat.add_assoc]⟩
    rw [h'.others (h.frozen.trans hz) i hlater, h.others hz i hfirst]

/-! ### The engine over `b` frames -/

/-- What `b` frames leave in the ring buffers of the block: those of the delay line and of the stage at each place. -/
structure EngineMoved (c : Cfg) (b : Nat) (e e' : Engine) : Prop where
  delay : RingMoved (cMain c) b e.dl.rb e'.dl.rb
  stages : ∀ (j : Nat) (st' : Stage), e'.rv.stages[j]? = some st' →
    ∃ st, e.rv.stages[j]? = some st ∧ RingMoved (cRev c) b st.rb st'.rb

theorem frame_engineMoved {c : Cfg} {e : Engine} (h : EngineOk c e) : EngineMoved c 1 e (frame c e).2 := by
  refine ⟨dlProcess_ringMoved h.delay e.dl.topo e.dl.fb e.dl.mix _, fun j st' hst' => ?_⟩
  obtain ⟨st, s, hst, rfl⟩ := runStages_get _ _ _ _ j st' hst'
  exact ⟨st, hst, dlProcess_ringMoved (h.stage st (List.mem_of_getElem? hst)).ring .allpass st.g NUM.zero s⟩

theorem EngineMoved.trans {c : Cfg} {a b : Nat} {e e' e'' : Engine} (h : EngineMoved c a e e') (h' : EngineMoved c b e' e'') :
    EngineMoved c (a + b) e e'' := by
  refine ⟨h.delay.trans h'.delay, fun j st'' hst'' => ?_⟩
  obtain ⟨st', hst', hm'⟩ := h'.stages j st'' hst''
  obtain ⟨st, hst, hm⟩ := h.stages j st' hst'
  exact ⟨st, hst, hm.trans hm'⟩

theorem frames_engineMoved {c : Cfg} (hm : 0 < cMain c) (hr : 0 < cRev c) (b : Nat) {e : Engine} (h : EngineOk c e) :
    EngineMoved c b e (frames c b e).2 := by
  induction b generalizing e with
  | zero => exact ⟨.refl h.delay, fun j st hst => ⟨st, hst, .refl (h.stage st (List.mem_of_getElem? hst)).ring⟩⟩
  | succ b ih =>
    have hall := (frame_engineMoved h).trans (ih (frame_engineOk hm hr h))
    rw [Nat.add_comm] at hall
    exact hall

/-- The entries RENDER pops move no sample. -/
theorem EntriesApplied.entryFrame {s : State} {e : Engine} (he : EntriesApplied s e) : EntryFrame s.engine e := by
  obtain ⟨al, -, rfl | ⟨u, -, hu⟩⟩ := he
  · exact alloc_entryFrame s.engine al
  · exact { hu.entryFrame with }

/-- A RENDER without a fault applies the entries and runs exactly its B frames (R460). -/
theorem execRender_frames {b : Nat} {s t : State} (h : execRender b s = .next t) (hf : t.fault = none) :
    ∃ e, EntriesApplied s e ∧ t.engine = (frames s.cfg b e).2 := by
  obtain ⟨-, -, s1, s2, h1, h2, h3⟩ := execRender_cases h
  obtain ⟨al, hn, hal⟩ := drainNote_next s
  rw [hn] at h1
  cases h1
  obtain ⟨hc, hupd⟩ := drainUpdate_cases h2
  have hc : s2.cfg = s.cfg := hc
  rcases h3 with ⟨c, hsome, rfl⟩ | ⟨-, hx⟩
  · rw [hf] at hsome
    cases hsome
  · rw [emitFrames_next hx, hc]
    exact ⟨s2.engine, ⟨al, hal, hupd⟩, rfl⟩

end Sys2Proof.Machine

open Sys2Proof Sys2Proof.Machine Sys2Proof.Safety

/-- Settles O47: a note entry changes the held notes, an update the registers of its row, and `EntryFrame` is what neither
touches. -/
theorem channelEntryFrame : Obligations.ChannelEntryFrame := by
  unfold Obligations.ChannelEntryFrame
  intro i s t hi h
  obtain ⟨e, hnext, he⟩ := exec_channelInstr_cases hi s
  rw [hnext] at h
  cases h
  have hframe : EntryFrame s.engine e := by
    rcases he with ⟨al, rfl⟩ | ⟨v, hu⟩
    · exact alloc_entryFrame s.engine al
    · exact hu.entryFrame
  exact ⟨rfl, sameSamples_of_rings hframe.buf hframe.rings, hframe.w, hframe.rings, hframe.voices, hframe.z1, hframe.z2, hframe.fb⟩

/-- Settles O48: the entries move no sample, and over the frames each ring buffer moves as `RingMoved` says; a stage is never
frozen. -/
theorem renderFrame : Obligations.RenderFrame := by
  unfold Obligations.RenderFrame
  intro s t b hinv h hf
  obtain ⟨hmain, hrev⟩ := cfgLegal_capacities hinv.legal
  obtain ⟨e, he, ht⟩ := execRender_frames h hf
  have hok := he.engineOk hinv
  have hentry := he.entryFrame
  have hmoved : EngineMoved s.cfg b e t.engine := ht ▸ frames_engineMoved (by omega) (by omega) b hok
  obtain ⟨e', f, ys, rfl, -⟩ := execRender_eq h
  obtain ⟨hdelay, hstages⟩ := hmoved
  refine ⟨rfl, rfl, rfl, rfl, rfl, rfl, rfl, rfl, fun hz => ?_, fun hz => ?_, fun j st st' hst hst' => ?_⟩
  · obtain ⟨hw, hbuf⟩ := hdelay.kept (hdelay.frozen.symm.trans hz)
    exact ⟨hw.trans hentry.w, fun i => by rw [hbuf, hentry.buf]⟩
  · have hrun := hdelay.frozen.symm.trans hz
    rw [← hentry.w, ← hentry.buf]
    exact ⟨hdelay.moved hrun, hdelay.others hrun⟩
  · obtain ⟨st0, hst0, hm⟩ := hstages j st' hst'
    have hring : st0.rb = st.rb := by
      have hj := congrArg (fun l => l[j]?) hentry.rings
      simpa only [List.getElem?_map, hst0, hst, Option.map_some, Option.some.injEq] using hj
    have hrun := (hok.stage st0 (List.mem_of_getElem? hst0)).running
    rw [← hring]
    exact ⟨hm.moved hrun, hm.others hrun⟩
end

section
/-! SUPPORT. The block that construction builds, register by register, and that it is sound (70_reset_and_hazards.md R560 to R562). -/

namespace Sys2Proof.Machine

open Sys2Proof.Safety

/-! ### The engine that construction builds -/

/-- The delay line's ring buffer after the defaults of ids 8, 11, 12 and 13 (R560 step 8). -/
def builtDelayRing (c : Cfg) : RingBuf :=
  let started := ringInit c.nm (cMain c) (c.nm.mul (resolvedDefault c 8) c.fs) (ringRaw c.nm (cMain c))
  let frozen := if boolFlag c.nm (resolvedDefault c 11) then ringFreeze c.nm (cMain c) started
    else ringUnfreeze c.nm (cMain c) started
  ringSetInterp (interpFlag c.nm (resolvedDefault c 13))
    (ringSetReverse c.nm (cMain c) (boolFlag c.nm (resolvedDefault c 12)) frozen)

/-- The filter after the defaults of ids 4 to 7 and the one BQ_COEFFS after them (R560 step 8). -/
def builtFilter (c : Cfg) : Biquad :=
  bqCoeffs c { (engineRaw c).flt with
    fc := legalCutoff c (resolvedDefault c 4), q := legalResonance c (resolvedDefault c 5)
    gdb := legalGainDb c (resolvedDefault c 6), kind := filterTypeFlag c.nm (resolvedDefault c 7) }

/-- The reverb's decay time (R560 step 8, R381). -/
def builtRt60 (c : Cfg) : NUM := c.nm.max (resolvedDefault c 15) (c.nm.rat 1 1000)

/-- The reverb's stages after the gains of step 8 and the starts of step 9 (R560, R381). -/
def builtStages (c : Cfg) : List Stage :=
  initStages c c.reverbDelaysMs (setStageGains c.nm (builtRt60 c) c.reverbDelaysMs (engineRaw c).rv.stages)

theorem buildEngine_eq (c : Cfg) :
    buildEngine c =
      { alloc := []
        voices := List.replicate c.n voiceReset
        env := { attMs := resolvedDefault c 0, relMs := resolvedDefault c 1
                 inc := envIncrement c (resolvedDefault c 0), dec := envIncrement c (resolvedDefault c 1) }
        osc := { spacing := spacingFlag c.nm (resolvedDefault c 2), exponent := c.nm.max (resolvedDefault c 3) (c.nm.ofNat 0) }
        flt := builtFilter c
        dl := { rb := builtDelayRing c, fb := resolvedDefault c 9
                mix := c.nm.clamp (resolvedDefault c 10) (c.nm.ofNat 0) (c.nm.ofNat 1)
                topo := topologyFlag c.nm (resolvedDefault c 14) }
        rv := { stages := builtStages c, rt60 := builtRt60 c
                mix := c.nm.clamp (resolvedDefault c 16) (c.nm.ofNat 0) (c.nm.ofNat 1) } } := rfl

/-! ### Its ring buffers -/

theorem ringRaw_ringOk (m : Numerics) {cap : Nat} (hc : 0 < cap) : RingOk m cap (ringRaw m cap) :=
  ⟨hc, hc, ringRaw_memory m cap, .inr (.inl rfl)⟩

theorem ringInit_ringOk {m : Numerics} {cap : Nat} {rb : RingBuf} (h : RingOk m cap rb) (g : NUM) :
    RingOk m cap (ringInit m cap g rb) :=
  { h with step := .inr (.inl rfl) }

/-- A property of ring buffers that the setters behind ids 8, 11, 12 and 13 give and keep holds of the delay line's. -/
theorem builtDelayRing_induction {P : RingBuf → Prop} {c : Cfg}
    (init : P (ringInit c.nm (cMain c) (c.nm.mul (resolvedDefault c 8) c.fs) (ringRaw c.nm (cMain c))))
    (freeze : ∀ rb, P rb → P (ringFreeze c.nm (cMain c) rb)) (unfreeze : ∀ rb, P rb → P (ringUnfreeze c.nm (cMain c) rb))
    (reverse : ∀ rb b, P rb → P (ringSetReverse c.nm (cMain c) b rb)) (interp : ∀ rb i, P rb → P (ringSetInterp i rb)) :
    P (builtDelayRing c) := by
  refine interp _ _ (reverse _ _ ?_)
  split
  · exact freeze _ init
  · exact unfreeze _ init

theorem builtDelayRing_ringOk {c : Cfg} (hc : 0 < cMain c) : RingOk c.nm (cMain c) (builtDelayRing c) :=
  builtDelayRing_induction (ringInit_ringOk (ringRaw_ringOk _ hc) _) (fun _ => ringFreeze_ringOk hc)
    (fun _ => ringUnfreeze_ringOk) (fun _ b h => ringSetReverse_ringOk h b) (fun _ _ h => { h with })

theorem builtDelayRing_goal (c : Cfg) :
    (builtDelayRing c).goal = clampDelay c.nm (cMain c) (c.nm.mul (resolvedDefault c 8) c.fs) :=
  builtDelayRing_induction (P := fun rb => rb.goal = _) rfl (fun _ => (ringFreeze_goal ..).trans)
    (fun _ => (ringUnfreeze_goal ..).trans) (fun _ _ => (ringSetReverse_goal ..).trans) (fun _ _ h => h)

theorem initStages_length (c : Cfg) (delays : List NUM) (sts : List Stage) :
    (initStages c delays sts).length = sts.length := by
  induction delays generalizing sts with
  | nil => cases sts <;> rfl
  | cons ms delays ih => cases sts with
    | nil => rfl
    | cons st sts => simp [initStages, ih]

/-- With a base delay for every stage, each stage is started from its delay and switched to LINEAR (R560 step 9). -/
theorem initStages_mem {c : Cfg} {delays : List NUM} {sts : List Stage} (hl : delays.length = sts.length) {st' : Stage}
    (h : st' ∈ initStages c delays sts) :
    ∃ ms ∈ delays, ∃ st ∈ sts,
      st' = { st with rb := { ringInit c.nm (cRev c) (msToSamples c ms) st.rb with interp := .linear } } := by
  induction delays generalizing sts with
  | nil =>
    obtain rfl : sts = [] := List.length_eq_zero_iff.1 hl.symm
    cases h
  | cons ms delays ih => cases sts with
    | nil => cases h
    | cons st sts =>
      rcases List.mem_cons.1 h with rfl | h
      · exact ⟨ms, List.mem_cons_self, st, List.mem_cons_self, rfl⟩
      · obtain ⟨ms', hms, st0, hst, he⟩ := ih (Nat.succ.inj hl) h
        exact ⟨ms', List.mem_cons_of_mem _ hms, st0, List.mem_cons_of_mem _ hst, he⟩

theorem builtStages_length (c : Cfg) : (builtStages c).length = NSTAGES := by
  rw [builtStages, initStages_length, setStageGains_length]
  exact List.length_replicate

/-- A built stage is an empty ring buffer started from one of the base delays. -/
theorem builtStages_mem {c : Cfg} (hl : c.reverbDelaysMs.length = NSTAGES) {st : Stage} (h : st ∈ builtStages c) :
    ∃ ms ∈ c.reverbDelaysMs,
      st.rb = { ringInit c.nm (cRev c) (msToSamples c ms) (ringRaw c.nm (cRev c)) with interp := .linear } := by
  have hlen : c.reverbDelaysMs.length = (setStageGains c.nm (builtRt60 c) c.reverbDelaysMs (engineRaw c).rv.stages).length := by
    rw [setStageGains_length, hl]
    exact List.length_replicate.symm
  obtain ⟨ms, hms, st1, hst1, rfl⟩ := initStages_mem hlen h
  obtain ⟨st0, hst0, g, rfl⟩ := setStageGains_mem hst1
  obtain rfl := List.eq_of_mem_replicate hst0
  exact ⟨ms, hms, rfl⟩

/-- The pointers of the built delay line: RB_INIT puts them inside and the setters after it keep them there. -/
theorem builtDelayRing_pointers {c : Cfg} {l : MathsLib} (hm : c.nm = binary32 l) (h16 : 16 ≤ cMain c) (h24 : cMain c < 2 ^ 24)
    (hgoal : f32IsNaN (c.nm.mul (resolvedDefault c 8) c.fs) = false) : RingPointers c.nm (cMain c) (builtDelayRing c) := by
  suffices h : (builtDelayRing c).w < cMain c ∧ RingPointers c.nm (cMain c) (builtDelayRing c) from h.2
  rw [hm] at hgoal
  apply builtDelayRing_induction (P := fun rb => rb.w < cMain c ∧ RingPointers c.nm (cMain c) rb) <;> rw [hm]
  case init =>
    have hw := (ringRaw_ringOk (binary32 l) (show 0 < cMain c by omega)).write_pointer
    exact ⟨hw, ringInit_pointers l h16 h24 hw rfl hgoal⟩
  case freeze => exact fun rb h => ⟨(ringFreeze_memory ..).2.symm ▸ h.1, ringFreeze_pointers l h16 h24 h.2⟩
  case unfreeze => exact fun rb h => ⟨(ringUnfreeze_memory ..).2.symm ▸ h.1, ringUnfreeze_pointers l h16 h24 h.1 h.2⟩
  case reverse => exact fun rb b h => ⟨(ringSetReverse_memory ..).2.symm ▸ h.1, ringSetReverse_pointers l h16 h24 h.1 h.2 b⟩
  case interp => exact fun rb i h => ⟨h.1, { h.2 with }⟩

/-! ### It is sound -/

theorem buildEngine_engineOk {c : Cfg} (hl : cfgLegal c = true) : EngineOk c (buildEngine c) := by
  obtain ⟨hmain, hrev⟩ := cfgLegal_capacities hl
  obtain ⟨-, -, hdelays, -⟩ := (cfgLegal_iff c).1 hl
  rw [buildEngine_eq]
  refine ⟨⟨Nat.zero_le _, List.nodup_nil, nofun, List.length_replicate, fun v hv k hk => ?_⟩, spacingFlag_cases ..,
    builtDelayRing_ringOk (by omega), builtStages_length c, fun st hst => ?_⟩
  · obtain rfl := List.eq_of_mem_replicate hv
    cases hk
  · obtain ⟨ms, -, he⟩ := builtStages_mem hdelays hst
    have hring : RingOk c.nm (cRev c) (ringInit c.nm (cRev c) (msToSamples c ms) (ringRaw c.nm (cRev c))) :=
      ringInit_ringOk (ringRaw_ringOk _ (by omega)) _
    refine ⟨?_, ?_, ?_, ?_⟩ <;> rw [he]
    · exact { hring with }
    · rfl
    · rfl

theorem ofCfg_inv {c : Cfg} (hl : cfgLegal c = true) (ht : validateTable c = none) : Inv (State.ofCfg c) := by
  refine ⟨hl, ht, ⟨?_, fun e he => ?_, rfl, fun a u hu => ?_, Nat.zero_le _, nofun, Nat.zero_le _⟩,
    buildEngine_engineOk hl, .inl rfl⟩
  · exact List.map_map
  · obtain ⟨d, hd, rfl⟩ := List.mem_map.1 he
    by_contra hq
    exact (validateTable_none ht).2 d hd ((descriptorBad_iff c.nm d).2 (.inr (.inr (.inl (not_le.1 hq)))))
  · cases a <;> cases hu

/-! ### Its values are within their bounds -/

theorem zero_within_taps {m : Numerics} {l : MathsLib} (hm : m = binary32 l) :
    within m (m.ofInt (-100)) (m.ofNat 100) NUM.zero := by
  subst hm
  constructor <;> cases l <;> decide +kernel

theorem buildEngine_bounded {c : Cfg} (hb : c.isBinary32 = true) (hl : cfgLegal c = true) : Bounded c (buildEngine c) := by
  obtain ⟨l, hn, hm⟩ := isBinary32_nm hb
  obtain ⟨h01, hres, hgain, -⟩ := literal_bounds_ordered hm
  have hgoal := clamp_within hm (delay_bounds_ordered hm (cfgLegal_capacities hl).1) (c.nm.mul (resolvedDefault c 8) c.fs)
  rw [buildEngine_eq]
  constructor
  case envelope =>
    intro v hv
    obtain rfl := List.eq_of_mem_replicate hv
    rw [ofNat_zero hm]
    rw [ofNat_zero hm] at h01
    exact ⟨by rw [hm]; exact f32Lt_irrefl NUM.zero, h01⟩
  case increment => exact envIncrement_not_below hn hm hl _
  case decrement => exact envIncrement_not_below hn hm hl _
  case exponent => exact max_not_below hm ..
  case resonance => exact clamp_within hm hres _
  case gain => exact clamp_within hm hgain _
  case tap1 => exact zero_within_taps hm
  case tap2 => exact zero_within_taps hm
  case delay_mix => exact clamp_within hm h01 _
  case reverb_mix => exact clamp_within hm h01 _
  case decay => exact max_not_below hm ..
  case goal => exact (builtDelayRing_goal c).symm ▸ hgoal
  case cutoff => exact fun hle => clamp_within hm hle _

theorem buildEngine_pointers {c : Cfg} (hb : c.isBinary32 = true) (hl : cfgLegal c = true) (hcap : exactCapacities c)
    (hnan : c.nm.isNaN (resolvedDefault c 8) = false) : Pointers c (buildEngine c) := by
  obtain ⟨l, -, hm⟩ := isBinary32_nm hb
  obtain ⟨hmain, hrev⟩ := cfgLegal_capacities hl
  obtain ⟨-, -, hdelays, hle, -⟩ := (cfgLegal_iff c).1 hl
  rw [buildEngine_eq]
  refine ⟨builtDelayRing_pointers hm hmain hcap.1 (delayTime_notNaN hm hl hnan), fun st hst => ?_⟩
  obtain ⟨ms, hms, he⟩ := builtStages_mem hdelays hst
  have hms := hle ms hms
  rw [he]
  rw [hm] at hms ⊢
  have hinit := ringInit_pointers l hrev hcap.2 (ringRaw_ringOk (binary32 l) (by omega)).write_pointer rfl (f32Le_notNaN hms).1
  exact { hinit with }

end Sys2Proof.Machine

open Sys2Proof Sys2Proof.Machine Sys2Proof.Safety

/-- Settles O57: every register of the built engine holds what its default's update writes, so it meets the bound of that
update; the reset state is the block of the reference configuration. -/
theorem resetIsSound : Obligations.ResetIsSound := by
  unfold Obligations.ResetIsSound
  have hlegal : cfgLegal referenceCfg = true := by decide +kernel
  have htable : validateTable referenceCfg = none := by decide +kernel
  have hcap : exactCapacities referenceCfg := by unfold exactCapacities; decide +kernel
  have hnan : referenceCfg.nm.isNaN (resolvedDefault referenceCfg 8) = false := by decide +kernel
  exact ⟨fun c hl ht => ⟨ofCfg_inv hl ht, fun hb => buildEngine_bounded hb hl, fun hb => buildEngine_pointers hb hl⟩,
    ofCfg_inv hlegal htable, buildEngine_bounded rfl hlegal, buildEngine_pointers rfl hlegal hcap hnan⟩
end

section
/-! SUPPORT. The steps of a running block by what heads its schedule, and that a sound block always has one (20_memory.md R120, R127, 48_engine_render.md R469, 60_exceptions.md R503). -/

namespace Sys2Proof.Machine

open Sys2Proof.Safety

/-! ### The head of the schedule -/

theorem step_of_running {s : State} (hr : Running s) : step s = stepSchedule s := whenRunning_running hr.1 hr.2 _

theorem stepSchedule_of_word {s : State} {w : PortWord} {rest : List Event} (hi : s.inbox = .word w :: rest) :
    stepSchedule s = stepWord w rest s := by
  rw [stepSchedule, hi]

/-! ### The step of a word (log 13, 14) -/

theorem stepWord_of_pending {w : PortWord} {a : HostAgent} (hw : wordOwner w = some a) {s : State} {u : Update}
    (hp : pendOf a s = some u) (rest : List Event) : stepWord w rest s = .next (setPush a s) := by
  simp only [stepWord, hw, hp]

theorem stepWord_of_waits {w : PortWord} {a : HostAgent} (hw : wordOwner w = some a) {s : State} (hp : pendOf a s = none)
    {i : Instr} (hd : decode w = .ok i) (hwait : instrWaits i s = true) (rest : List Event) : stepWord w rest s = .next s := by
  simp only [stepWord, hw, hp, hd, hwait, if_true]

theorem stepWord_of_ready {w : PortWord} {a : HostAgent} (hw : wordOwner w = some a) {s : State} (hp : pendOf a s = none)
    {i : Instr} (hd : decode w = .ok i) (hwait : instrWaits i s = false) (rest : List Event) :
    stepWord w rest s = exec i { s with inbox := rest } := by
  simp only [stepWord, hw, hp, hd, hwait, Bool.false_eq_true, if_false]

theorem stepWord_of_no_row {w : PortWord} {a : HostAgent} (hw : wordOwner w = some a) {s : State} (hp : pendOf a s = none)
    {e : DecodeError} (hd : decode w = .error e) (rest : List Event) : stepWord w rest s = .next { s with inbox := rest } := by
  simp only [stepWord, hw, hp, hd]

/-- A word of the render port is a RENDER of the state with the word taken off. -/
theorem stepWord_render (x : BitVec 32) (rest : List Event) (s : State) :
    stepWord (.c x) rest s = exec (.render x.toNat) { s with inbox := rest } := rfl

/-! ### Steps that answer a next state -/

/-- A host instruction of a running block always runs to a next state. -/
theorem exec_hostInstr_next {i : Instr} (hi : isHostInstr i = true) {s : State} (hr : Running s) : ∃ t, exec i s = .next t := by
  cases i with
  | midiNoteOff | midiNoteOn | midiCc | midiPolyPressure | midiProgram | midiChannelPressure | midiPitchBend | midiSystem
  | midiNoStatus | set | get => exact ⟨_, whenRunning_running hr.1 hr.2 _⟩
  | _ => cases hi

theorem memoriesExist_of_legal {c : Cfg} (h : cfgLegal c = true) : memoriesExist c = true := by
  obtain ⟨hmain, hrev⟩ := cfgLegal_capacities h
  simp only [memoriesExist, Bool.and_eq_true, decide_eq_true_eq]
  omega

theorem emitFrames_of_memories {s : State} (h : memoriesExist s.cfg = true) (b : Nat) : ∃ t, emitFrames b s = .next t := by
  unfold emitFrames
  split
  · exact ⟨s, rfl⟩
  · simp only [h, Bool.not_true, Bool.false_eq_true, if_false]
    exact ⟨_, rfl⟩

/-- RENDER stops only at a ring buffer without elements. -/
theorem execRender_next {s : State} (hr : Running s) (hm : memoriesExist s.cfg = true) (b : Nat) :
    ∃ t, execRender b s = .next t := by
  obtain ⟨al, hnote, -⟩ := drainNote_next s
  obtain ⟨s2, hupd⟩ := drainUpdate_next (withEngine { s.engine with alloc := al } { s with noteq := s.noteq.tail })
  have hcfg : s2.cfg = s.cfg := (drainUpdate_cases hupd).1
  rw [execRender, whenRunning_running hr.1 hr.2, hnote, andThen_of_next, hupd, andThen_of_next]
  split
  · exact ⟨s2, rfl⟩
  · exact emitFrames_of_memories (by rw [hcfg]; exact hm) b

/-- The step of any word answers a next state: a host's word pushes, waits, is ignored or runs; a channel word is put on its
channel; a render word is a RENDER. -/
theorem stepWord_next {s : State} (hr : Running s) (hm : memoriesExist s.cfg = true) (w : PortWord) (rest : List Event) :
    ∃ t, stepWord w rest s = .next t := by
  have hrun : Running { s with inbox := rest } := hr
  cases hw : wordOwner w with
  | some a =>
    cases hp : pendOf a s with
    | some u => exact ⟨_, stepWord_of_pending hw hp rest⟩
    | none =>
      cases hd : decode w with
      | error e => exact ⟨_, stepWord_of_no_row hw hp hd rest⟩
      | ok i =>
        cases hwait : instrWaits i s with
        | true => exact ⟨_, stepWord_of_waits hw hp hd hwait rest⟩
        | false =>
          rw [stepWord_of_ready hw hp hd hwait rest]
          exact exec_hostInstr_next (isHostInstr_of_owner (by rw [hw]; rfl) hd) hrun
  | none =>
    cases w with
    | m | s => cases hw
    | n | u => exact ⟨_, rfl⟩
    | c x => exact execRender_next hrun hm x.toNat

end Sys2Proof.Machine

open Sys2Proof Sys2Proof.Machine Sys2Proof.Safety

/-- Settles O5: each clause is the case of `stepWord` it names. -/
theorem stepRunsDecodedWord : Obligations.StepRunsDecodedWord := by
  unfold Obligations.StepRunsDecodedWord
  intro s w rest i hr hi hd
  rw [step_of_running hr, stepSchedule_of_word hi]
  refine ⟨?_, fun a hw hp hwait => stepWord_of_ready hw hp hd hwait rest,
    fun a hw hp hwait => stepWord_of_waits hw hp hd hwait rest, fun a u hw hp => stepWord_of_pending hw hp rest⟩
  rintro ⟨x, rfl⟩
  cases hd
  exact stepWord_render x rest s

/-- Settles O59: only RENDER over a ring buffer without elements could stop a running block, and a legal configuration has
none. -/
theorem soundRunningBlockAlwaysSteps : Obligations.SoundRunningBlockAlwaysSteps := by
  unfold Obligations.SoundRunningBlockAlwaysSteps
  intro s hinv hr
  rw [step_of_running hr, stepSchedule]
  split
  · exact ⟨_, rfl⟩
  · exact stepWord_next hr (memoriesExist_of_legal hinv.legal) ..
  · exact ⟨_, rfl⟩
  · exact ⟨_, rfl⟩
end

section
/-! SUPPORT. What a GET reads after a SET (20_memory.md R122, 47_parameter_interface.md R410, R412). -/

namespace Sys2Proof.Machine

/-- A write of a table entry that is there gives the entry its value. -/
theorem readTable_of_write_same {s t : State} {id q q0 : Nat}
    (h : t.tbl = s.tbl.map (fun e => if e.id = id then { e with q := q } else e)) (h0 : readTable id s = some q0) :
    readTable id t = some q := by
  have hid : (fun e : TblEntry => e.id == id) ∘ (fun e => if e.id = id then { e with q := q } else e) =
      fun e => e.id == id := by
    funext e
    simp only [Function.comp_apply]
    split <;> rfl
  obtain ⟨e, hfind, -⟩ := Option.map_eq_some_iff.1 h0
  have he : e.id = id := by simpa using List.find?_some hfind
  rw [readTable, h, List.find?_map, hid, hfind]
  simp [he]

/-- A GET of a known id with a table value, LOCK being free, adds its answer and changes nothing else. -/
theorem getParameter_answers {id q : Nat} {s : State} (hk : knownId s.cfg id = true) (hl : s.lock = .free)
    (hq : readTable id s = some q) (a : HostAgent) :
    getParameter a id s =
      { s with replies := s.replies ++ [{ agent := a, id := id, q := q, v := resolveId s.cfg id q }] } := by
  have hfree : lockedAgainst a s = false := by rw [lockedAgainst, hl]
  simp only [getParameter, hk, hfree, hq, Bool.not_true, Bool.false_eq_true, if_false, releaseLock, ← hl]

end Sys2Proof.Machine

open Sys2Proof Sys2Proof.Machine Sys2Proof.Safety

/-- Settles O18: the SET is the write under the lock, which leaves LOCK free and the saturated value in its id's entry, and
that is what the GET reads. -/
theorem getReturnsLastSet : Obligations.GetReturnsLastSet := by
  unfold Obligations.GetReturnsLastSet
  intro s t a b id q q0 r hp hl hk h0 h
  obtain ⟨hf, hs, hn⟩ := whenRunning_next h
  rw [setCommit_known hp hk hl] at hn
  cases hn
  have hread : readTable id (commitLocked a id (saturateQ q) s) = some (min q 35) :=
    readTable_of_write_same (commitLocked_tbl ..) h0
  refine ⟨hread, (commitLocked_frame ..).table, ?_⟩
  have hrun := whenRunning_running ((commitLocked_fault a id (saturateQ q) s).trans hf)
    ((commitLocked_shut a id (saturateQ q) s).trans hs)
  rw [← commitLocked_cfg a id (saturateQ q) s] at hk ⊢
  exact (hrun _).trans (congrArg _ (getParameter_answers hk (commitLocked_lock ..) hread b))
end

section
/-! SUPPORT. The two views of the state that separate the engine from the hosts, and the operations that are blind to one of them (10_state.md R49, 20_memory.md R124). -/

namespace Sys2Proof.Machine

open Sys2Proof.Safety

/-! ### Blind operations -/

/-- `op` neither reads nor writes what `f` replaces: replacing it before or after gives the same outcome. -/
def Blind (f : State → State) (op : State → Host.Outcome State Fault Refusal) : Prop := ∀ s, op (f s) = mapNext f (op s)

/-- An operation that always answers a next state is blind where its next state is. -/
theorem Blind.of_commute {f g : State → State} (h : ∀ s, g (f s) = f (g s)) : Blind f (fun s => .next (g s)) :=
  fun s => congrArg Host.Outcome.next (h s)

theorem Blind.andThen {f : State → State} {o k : State → Host.Outcome State Fault Refusal} (ho : Blind f o) (hk : Blind f k) :
    Blind f (fun s => andThen (o s) k) := by
  intro s
  show Machine.andThen (o (f s)) k = mapNext f (Machine.andThen (o s) k)
  rw [ho s]
  cases o s with
  | next t => exact hk t
  | fault r => rfl
  | refused r => rfl

/-- A view that keeps FAULT and the end of the run does not decide whether a step is taken. -/
theorem Blind.whenRunning {f : State → State} (hf : ∀ s, (f s).fault = s.fault) (hs : ∀ s, (f s).shut = s.shut)
    {k : State → Host.Outcome State Fault Refusal} (hk : Blind f k) : Blind f (fun s => whenRunning s (k s)) := by
  intro s
  simp only [Machine.whenRunning, hf, hs, hk s]
  cases s.fault with
  | some c => rfl
  | none => cases s.shut <;> rfl

/-- The unknown-id policy reads the configuration and FAULT, and writes FAULT alone. -/
theorem unknownParameter_commute {f : State → State} {s : State} (hc : (f s).cfg = s.cfg) (hf : (f s).fault = s.fault)
    (hset : ∀ c, { f s with fault := some c } = f { s with fault := some c }) :
    unknownParameter (f s) = f (unknownParameter s) := by
  rw [unknownParameter, unknownParameter, hc]
  cases s.cfg.unknownId with
  | ignore => rfl
  | fault =>
    show raiseFault .unknownId (f s) = f (raiseFault .unknownId s)
    cases hs : s.fault with
    | none => rw [raiseFault_of_none hs, raiseFault_of_none (hf.trans hs), hset]
    | some c => rw [raiseFault_of_some hs, raiseFault_of_some (hf.trans hs)]

/-! ### RENDER and the hosts' state -/

section HostSide
variable (h : State)

@[simp] theorem withHostSide_cfg (s : State) : (withHostSide h s).cfg = s.cfg := rfl
@[simp] theorem withHostSide_noteq (s : State) : (withHostSide h s).noteq = s.noteq := rfl
@[simp] theorem withHostSide_updq (s : State) : (withHostSide h s).updq = s.updq := rfl
@[simp] theorem withHostSide_fault (s : State) : (withHostSide h s).fault = s.fault := rfl
@[simp] theorem withHostSide_shut (s : State) : (withHostSide h s).shut = s.shut := rfl

theorem unknownParameter_withHostSide (s : State) : unknownParameter (withHostSide h s) = withHostSide h (unknownParameter s) :=
  unknownParameter_commute rfl rfl fun _ => rfl

theorem applyNoteWord_blind (w : BitVec 16) : Blind (withHostSide h) (applyNoteWord w) := by
  intro s
  rw [applyNoteWord, applyNoteWord]
  rcases decodeN_cases w.toNat with ⟨-, hd⟩ | ⟨-, hd⟩ | ⟨-, -, hd⟩ <;> rw [hd] <;> rfl

theorem drainNote_blind : Blind (withHostSide h) drainNote := by
  intro s
  simp only [drainNote, popNote, withHostSide_noteq]
  cases s.noteq with
  | nil => rfl
  | cons w rest => exact applyNoteWord_blind h w { s with noteq := rest }

/-- The row of an update is blind for each id that has one; an id without a row follows the policy. -/
theorem applyKnown_blind (u : Update) : Blind (withHostSide h) (applyKnown u) := by
  intro s
  obtain ⟨id, v⟩ := u
  by_cases hid : id ≤ 16
  · interval_cases id <;> rfl
  · simp only [applyKnown, decodeUpdate_unknown (Nat.lt_of_not_le hid)]
    exact Blind.of_commute (unknownParameter_withHostSide h) s

theorem applyUpdate_blind (u : Update) : Blind (withHostSide h) (applyUpdate u) := by
  intro s
  rw [applyUpdate, applyUpdate, withHostSide_cfg]
  split
  · exact applyKnown_blind h u s
  · exact Blind.of_commute (unknownParameter_withHostSide h) s

theorem drainUpdate_blind : Blind (withHostSide h) drainUpdate := by
  intro s
  simp only [drainUpdate, popUpdate, withHostSide_updq]
  cases s.updq with
  | nil => rfl
  | cons u rest => exact applyUpdate_blind h u { s with updq := rest }

theorem emitFrames_blind (b : Nat) : Blind (withHostSide h) (emitFrames b) := by
  intro s
  rw [emitFrames, emitFrames, withHostSide_cfg]
  split
  · rfl
  · split <;> rfl

theorem execRender_blind (b : Nat) : Blind (withHostSide h) (execRender b) := by
  refine .whenRunning (withHostSide_fault h) (withHostSide_shut h)
    ((drainNote_blind h).andThen ((drainUpdate_blind h).andThen fun s => ?_))
  simp only [withHostSide_fault]
  cases s.fault with
  | some c => rfl
  | none => exact emitFrames_blind h b s

end HostSide

/-! ### Host instructions and the engine's state -/

section EngineSide
variable (h : State)

@[simp] theorem withEngineSide_cfg (s : State) : (withEngineSide h s).cfg = s.cfg := rfl
@[simp] theorem withEngineSide_fault (s : State) : (withEngineSide h s).fault = s.fault := rfl
@[simp] theorem withEngineSide_shut (s : State) : (withEngineSide h s).shut = s.shut := rfl
@[simp] theorem pendOf_withEngineSide (a : HostAgent) (s : State) : pendOf a (withEngineSide h s) = pendOf a s := by
  cases a <;> rfl
@[simp] theorem lockedAgainst_withEngineSide (a : HostAgent) (s : State) :
    lockedAgainst a (withEngineSide h s) = lockedAgainst a s := rfl
@[simp] theorem readTable_withEngineSide (id : Nat) (s : State) : readTable id (withEngineSide h s) = readTable id s := rfl

theorem unknownParameter_withEngineSide (s : State) :
    unknownParameter (withEngineSide h s) = withEngineSide h (unknownParameter s) :=
  unknownParameter_commute rfl rfl fun _ => rfl

theorem setPush_withEngineSide (a : HostAgent) (s : State) : setPush a (withEngineSide h s) = withEngineSide h (setPush a s) := by
  simp only [setPush, pendOf_withEngineSide]
  cases pendOf a s with
  | none => rfl
  | some u => cases a <;> rfl

theorem commitLocked_withEngineSide (a : HostAgent) (id q : Nat) (s : State) :
    commitLocked a id q (withEngineSide h s) = withEngineSide h (commitLocked a id q s) := by
  cases a <;> rfl

theorem setCommit_withEngineSide (a : HostAgent) (id q : Nat) (s : State) :
    setCommit a id q (withEngineSide h s) = withEngineSide h (setCommit a id q s) := by
  rw [setCommit, setCommit, setPush_withEngineSide, withEngineSide_cfg, lockedAgainst_withEngineSide,
    unknownParameter_withEngineSide, commitLocked_withEngineSide]
  split
  · rfl
  · split <;> rfl

theorem getParameter_withEngineSide (a : HostAgent) (id : Nat) (s : State) :
    getParameter a id (withEngineSide h s) = withEngineSide h (getParameter a id s) := by
  rw [getParameter, getParameter, withEngineSide_cfg, lockedAgainst_withEngineSide, readTable_withEngineSide,
    unknownParameter_withEngineSide]
  split
  · rfl
  · split
    · rfl
    · cases readTable id s <;> rfl

theorem ccSet_withEngineSide (index value : Nat) (s : State) :
    ccSet index value (withEngineSide h s) = withEngineSide h (ccSet index value s) := by
  simp only [ccSet, withEngineSide_cfg]
  cases ccBinding s.cfg index with
  | none => rfl
  | some d => exact setCommit_withEngineSide h ..

/-- The channel filter reads the configuration alone. -/
theorem onChannel_withEngineSide {g : State → State} (hg : ∀ s, g (withEngineSide h s) = withEngineSide h (g s)) (chan : Nat)
    (s : State) : onChannel chan (withEngineSide h s) (g (withEngineSide h s)) = withEngineSide h (onChannel chan s (g s)) := by
  simp only [onChannel, hg, withEngineSide_cfg]
  split <;> rfl

/-- A step of a host agent whose next state commutes with the view is blind to it. -/
theorem whenRunning_blind {g : State → State} (hg : ∀ s, g (withEngineSide h s) = withEngineSide h (g s)) :
    Blind (withEngineSide h) (fun s => whenRunning s (.next (g s))) :=
  .whenRunning (withEngineSide_fault h) (withEngineSide_shut h) (.of_commute hg)

theorem exec_hostInstr_blind {i : Instr} (hi : isHostInstr i = true) : Blind (withEngineSide h) (exec i) := by
  cases i with
  | midiNoteOff chan note vel =>
    exact whenRunning_blind h (onChannel_withEngineSide h (g := pushNote (noteOffWord note)) (fun _ => rfl) chan)
  | midiNoteOn chan note vel =>
    exact whenRunning_blind h (onChannel_withEngineSide h (g := pushNote (noteOnWord note)) (fun _ => rfl) chan)
  | midiCc chan index value =>
    exact whenRunning_blind h (onChannel_withEngineSide h (ccSet_withEngineSide h index value) chan)
  | set a id q => exact whenRunning_blind h (setCommit_withEngineSide h a id q)
  | get a id q => exact whenRunning_blind h (getParameter_withEngineSide h a id)
  | midiPolyPressure | midiProgram | midiChannelPressure | midiPitchBend | midiSystem | midiNoStatus =>
    exact whenRunning_blind h (g := id) fun _ => rfl
  | _ => cases hi

end EngineSide

end Sys2Proof.Machine

open Sys2Proof Sys2Proof.Machine Sys2Proof.Safety

/-- Settles O52: RENDER is a sequence of parts each of which is blind to the hosts' state. -/
theorem engineIsBlindToHostState : Obligations.EngineIsBlindToHostState := by
  unfold Obligations.EngineIsBlindToHostState
  exact fun b s h => execRender_blind h b s

/-- Settles O53: what a host instruction makes of a running block commutes with replacing the engine and OUT. -/
theorem hostsAreBlindToEngineState : Obligations.HostsAreBlindToEngineState := by
  unfold Obligations.HostsAreBlindToEngineState
  exact fun i s h hi => exec_hostInstr_blind h hi s
end

section
/-! SUPPORT. Encoder, decoder and opcode map agree: the round trips in both directions, and what a row's mask fixes of the words it selects (30_encoding.md R140 to R150). -/

namespace Sys2Proof

/-! ### Fields in range -/

theorem midiFieldsOk_iff {chan d1 d2 : Nat} : midiFieldsOk chan d1 d2 = true ↔ chan < 16 ∧ d1 < 128 ∧ d2 < 128 := by
  simp [midiFieldsOk, and_assoc]

theorem wellFormed_midiNoStatus_iff {b0 b1 b2 : Nat} :
    (Instr.midiNoStatus b0 b1 b2).wellFormed = true ↔ b0 < 128 ∧ b1 < 256 ∧ b2 < 256 := by
  simp [Instr.wellFormed, and_assoc]

theorem wellFormed_set_iff {a : HostAgent} {id q : Nat} : (Instr.set a id q).wellFormed = true ↔ id < 128 ∧ q < 256 := by
  simp [Instr.wellFormed]

theorem wellFormed_get_iff {a : HostAgent} {id q : Nat} : (Instr.get a id q).wellFormed = true ↔ id < 128 ∧ q < 256 := by
  simp [Instr.wellFormed]

/-! ### Decoding what the encoder builds -/

theorem decode_noStatusWord {b0 b1 b2 : Nat} (h0 : b0 < 128) (h1 : b1 < 256) (h2 : b2 < 256) :
    decode (encode (.midiNoStatus b0 b1 b2)) = .ok (.midiNoStatus b0 b1 b2) := by
  have hlt : b0 * 2 ^ 16 + b1 * 2 ^ 8 + b2 < 2 ^ 24 := by omega
  simp only [encode, decode, decodeM, BitVec.toNat_ofNat, Nat.mod_eq_of_lt hlt, bitField]
  rw [if_pos (by omega)]
  congr 2 <;> omega

theorem decode_setWord (a : HostAgent) {id q : Nat} (hid : id < 128) (hq : q < 256) :
    decode (encode (.set a id q)) = .ok (.set a id q) := by
  have hlt : id * 2 ^ 8 + q < 2 ^ 16 := by omega
  simp only [encode, decode, decodeS, BitVec.toNat_ofNat, Nat.mod_eq_of_lt hlt, bitField]
  rw [if_pos (by omega)]
  congr 2 <;> omega

theorem decode_getWord (a : HostAgent) {id q : Nat} (hid : id < 128) (hq : q < 256) :
    decode (encode (.get a id q)) = .ok (.get a id q) := by
  have hlt : 2 ^ 15 + id * 2 ^ 8 + q < 2 ^ 16 := by omega
  simp only [encode, decode, decodeS, BitVec.toNat_ofNat, Nat.mod_eq_of_lt hlt, bitField]
  rw [if_neg (by omega)]
  congr 2 <;> omega

theorem decode_noteOffWord {note : Nat} (h : note < 128) : decode (.n (noteOffWord note)) = .ok (.nqNoteOff note) := by
  have hlt : 0x8000 + note < 2 ^ 16 := by omega
  simp only [noteOffWord, decode, decodeN, BitVec.toNat_ofNat, Nat.mod_eq_of_lt hlt, bitField]
  rw [if_pos (by omega)]
  congr 2; omega

theorem decode_noteOnWord {note : Nat} (h : note < 128) : decode (.n (noteOnWord note)) = .ok (.nqNoteOn note) := by
  have hlt : 0x9000 + note < 2 ^ 16 := by omega
  simp only [noteOnWord, decode, decodeN, BitVec.toNat_ofNat, Nat.mod_eq_of_lt hlt, bitField]
  rw [if_neg (by omega), if_pos (by omega)]
  congr 2; omega

theorem decode_renderWord {b : Nat} (h : b < 2 ^ 32) : decode (encode (.render b)) = .ok (.render b) := by
  simp only [encode, decode, BitVec.toNat_ofNat, Nat.mod_eq_of_lt h]

/-- No bit of an encoding is dropped: per format, the word built from fields in range has those fields. -/
theorem decode_encode {i : Instr} (h : i.wellFormed = true) : decode (encode i) = .ok i := by
  cases i with
  | midiNoteOff | midiNoteOn | midiCc | midiPolyPressure | midiProgram | midiChannelPressure | midiPitchBend | midiSystem =>
    exact decode_statusWord (by decide) h
  | midiNoStatus b0 b1 b2 =>
    obtain ⟨h0, h1, h2⟩ := wellFormed_midiNoStatus_iff.1 h
    exact decode_noStatusWord h0 h1 h2
  | set a id q =>
    obtain ⟨hid, hq⟩ := wellFormed_set_iff.1 h
    exact decode_setWord a hid hq
  | get a id q =>
    obtain ⟨hid, hq⟩ := wellFormed_get_iff.1 h
    exact decode_getWord a hid hq
  | nqNoteOff note => exact decode_noteOffWord (of_decide_eq_true h)
  | nqNoteOn note => exact decode_noteOnWord (of_decide_eq_true h)
  | render b => exact decode_renderWord (of_decide_eq_true h)
  | _ => exact decode_updateWord (by decide) _

/-! ### Encoding what the decoder answers -/

/-- What a status nibble decodes to has the fields it was given, and is encoded with that nibble. -/
theorem encode_of_decodeStatus {kind chan d1 d2 : Nat} {i : Instr} (h : decodeStatus kind chan d1 d2 = .ok i) :
    i.wellFormed = midiFieldsOk chan d1 d2 ∧ encode i = statusWord kind chan d1 d2 := by
  unfold decodeStatus at h
  split at h <;> cases h <;> exact ⟨rfl, rfl⟩

/-- What an id decodes to has any value, and is encoded with that id. -/
theorem encode_of_decodeUpdate {id : Nat} {v : NUM} {i : Instr} (h : decodeUpdate id v = .ok i) :
    i.wellFormed = true ∧ encode i = updateWord id v := by
  unfold decodeUpdate at h
  split at h <;> cases h <;> exact ⟨rfl, rfl⟩

/-- Bits 23 to 0 of a format M word are its status nibble, its channel and, where bits 15 and 7 are clear, its data bytes. -/
theorem statusWord_fields {w : BitVec 24} (h15 : bitField w.toNat 15 1 = 0) (h7 : bitField w.toNat 7 1 = 0) :
    statusWord (bitField w.toNat 20 4) (bitField w.toNat 16 4) (bitField w.toNat 8 7) (bitField w.toNat 0 7) = .m w := by
  have hw := w.isLt
  refine congrArg PortWord.m (BitVec.eq_of_toNat_eq ?_)
  simp only [bitField, BitVec.toNat_ofNat] at *
  omega

theorem encode_of_decodeM {w : BitVec 24} {i : Instr} (h : decode (.m w) = .ok i) : i.wellFormed = true ∧ encode i = .m w := by
  have h : decodeM w.toNat = .ok i := h
  rcases decodeM_cases w.toNat with ⟨h23, hd⟩ | ⟨-, -, hd⟩ | ⟨-, h15, h7, hd⟩
  · rw [hd] at h
    cases h
    refine ⟨wellFormed_midiNoStatus_iff.2 ⟨bitField_lt .., bitField_lt .., bitField_lt ..⟩,
      congrArg PortWord.m (BitVec.eq_of_toNat_eq ?_)⟩
    have hw := w.isLt
    simp only [bitField, BitVec.toNat_ofNat] at *
    omega
  · rw [hd] at h
    cases h
  · obtain ⟨hwf, he⟩ := encode_of_decodeStatus (hd ▸ h)
    exact ⟨hwf.trans (midiFieldsOk_iff.2 ⟨bitField_lt .., bitField_lt .., bitField_lt ..⟩),
      he.trans (statusWord_fields h15 h7)⟩

theorem encode_of_decodeS {a : HostAgent} {w : BitVec 16} {i : Instr} (h : decode (.s a w) = .ok i) :
    i.wellFormed = true ∧ encode i = .s a w := by
  have h : decodeS a w.toNat = .ok i := h
  have hw := w.isLt
  rcases decodeS_cases a w.toNat with ⟨h15, hd⟩ | ⟨h15, hd⟩ <;> rw [hd] at h <;> cases h
  · refine ⟨wellFormed_set_iff.2 ⟨bitField_lt .., bitField_lt ..⟩, congrArg (PortWord.s a) (BitVec.eq_of_toNat_eq ?_)⟩
    simp only [bitField, BitVec.toNat_ofNat] at *
    omega
  · refine ⟨wellFormed_get_iff.2 ⟨bitField_lt .., bitField_lt ..⟩, congrArg (PortWord.s a) (BitVec.eq_of_toNat_eq ?_)⟩
    simp only [bitField, BitVec.toNat_ofNat] at *
    omega

theorem encode_of_decodeN {w : BitVec 16} {i : Instr} (h : decode (.n w) = .ok i) : i.wellFormed = true ∧ encode i = .n w := by
  have h : decodeN w.toNat = .ok i := h
  have hw := w.isLt
  have hn := bitField_lt w.toNat 0 7
  rcases decodeN_cases w.toNat with ⟨hk, hd⟩ | ⟨hk, hd⟩ | ⟨-, -, hd⟩ <;> rw [hd] at h <;> cases h
  all_goals
    refine ⟨decide_eq_true hn, congrArg PortWord.n (BitVec.eq_of_toNat_eq ?_)⟩
    simp only [bitField, noteOffWord, noteOnWord, BitVec.toNat_ofNat] at *
    omega

theorem encode_of_decodeU {w : BitVec 40} {i : Instr} (h : decode (.u w) = .ok i) : i.wellFormed = true ∧ encode i = .u w := by
  obtain ⟨hwf, he⟩ := encode_of_decodeUpdate (show decodeUpdate _ _ = .ok i from h)
  have hw := w.isLt
  refine ⟨hwf, he.trans (congrArg PortWord.u (BitVec.eq_of_toNat_eq ?_))⟩
  simp only [bitField, BitVec.toNat_ofNat]
  omega

theorem encode_of_decode {w : PortWord} {i : Instr} (h : decode w = .ok i) : i.wellFormed = true ∧ encode i = w := by
  cases w with
  | m w => exact encode_of_decodeM h
  | s a w => exact encode_of_decodeS h
  | n w => exact encode_of_decodeN h
  | u w => exact encode_of_decodeU h
  | c w =>
    cases h
    exact ⟨decide_eq_true w.isLt, congrArg PortWord.c (BitVec.eq_of_toNat_eq (by simp))⟩

/-! ### The rows of the opcode map and the fields they fix (R150) -/

/-- A row whose mask is one field selects the words of its format with the pattern's value there. -/
theorem selects_of_field {name : String} {f : Format} {w : PortWord} {lo width v : Nat} (hf : f = w.format)
    (h : bitField w.bits lo width = v) :
    OpRow.selects ⟨name, f, v * 2 ^ lo, (2 ^ width - 1) * 2 ^ lo⟩ w = true := by
  simp [OpRow.selects, hf, and_fieldMask, h]

/-- A status row's mask 0xF08080 is the status nibble and the top bits of the two data bytes. -/
theorem selects_of_status {name : String} {w : BitVec 24} (h15 : bitField w.toNat 15 1 = 0) (h7 : bitField w.toNat 7 1 = 0) :
    OpRow.selects ⟨name, .m, bitField w.toNat 20 4 * 2 ^ 20, 0xF08080⟩ (.m w) = true := by
  have hmask : 0xF08080 = ((2 ^ 4 - 1) * 2 ^ 20 ||| (2 ^ 1 - 1) * 2 ^ 15) ||| (2 ^ 1 - 1) * 2 ^ 7 := by decide
  have hand : w.toNat &&& 0xF08080 = bitField w.toNat 20 4 * 2 ^ 20 := by
    rw [hmask, Nat.and_or_distrib_left, Nat.and_or_distrib_left, and_fieldMask, and_fieldMask, and_fieldMask, h15, h7]
    simp
  simp [OpRow.selects, PortWord.format, PortWord.bits, hand]

/-- A field that lies within a row's mask has the pattern's value in every word the row selects. -/
theorem bitField_of_selects {r : OpRow} {w : PortWord} (h : r.selects w = true) {lo width : Nat}
    (hm : r.mask &&& ((2 ^ width - 1) * 2 ^ lo) = (2 ^ width - 1) * 2 ^ lo) :
    bitField w.bits lo width = bitField r.pattern lo width := by
  simp only [OpRow.selects, Bool.and_eq_true, beq_iff_eq] at h
  apply bitField_of_mask
  rw [← hm, ← Nat.and_assoc, h.2, and_fieldMask]

theorem format_of_selects {r : OpRow} {w : PortWord} (h : r.selects w = true) : r.format = w.format := by
  simp only [OpRow.selects, Bool.and_eq_true, beq_iff_eq] at h
  exact h.1

/-- A format M row fixes bit 23, and where that is set the top bits of both data bytes, as clear. -/
theorem midiRow_mask : ∀ r ∈ opcodeTable, r.format = .m →
    r.mask &&& ((2 ^ 1 - 1) * 2 ^ 23) = (2 ^ 1 - 1) * 2 ^ 23 ∧
    (bitField r.pattern 23 1 = 1 →
      (r.mask &&& ((2 ^ 1 - 1) * 2 ^ 15) = (2 ^ 1 - 1) * 2 ^ 15 ∧ bitField r.pattern 15 1 = 0) ∧
      (r.mask &&& ((2 ^ 1 - 1) * 2 ^ 7) = (2 ^ 1 - 1) * 2 ^ 7 ∧ bitField r.pattern 7 1 = 0)) := by
  decide

/-- A format N row fixes bits 15 to 7, as one of the two kinds. -/
theorem noteRow_mask : ∀ r ∈ opcodeTable, r.format = .n →
    r.mask &&& ((2 ^ 9 - 1) * 2 ^ 7) = (2 ^ 9 - 1) * 2 ^ 7 ∧
    (bitField r.pattern 7 9 = 0x100 ∨ bitField r.pattern 7 9 = 0x120) := by
  decide

/-- A format U row fixes the id, as one of 0 to 16. -/
theorem updateRow_mask : ∀ r ∈ opcodeTable, r.format = .u →
    r.mask &&& ((2 ^ 8 - 1) * 2 ^ 32) = (2 ^ 8 - 1) * 2 ^ 32 ∧ bitField r.pattern 32 8 ≤ 16 := by
  decide

/-- No word can match two rows of the map. -/
theorem opcodeTable_disjoint : ∀ r ∈ opcodeTable, ∀ t ∈ opcodeTable, r.disjoint t = true ∨ r = t := by
  decide

/-! ### The decoder and the rows -/

theorem decodeStatus_known {kind : Nat} (hk : 8 ≤ kind ∧ kind < 16) (chan d1 d2 : Nat) :
    ∃ i, decodeStatus kind chan d1 d2 = .ok i := by
  obtain ⟨hlo, hhi⟩ := hk
  interval_cases kind <;> exact ⟨_, rfl⟩

theorem decodeUpdate_known {id : Nat} (h : id ≤ 16) (v : NUM) : ∃ i, decodeUpdate id v = .ok i := by
  interval_cases id <;> exact ⟨_, rfl⟩

theorem statusRow_mem {kind chan d1 d2 : Nat} {i : Instr} (h : decodeStatus kind chan d1 d2 = .ok i) :
    ⟨i.mnemonic, .m, kind * 2 ^ 20, 0xF08080⟩ ∈ opcodeTable := by
  unfold decodeStatus at h
  split at h <;> cases h <;> exact List.mem_of_elem_eq_true rfl

theorem updateRow_mem {id : Nat} {v : NUM} {i : Instr} (h : decodeUpdate id v = .ok i) :
    ⟨i.mnemonic, .u, id * 2 ^ 32, (2 ^ 8 - 1) * 2 ^ 32⟩ ∈ opcodeTable := by
  unfold decodeUpdate at h
  split at h <;> cases h <;> exact List.mem_of_elem_eq_true rfl

/-- A word that decodes is selected by a row with its instruction's mnemonic: the row of the case of the decoder. -/
theorem exists_row_of_decode {w : PortWord} {i : Instr} (h : decode w = .ok i) :
    ∃ r ∈ opcodeTable, r.mnemonic = i.mnemonic ∧ r.selects w = true := by
  cases w with
  | m w =>
    have h : decodeM w.toNat = .ok i := h
    rcases decodeM_cases w.toNat with ⟨h23, hd⟩ | ⟨-, -, hd⟩ | ⟨-, h15, h7, hd⟩
    · rw [hd] at h; cases h
      exact ⟨opcodeTable[8], List.getElem_mem _, rfl, selects_of_field (w := .m w) (lo := 23) (width := 1) rfl h23⟩
    · rw [hd] at h; cases h
    · exact ⟨_, statusRow_mem (hd ▸ h), rfl, selects_of_status h15 h7⟩
  | s a w =>
    have h : decodeS a w.toNat = .ok i := h
    rcases decodeS_cases a w.toNat with ⟨h15, hd⟩ | ⟨h15, hd⟩ <;> rw [hd] at h <;> cases h
    · exact ⟨opcodeTable[9], List.getElem_mem _, rfl, selects_of_field (w := .s a w) (lo := 15) (width := 1) rfl h15⟩
    · exact ⟨opcodeTable[10], List.getElem_mem _, rfl, selects_of_field (w := .s a w) (lo := 15) (width := 1) rfl h15⟩
  | n w =>
    have h : decodeN w.toNat = .ok i := h
    rcases decodeN_cases w.toNat with ⟨hk, hd⟩ | ⟨hk, hd⟩ | ⟨-, -, hd⟩ <;> rw [hd] at h <;> cases h
    · exact ⟨opcodeTable[11], List.getElem_mem _, rfl, selects_of_field (w := .n w) (lo := 7) (width := 9) rfl hk⟩
    · exact ⟨opcodeTable[12], List.getElem_mem _, rfl, selects_of_field (w := .n w) (lo := 7) (width := 9) rfl hk⟩
  | u w => exact ⟨_, updateRow_mem h, rfl, selects_of_field (w := .u w) rfl rfl⟩
  | c w =>
    cases h
    exact ⟨opcodeTable[30], List.getElem_mem _, rfl, selects_of_field (w := .c w) (lo := 0) (width := 0) rfl (Nat.mod_one _)⟩

/-- A word that a row selects decodes: the fields the row fixes exclude the decoder's errors. -/
theorem exists_decode_of_selects {r : OpRow} (hr : r ∈ opcodeTable) {w : PortWord} (h : r.selects w = true) :
    ∃ i, decode w = .ok i := by
  have hf := format_of_selects h
  cases w with
  | m w =>
    obtain ⟨hm23, hdata⟩ := midiRow_mask r hr hf
    have h23 : bitField w.toNat 23 1 = bitField r.pattern 23 1 := bitField_of_selects h hm23
    rcases decodeM_cases w.toNat with ⟨-, hd⟩ | ⟨h1, hbad, -⟩ | ⟨h1, -, -, hd⟩
    · exact ⟨_, hd⟩
    · obtain ⟨⟨hm15, hp15⟩, hm7, hp7⟩ := hdata (h23 ▸ h1)
      have h15 : bitField w.toNat 15 1 = 0 := (bitField_of_selects h hm15).trans hp15
      have h7 : bitField w.toNat 7 1 = 0 := (bitField_of_selects h hm7).trans hp7
      omega
    · obtain ⟨i, hi⟩ := decodeStatus_known (kind := bitField w.toNat 20 4) (by simp only [bitField] at *; omega) _ _ _
      exact ⟨i, hd.trans hi⟩
  | s a w => rcases decodeS_cases a w.toNat with ⟨-, hd⟩ | ⟨-, hd⟩ <;> exact ⟨_, hd⟩
  | n w =>
    obtain ⟨hm, hp⟩ := noteRow_mask r hr hf
    rw [← bitField_of_selects h hm] at hp
    rcases decodeN_cases w.toNat with ⟨-, hd⟩ | ⟨-, hd⟩ | ⟨hoff, hon, -⟩
    · exact ⟨_, hd⟩
    · exact ⟨_, hd⟩
    · exact absurd hp (not_or.2 ⟨hoff, hon⟩)
  | u w =>
    obtain ⟨hm, hp⟩ := updateRow_mask r hr hf
    rw [← bitField_of_selects h hm] at hp
    exact decodeUpdate_known hp _
  | c w => exact ⟨_, rfl⟩

/-- No word is selected by two rows (R150). -/
theorem row_eq_of_selects {r t : OpRow} (hr : r ∈ opcodeTable) (ht : t ∈ opcodeTable) {w : PortWord}
    (hrw : r.selects w = true) (htw : t.selects w = true) : r = t := by
  rcases opcodeTable_disjoint r hr t ht with hd | he
  · rw [not_both_selected hd w hrw] at htw
    cases htw
  · exact he

end Sys2Proof

open Sys2Proof Sys2Proof.Machine Sys2Proof.Safety

/-- Settles O1: format by format, the word built from fields in range has those fields. -/
theorem decodeOfEncodedInstruction : Obligations.DecodeOfEncodedInstruction := by
  unfold Obligations.DecodeOfEncodedInstruction
  exact fun i h => decode_encode h

/-- Settles O2: the fields of a word are in range and make up the word again, in every case in which its decoder answers an
instruction. -/
theorem encodeOfDecodedWord : Obligations.EncodeOfDecodedWord := by
  unfold Obligations.EncodeOfDecodedWord
  exact fun w i h => encode_of_decode h

/-- Settles O3: a selected word decodes, what it decodes to has a row that selects it, and that row is the only one. -/
theorem decodeFollowsOpcodeTable : Obligations.DecodeFollowsOpcodeTable := by
  unfold Obligations.DecodeFollowsOpcodeTable
  refine fun w => ⟨fun r hr hrw => ?_, fun i hi => exists_row_of_decode hi,
    fun r hr t ht hrw htw => row_eq_of_selects hr ht hrw htw⟩
  obtain ⟨i, hi⟩ := exists_decode_of_selects hr hrw
  obtain ⟨t, ht, hname, htw⟩ := exists_row_of_decode hi
  exact ⟨i, hi, by rw [← hname, row_eq_of_selects hr ht hrw htw]⟩

/-- Settles O4: each word is the encoding of the instruction it stands for. -/
theorem specWordsDecode : Obligations.SpecWordsDecode := by
  unfold Obligations.SpecWordsDecode
  exact ⟨decode_encode (i := .midiNoteOn 0 69 100) rfl, decode_encode (i := .midiCc 0 14 127) rfl,
    decode_encode (i := .midiNoStatus 0x3C 0x64 0) rfl, decode_encode (i := .set .ui 8 35) rfl,
    decode_encode (i := .get .ui 3 0) rfl, decode_encode (i := .nqNoteOff 60) rfl,
    decode_encode (i := .updDelayTimeS 0x3F094D3C#32) rfl, decode_encode (i := .render 4) rfl⟩
end

section
/-! SUPPORT. RENDER over what its channels hold, and the word of a malformed MIDI message (48_engine_render.md R460, R472, 30_encoding.md R160, 47_parameter_interface.md R455). -/

namespace Sys2Proof.Machine

open Sys2Proof.Safety

/-! ### RENDER after its note entry -/

/-- The part of RENDER that follows the note entry: the update, then the frames unless the update raised a fault (R460). -/
def updateThenFrames (b : Nat) (s : State) : Host.Outcome State Fault Refusal :=
  andThen (updateEffect s) fun t => if t.fault = none then emitFrames b t else .next t

theorem updateThenFrames_of_nil {b : Nat} {s : State} (hf : s.fault = none) (hq : s.updq = []) :
    updateThenFrames b s = emitFrames b s := by
  rw [updateThenFrames, updateEffect_of_nil hq, andThen_of_next, if_pos hf]

/-- An update that decodes raises no fault. -/
theorem updateThenFrames_of_decode {b : Nat} {s : State} (hf : s.fault = none) {u : Update} {rest : List Update}
    (hq : s.updq = u :: rest) (hk : knownId s.cfg u.id = true) {j : Instr} (hd : decode (updateWord u.id u.v) = .ok j)
    (hj : isChannelInstr j = true) : updateThenFrames b s = andThen (exec j { s with updq := rest }) (emitFrames b) := by
  obtain ⟨e, he⟩ := exec_channelInstr hj { s with updq := rest }
  rw [updateThenFrames, updateEffect_of_known hq hk, entryEffect_of_decode hd, he, andThen_of_next, andThen_of_next]
  exact if_pos hf

/-- RENDER of a running block is its note entry's effect and then the rest of it. -/
theorem exec_render_eq {s : State} (hr : Running s) (b : Nat)
    (hu : ∀ u, s.updq.head? = some u → knownId s.cfg u.id = true → u.id ≤ 16) :
    exec (.render b) s = andThen (noteEffect s) (updateThenFrames b) := by
  obtain ⟨s1, hnote, hcfg, hupdq⟩ : ∃ s1, drainNote s = .next s1 ∧ s1.cfg = s.cfg ∧ s1.updq = s.updq := by
    obtain ⟨al, hnote, -⟩ := drainNote_next s
    exact ⟨_, hnote, rfl, rfl⟩
  have hupd : drainUpdate s1 = updateEffect s1 := drainUpdate_eq_updateEffect s1 (by rw [hcfg, hupdq]; exact hu)
  obtain ⟨s2, hs2⟩ := drainUpdate_next s1
  show execRender b s = _
  rw [execRender, whenRunning_running hr.1 hr.2, ← drainNote_eq_noteEffect, hnote, andThen_of_next, andThen_of_next,
    updateThenFrames, ← hupd, hs2, andThen_of_next, andThen_of_next]
  cases s2.fault <;> rfl

/-- What follows a channel entry need only be known in the states that differ in the engine. -/
theorem andThen_exec_congr {i : Instr} (hi : isChannelInstr i = true) {s : State}
    {k k' : State → Host.Outcome State Fault Refusal} (h : ∀ e, k (withEngine e s) = k' (withEngine e s)) :
    andThen (exec i s) k = andThen (exec i s) k' := by
  obtain ⟨e, he⟩ := exec_channelInstr hi s
  rw [he, andThen_of_next, andThen_of_next, h]

/-! ### What the words in the channels decode to -/

theorem isChannelInstr_of_note {x : BitVec 16} {i : Instr} (h : decode (.n x) = .ok i) : isChannelInstr i = true := by
  have h : decodeN x.toNat = .ok i := h
  rcases decodeN_cases x.toNat with ⟨-, hd⟩ | ⟨-, hd⟩ | ⟨-, -, hd⟩ <;> rw [hd] at h <;> cases h <;> rfl

theorem id_le_of_decode {u : Update} (hid : u.id < 256) {j : Instr} (h : decode (updateWord u.id u.v) = .ok j) : u.id ≤ 16 := by
  rw [decode_updateWord hid] at h
  by_contra hc
  rw [decodeUpdate_unknown (by omega)] at h
  cases h

theorem isChannelInstr_of_decodeUpdate {id : Nat} {v : NUM} {j : Instr} (h : decodeUpdate id v = .ok j) :
    isChannelInstr j = true := by
  unfold decodeUpdate at h
  split at h <;> cases h <;> rfl

theorem isChannelInstr_of_update {u : Update} (hid : u.id < 256) {j : Instr} (h : decode (updateWord u.id u.v) = .ok j) :
    isChannelInstr j = true :=
  isChannelInstr_of_decodeUpdate ((decode_updateWord hid u.v).symm.trans h)

/-! ### A malformed MIDI word -/

theorem bitField_one_of_getLsbD {n k : Nat} {w : BitVec n} (h : w.getLsbD k = true) : bitField w.toNat k 1 = 1 := by
  rw [BitVec.getLsbD, Nat.testBit_eq_decide_div_mod_eq, decide_eq_true_eq] at h
  exact h

theorem decode_malformed {w : BitVec 24} (h23 : w.getLsbD 23 = true) (hbad : w.getLsbD 15 = true ∨ w.getLsbD 7 = true) :
    decode (.m w) = .error .malformedDataByte := by
  show decodeM w.toNat = _
  rw [decodeM, if_neg (by simp [bitField_one_of_getLsbD h23]),
    if_pos (hbad.imp bitField_one_of_getLsbD bitField_one_of_getLsbD)]

end Sys2Proof.Machine

open Sys2Proof Sys2Proof.Machine Sys2Proof.Safety

/-- Settles O6: RENDER is the effects of the two entries and then its frames; a note entry that decodes changes only the
engine, and an update that decodes raises no fault. -/
theorem renderRunsPoppedEntries : Obligations.RenderRunsPoppedEntries := by
  unfold Obligations.RenderRunsPoppedEntries
  refine ⟨fun s x rest hr hi => ?_, fun s x rest hr hi => ?_, fun s b hr hu => exec_render_eq hr b hu,
    fun s b x q hr hn hq => ?_, fun s b u p j hr hq hid hk hj => ?_⟩
  · rw [step_of_running hr, stepSchedule_of_word hi]
    rfl
  · rw [step_of_running hr, stepSchedule_of_word hi]
    rfl
  · rw [exec_render_eq hr b (by simp [hq]), noteEffect_of_cons hn]
    refine ⟨fun i hi => ?_, fun e he => ?_⟩
    · rw [entryEffect_of_decode hi]
      exact andThen_exec_congr (isChannelInstr_of_note hi) fun _ => updateThenFrames_of_nil hr.1 hq
    · rw [entryEffect_of_no_row he, andThen_of_next]
      exact updateThenFrames_of_nil hr.1 hq
  · have hle := id_le_of_decode hid hj
    have hc := isChannelInstr_of_update hid hj
    rw [exec_render_eq hr b (by rw [hq]; rintro v ⟨⟩ -; exact hle)]
    refine ⟨fun hn => ?_, fun x q i hn hi => ?_, fun x q e hn he => ?_⟩
    · rw [noteEffect_of_nil hn, andThen_of_next]
      exact updateThenFrames_of_decode hr.1 hq hk hj hc
    · rw [noteEffect_of_cons hn, entryEffect_of_decode hi]
      exact andThen_exec_congr (isChannelInstr_of_note hi) fun e =>
        updateThenFrames_of_decode (s := withEngine e { s with noteq := q }) hr.1 hq hk hj hc
    · rw [noteEffect_of_cons hn, entryEffect_of_no_row he, andThen_of_next]
      exact updateThenFrames_of_decode (s := { s with noteq := q }) hr.1 hq hk hj hc

/-- Settles O7: the word has no row, so its step only takes it off the schedule. -/
theorem malformedMidiWordIsIgnored : Obligations.MalformedMidiWordIsIgnored := by
  unfold Obligations.MalformedMidiWordIsIgnored
  intro s w rest hr hi hp h23 hbad
  rw [step_of_running hr, stepSchedule_of_word hi]
  exact stepWord_of_no_row (a := .midi) rfl hp (decode_malformed h23 hbad) rest
end

section
/-! SUPPORT. The held notes over sequences of additions and removals, and the two entries of the note channel (41_voice_allocator.md R200, R201, R203, 48_engine_render.md R470, R471). -/

namespace Sys2Proof.Machine

/-! ### ADD_NOTE of a note not held (R200) -/

theorem addNote_room {cap n : Nat} {al : List Nat} (hn : n ∉ al) (hroom : al.length ≠ cap) : addNote cap n al = al ++ [n] := by
  rw [addNote, if_neg hn, if_neg hroom]

theorem addNote_full {cap n : Nat} {al : List Nat} (hn : n ∉ al) (hfull : al.length = cap) :
    addNote cap n al = al.tail ++ [n] := by
  rw [addNote, if_neg hn, if_pos hfull]

/-! ### What every addition and removal keeps (R203) -/

/-- The held notes are at most the capacity and distinct. -/
def BoundedDistinct (cap : Nat) (al : List Nat) : Prop := al.length ≤ cap ∧ al.Nodup

theorem addNote_boundedDistinct {cap : Nat} (hc : 1 ≤ cap) {al : List Nat} (h : BoundedDistinct cap al) (n : Nat) :
    BoundedDistinct cap (addNote cap n al) :=
  ⟨addNote_length_le hc h.1 n, addNote_nodup h.2 cap n⟩

theorem removeNote_boundedDistinct {cap : Nat} {al : List Nat} (h : BoundedDistinct cap al) (n : Nat) :
    BoundedDistinct cap (removeNote n al) :=
  ⟨(removeNote_length_le n al).trans h.1, removeNote_nodup h.2 n⟩

theorem foldl_boundedDistinct {cap : Nat} (hc : 1 ≤ cap) (ops : List (Bool × Nat)) {al : List Nat}
    (h : BoundedDistinct cap al) :
    BoundedDistinct cap (ops.foldl (fun al op => if op.1 then addNote cap op.2 al else removeNote op.2 al) al) := by
  induction ops generalizing al with
  | nil => exact h
  | cons op ops ih =>
    obtain ⟨added, n⟩ := op
    cases added with
    | true => exact ih (addNote_boundedDistinct hc h n)
    | false => exact ih (removeNote_boundedDistinct h n)

/-! ### The entries of the note channel (R470, R471) -/

theorem exec_nqNoteOff (n : Nat) (s : State) :
    exec (.nqNoteOff n) s = .next (withEngine { s.engine with alloc := removeNote n s.engine.alloc } s) := rfl

theorem exec_nqNoteOn (n : Nat) (s : State) :
    exec (.nqNoteOn n) s = .next (withEngine { s.engine with alloc := addNote s.cfg.n n s.engine.alloc } s) := rfl

end Sys2Proof.Machine

open Sys2Proof Sys2Proof.Machine Sys2Proof.Safety

/-- Settles O21: no held notes are bounded and distinct, and each addition and each removal keeps them so; the two no-ops
hold of any held notes. -/
theorem allocatorStaysBoundedAndDistinct : Obligations.AllocatorStaysBoundedAndDistinct := by
  unfold Obligations.AllocatorStaysBoundedAndDistinct
  intro cap ops hc held
  obtain ⟨hbound, hdistinct⟩ : BoundedDistinct cap held := foldl_boundedDistinct hc ops ⟨Nat.zero_le cap, List.nodup_nil⟩
  exact ⟨hbound, hdistinct, fun n hn => addNote_held hn cap, fun n hn => removeNote_absent hn⟩

/-- Settles O20: the entries are REMOVE_NOTE and ADD_NOTE on the held notes, and ADD_NOTE has three cases. -/
theorem noteEntriesChangeAllocator : Obligations.NoteEntriesChangeAllocator := by
  unfold Obligations.NoteEntriesChangeAllocator
  refine fun s n => ⟨exec_nqNoteOff n s, fun hheld => ?_, fun habsent hroom => ?_, fun habsent hfull => ?_⟩
  · rw [exec_nqNoteOn, addNote_held hheld]
    rfl
  · rw [exec_nqNoteOn, addNote_room habsent hroom]
    rfl
  · rw [exec_nqNoteOn, addNote_full habsent hfull]
    rfl
end

section
/-! SUPPORT. The envelope: the two entries that set its times, and ENV_PROCESS by state (42_envelope.md R220, R223, 47_parameter_interface.md R430, R431). -/

namespace Sys2Proof.Machine

/-! ### The entries of the two times (R430, R431) -/

theorem exec_updAttackMs (v : NUM) (s : State) :
    exec (.updAttackMs v) s = .next (withEngine (setAttackMs s.cfg v s.engine) s) := rfl

theorem exec_updReleaseMs (v : NUM) (s : State) :
    exec (.updReleaseMs v) s = .next (withEngine (setReleaseMs s.cfg v s.engine) s) := rfl

/-! ### ENV_PROCESS by state (R223) -/

theorem envProcess_of_rest {v : Voice} (h : v.envState = .off ∨ v.envState = .sustain) (m : Numerics) (r : EnvRegs) :
    envProcess m r v = v := by
  rcases h with h | h <;> rw [envProcess, h]

theorem envProcess_of_attack {v : Voice} (h : v.envState = .attack) (m : Numerics) (r : EnvRegs) :
    envProcess m r v =
      if m.le (m.ofNat 1) (m.add v.envVal r.inc) then { v with envVal := m.ofNat 1, envState := .sustain }
      else { v with envVal := m.add v.envVal r.inc } := by
  rw [envProcess, h]

theorem envProcess_of_release {v : Voice} (h : v.envState = .release) (m : Numerics) (r : EnvRegs) :
    envProcess m r v =
      if m.le (m.sub v.envVal r.dec) (m.ofNat 0) then { v with envVal := m.ofNat 0, envState := .off }
      else { v with envVal := m.sub v.envVal r.dec } := by
  rw [envProcess, h]

end Sys2Proof.Machine

open Sys2Proof Sys2Proof.Machine Sys2Proof.Safety

/-- Settles O22: each entry writes its time and its rate, and the formula of the rate is that of `envIncrement`. -/
theorem envelopeTimeUpdatesSetIncrement : Obligations.EnvelopeTimeUpdatesSetIncrement := by
  unfold Obligations.EnvelopeTimeUpdatesSetIncrement
  exact fun s v => ⟨exec_updAttackMs v s, exec_updReleaseMs v s⟩

/-- Settles O32: each ramp ends by the comparison with its bound, and the other two states rest. -/
theorem envelopeProcessRampsAndClamps : Obligations.EnvelopeProcessRampsAndClamps := by
  unfold Obligations.EnvelopeProcessRampsAndClamps
  intro m r v up down
  refine ⟨fun hrest => envProcess_of_rest hrest m r, fun hatt hend => ?_, fun hatt hgoes => ?_,
    fun hrel hend => ?_, fun hrel hgoes => ?_⟩
  · rw [envProcess_of_attack hatt, if_pos hend]
  · rw [envProcess_of_attack hatt, if_neg (Bool.eq_false_iff.1 hgoes)]
  · rw [envProcess_of_release hrel, if_pos hend]
  · rw [envProcess_of_release hrel, if_neg (Bool.eq_false_iff.1 hgoes)]
end

section
/-! SUPPORT. The oscillator: the series of OSC_PROCESS up to the anti-aliasing guard, its normalisation, and a voice's lane through a frame (43_oscillator.md R250 to R259, 48_engine_render.md R463, R464). -/

namespace Sys2Proof.Machine

/-! ### The series (R251 to R253) -/

/-- The sum of the first `n` partials' terms, in increasing order from +0.0 (R253, R9). -/
def seriesSum (m : Numerics) (phase e : NUM) (spacing n : Nat) : NUM :=
  (List.range n).foldl (fun acc j => m.add acc (partialTerm m (multiplier spacing j) phase e)) NUM.zero

theorem seriesSum_succ (m : Numerics) (phase e : NUM) (spacing n : Nat) :
    seriesSum m phase e spacing (n + 1) =
      m.add (seriesSum m phase e spacing n) (partialTerm m (multiplier spacing n) phase e) := by
  simp [seriesSum, List.range_succ]

/-- `(sum, count)` is the series cut at the first partial above half the sample rate, or at `bound` partials (R252, R253). -/
structure SeriesCut (m : Numerics) (fs freq phase e : NUM) (spacing bound : Nat) (r : NUM × Nat) : Prop where
  bounded : r.2 ≤ bound
  included : ∀ j < r.2, aboveNyquist m fs freq (multiplier spacing j) = false
  ended : r.2 < bound → aboveNyquist m fs freq (multiplier spacing r.2) = true
  sum : r.1 = seriesSum m phase e spacing r.2

/-- The loop's invariant: at partial `j` the running sum is that of the `j` partials passed, none of them above half the
sample rate. -/
theorem oscLoop_from {m : Numerics} {fs freq : NUM} {spacing : Nat} (phase e : NUM) (fuel : Nat) :
    ∀ j, (∀ i < j, aboveNyquist m fs freq (multiplier spacing i) = false) →
      SeriesCut m fs freq phase e spacing (j + fuel)
        (oscLoop m fs freq phase e spacing fuel j (seriesSum m phase e spacing j) j) := by
  induction fuel with
  | zero =>
    intro j hbelow
    exact ⟨Nat.le_refl _, hbelow, fun h => absurd h (Nat.lt_irrefl _), rfl⟩
  | succ fuel ih =>
    intro j hbelow
    cases hj : aboveNyquist m fs freq (multiplier spacing j) with
    | true =>
      simp only [oscLoop, hj, if_true]
      exact ⟨Nat.le_add_right .., hbelow, fun _ => hj, rfl⟩
    | false =>
      simp only [oscLoop, hj, Bool.false_eq_true, if_false]
      rw [← seriesSum_succ, show j + (fuel + 1) = j + 1 + fuel by omega]
      exact ih (j + 1) (Nat.forall_lt_succ_right.2 ⟨hbelow, hj⟩)

theorem oscLoop_seriesCut (m : Numerics) (fs freq phase e : NUM) (spacing bound : Nat) :
    SeriesCut m fs freq phase e spacing bound (oscLoop m fs freq phase e spacing bound 0 NUM.zero 0) := by
  have h := oscLoop_from (m := m) (fs := fs) (freq := freq) (spacing := spacing) phase e bound 0 (by simp)
  rwa [Nat.zero_add] at h

/-- The guard alone fixes the count: the sum, the phase and the exponent have no part in it. -/
theorem SeriesCut.count_eq {m : Numerics} {fs freq phase e : NUM} {spacing bound n : Nat} {r : NUM × Nat}
    (h : SeriesCut m fs freq phase e spacing bound r) (hn : n < bound)
    (hbelow : ∀ j < n, aboveNyquist m fs freq (multiplier spacing j) = false)
    (habove : aboveNyquist m fs freq (multiplier spacing n) = true) : r.2 = n := by
  rcases Nat.lt_trichotomy r.2 n with hlt | heq | hgt
  · exact absurd (h.ended (hlt.trans hn)) (by simp [hbelow r.2 hlt])
  · exact heq
  · exact absurd habove (by simp [h.included n hgt])

/-- At 440 Hz and 48000 Hz the count is found by the guard of one maths library: the guard calls none of its functions. -/
theorem concertPitch_count (l : MathsLib) (phase e : NUM) {spacing bound n : Nat} (hn : n < bound)
    (hbelow : ∀ j < n, aboveNyquist (binary32 .platform) (f32OfRat 48000 1) (f32OfRat 440 1) (multiplier spacing j) = false)
    (habove : aboveNyquist (binary32 .platform) (f32OfRat 48000 1) (f32OfRat 440 1) (multiplier spacing n) = true) :
    (oscLoop (binary32 l) (f32OfRat 48000 1) (f32OfRat 440 1) phase e spacing bound 0 NUM.zero 0).2 = n :=
  (oscLoop_seriesCut ..).count_eq hn hbelow habove

/-! ### The normalisation (R256) -/

theorem sumOfGains_eq_foldl (m : Numerics) (e : NUM) (spacing count : Nat) :
    sumOfGains m e spacing count =
      (List.range count).foldl (fun acc j => m.add acc (partialGain m (multiplier spacing j) e)) NUM.zero := by
  induction count with
  | zero => rfl
  | succ count ih => simp [sumOfGains, List.range_succ, ih]

theorem oscNorm_sumOfGains {c : Cfg} (h : c.oscNorm = .sumOfGains) (count : Nat) (e : NUM) (spacing : Nat) :
    oscNorm c count e spacing = sumOfGains c.nm e spacing count := by
  rw [oscNorm, h]

/-! ### A voice's lane (R255, R462 to R464) -/

theorem envProcess_freq_phase (m : Numerics) (r : EnvRegs) (v : Voice) :
    (envProcess m r v).freq = v.freq ∧ (envProcess m r v).phase = v.phase := by
  cases h : v.envState with
  | off => rw [envProcess_of_rest (.inl h)]; exact ⟨rfl, rfl⟩
  | sustain => rw [envProcess_of_rest (.inr h)]; exact ⟨rfl, rfl⟩
  | attack => rw [envProcess_of_attack h]; split <;> exact ⟨rfl, rfl⟩
  | release => rw [envProcess_of_release h]; split <;> exact ⟨rfl, rfl⟩

theorem voiceGate_some_freq (m : Numerics) (n : Nat) (v : Voice) : (voiceGate m (some n) v).freq = mtof m n := rfl

/-- Gate and envelope hold the phase (R462, R223). -/
theorem envProcess_voiceGate_phase (m : Numerics) (r : EnvRegs) (cur : Option Nat) (v : Voice) :
    (envProcess m r (voiceGate m cur v)).phase = v.phase :=
  (envProcess_freq_phase ..).2.trans (voiceGate_phase ..)

/-- A gated voice with a note has the note's frequency, which the envelope keeps (R462, R250). -/
theorem envProcess_voiceGate_freq (m : Numerics) (r : EnvRegs) (n : Nat) (v : Voice) :
    (envProcess m r (voiceGate m (some n) v)).freq = mtof m n :=
  (envProcess_freq_phase ..).1.trans (voiceGate_some_freq ..)

/-- The lane of a voice without a note: the envelope runs, nothing is contributed (R463). -/
theorem voiceOut_gated_none (c : Cfg) (env : EnvRegs) (osc : OscRegs) (v : Voice) :
    voiceOut c env osc none (voiceGate c.nm none v) = (none, envProcess c.nm env (voiceGate c.nm none v)) := rfl

/-- The lane of a voice with note `n`: its sample at MTOF(n) and its own phase, times its envelope value after the update,
and the phase advanced by that frequency (R250, R255, R463). -/
theorem voiceOut_gated_some (c : Cfg) (env : EnvRegs) (osc : OscRegs) (n : Nat) (v : Voice) :
    voiceOut c env osc (some n) (voiceGate c.nm (some n) v) =
      (some (c.nm.mul (oscSample c osc (mtof c.nm n) v.phase) (envProcess c.nm env (voiceGate c.nm (some n) v)).envVal),
        { envProcess c.nm env (voiceGate c.nm (some n) v) with
          phase := c.nm.frac (c.nm.add v.phase (c.nm.div (mtof c.nm n) c.fs)) }) := by
  simp only [voiceOut, phaseAdvance, envProcess_voiceGate_freq, envProcess_voiceGate_phase]

/-- The voice at place `i` after a frame (R464). -/
theorem frame_voice {e : Engine} {i : Nat} {v : Voice} (hv : e.voices[i]? = some v) (c : Cfg) :
    (frame c e).2.voices[i]? =
      some (voiceOut c e.env e.osc (voiceNote e.alloc i) (voiceGate c.nm (voiceNote e.alloc i) v)).2 := by
  have h := mixVoices_get c e.env e.osc e.alloc e.voices 0 i NUM.zero v hv
  rwa [Nat.zero_add] at h

end Sys2Proof.Machine

open Sys2Proof Sys2Proof.Machine Sys2Proof.Safety

/-- Settles O33: the loop's invariant carries the guard, the bound and the sum; the reference normalisation adds the same
gains in the same order. -/
theorem oscillatorStopsBelowNyquist : Obligations.OscillatorStopsBelowNyquist := by
  unfold Obligations.OscillatorStopsBelowNyquist
  refine ⟨fun m fs freq phase e spacing maxPartials => ?_, fun c osc freq phase => ?_, fun c count e spacing href => ?_⟩
  · obtain ⟨hbound, hincl, hend, hsum⟩ := oscLoop_seriesCut m fs freq phase e spacing maxPartials
    exact ⟨hbound, hincl, hend, hsum⟩
  · exact ⟨fun hzero => if_pos hzero, fun hsome => if_neg hsome⟩
  · rw [oscNorm_sumOfGains href]
    exact sumOfGains_eq_foldl ..

/-- Settles O35: the bank runs each place's lane by itself; gate and envelope leave the phase, and the note gives the
frequency. -/
theorem voicesAreIndependentLanes : Obligations.VoicesAreIndependentLanes := by
  unfold Obligations.VoicesAreIndependentLanes
  intro c e i v hv m cur p o
  refine ⟨frame_voice hv c, fun hnone => ⟨?_, envProcess_voiceGate_phase ..⟩, fun n hn => ?_⟩
  · simp only [o, p, hnone]
    exact voiceOut_gated_none ..
  · simp only [o, p, hn]
    exact ⟨envProcess_voiceGate_freq .., voiceOut_gated_some ..⟩

/-- Settles O34: 54 multiples of 440 (27 of the odd ones) do not exceed 24000 and the next one does. -/
theorem partialCountsAtConcertPitch : Obligations.PartialCountsAtConcertPitch := by
  unfold Obligations.PartialCountsAtConcertPitch
  intro l phase e
  exact ⟨concertPitch_count l phase e (by decide) (by decide +kernel) (by decide +kernel),
    concertPitch_count l phase e (by decide) (by decide +kernel) (by decide +kernel)⟩
end

section
/-! SUPPORT. The coefficient set and the clamps of the filter, and a frame as one chain of folds over the voices and the reverb stages (44_biquad.md R282 to R290, 46_reverb.md R382, 48_engine_render.md R460, R464, R465). -/

namespace Sys2Proof.Machine

/-! ### The filter (R282 to R286, R290) -/

/-- The quotients by a0, as the filter's coefficients (R282). -/
def withCoeffs (m : Numerics) (k : RawCoeffs) (f : Biquad) : Biquad :=
  { f with b0 := m.div k.b0 k.a0, b1 := m.div k.b1 k.a0, b2 := m.div k.b2 k.a0,
           a1 := m.div k.a1 k.a0, a2 := m.div k.a2 k.a0 }

/-- BQ_COEFFS of a filter of a given type divides that type's closed forms by their a0. -/
theorem bqCoeffs_of_kind {f : Biquad} {kind : FilterType} (h : f.kind = kind) (c : Cfg) :
    let m := c.nm
    let w := m.div (m.mul (m.mul (m.ofNat 2) m.pi) f.fc) c.fs
    let alpha := m.div (m.sin w) (m.mul (m.ofNat 2) f.q)
    let a := m.pow (m.ofNat 10) (m.div f.gdb (m.ofNat 40))
    bqCoeffs c f = withCoeffs m (rawCoeffs m kind (m.cos w) alpha a) f := by
  subst h
  rfl

/-- The bounds of the feedback term and of the filter's input are in order. -/
theorem filter_bounds_ordered {m : Numerics} {l : MathsLib} (hm : m = binary32 l) :
    m.lt (m.rat 9 2) (m.rat (-9) 2) = false ∧ m.lt (m.ofNat 5) (m.ofInt (-5)) = false := by
  subst hm
  cases l <;> decide +kernel

/-! ### The frame chain (R464, R465, R382) -/

/-- What the voice at a place does in a frame: the gate with the place's note, then VOICE_OUT. -/
def voiceLane (c : Cfg) (env : EnvRegs) (osc : OscRegs) (al : List Nat) (p : Voice × Nat) : Option NUM × Voice :=
  voiceOut c env osc al[p.2]? (voiceGate c.nm al[p.2]? p.1)

/-- The running sum after one voice: a voice without a note leaves it. -/
def addContribution (m : Numerics) (acc : NUM) (o : Option NUM × Voice) : NUM := o.1.elim acc (fun x => m.add acc x)

/-- The first place's lane adds its contribution; the places after it go on from that sum. -/
theorem mixVoices_cons (c : Cfg) (env : EnvRegs) (osc : OscRegs) (al : List Nat) (i : Nat) (acc : NUM) (v : Voice)
    (vs : List Voice) :
    mixVoices c env osc al i acc (v :: vs) =
      ((mixVoices c env osc al (i + 1) (addContribution c.nm acc (voiceLane c env osc al (v, i))) vs).1,
        (voiceLane c env osc al (v, i)).2 ::
          (mixVoices c env osc al (i + 1) (addContribution c.nm acc (voiceLane c env osc al (v, i))) vs).2) := by
  simp only [mixVoices, voiceLane, voiceNote]
  rcases voiceOut c env osc al[i]? (voiceGate c.nm al[i]? v) with ⟨_ | x, w⟩
  · rfl
  · rfl

/-- The mixer sums the contributions of the places' lanes in order and keeps the lanes' voices. -/
theorem mixVoices_eq_lanes (c : Cfg) (env : EnvRegs) (osc : OscRegs) (al : List Nat) (i : Nat) (acc : NUM) (vs : List Voice) :
    mixVoices c env osc al i acc vs =
      (((vs.zipIdx i).map (voiceLane c env osc al)).foldl (addContribution c.nm) acc,
        ((vs.zipIdx i).map (voiceLane c env osc al)).map Prod.snd) := by
  induction vs generalizing i acc with
  | nil => rfl
  | cons v vs ih => simp only [mixVoices_cons, ih, List.zipIdx_cons, List.map_cons, List.foldl_cons]

/-- MIX is the gained sum of the lanes' contributions, from +0.0, beside the lanes' voices (R464). -/
theorem mix_eq_lanes (c : Cfg) (e : Engine) :
    mix c e =
      (c.nm.mul c.mixGain
        ((e.voices.zipIdx.map (voiceLane c e.env e.osc e.alloc)).foldl (addContribution c.nm) NUM.zero),
        (e.voices.zipIdx.map (voiceLane c e.env e.osc e.alloc)).map Prod.snd) := by
  rw [mix, mixVoices_eq_lanes]

/-- One stage of the reverb after others: the signal so far runs through it and is halved, and it joins the stages that have
run (R382). -/
def stageInSeries (m : Numerics) (cap : Nat) (p : NUM × List Stage) (st : Stage) : NUM × List Stage :=
  (m.mul (m.rat 1 2) (dlProcess m cap .allpass st.g NUM.zero p.1 st.rb).1,
    p.2 ++ [{ st with rb := (dlProcess m cap .allpass st.g NUM.zero p.1 st.rb).2 }])

/-- The stages in series, as a fold that carries the stages that have run. -/
theorem foldl_stageInSeries (m : Numerics) (cap : Nat) (x : NUM) (ran sts : List Stage) :
    sts.foldl (stageInSeries m cap) (x, ran) = ((runStages m cap x sts).1, ran ++ (runStages m cap x sts).2) := by
  induction sts generalizing x ran with
  | nil => simp [runStages]
  | cons st sts ih => simp [stageInSeries, runStages, ih]

/-- RV_PROCESS crossfades its input with what leaves the last stage (R382). -/
theorem rvProcess_eq_series (m : Numerics) (cap : Nat) (x : NUM) (rv : Reverb) :
    rvProcess m cap x rv =
      (xfade m x (rv.stages.foldl (stageInSeries m cap) (x, [])).1 rv.mix,
        { rv with stages := (rv.stages.foldl (stageInSeries m cap) (x, [])).2 }) := by
  rw [foldl_stageInSeries, List.nil_append, rvProcess]

/-- One frame more is FRAME of what the frames before it left (R460). -/
theorem frames_succ_last (c : Cfg) (b : Nat) (e : Engine) :
    frames c (b + 1) e =
      ((frames c b e).1 ++ [(frame c (frames c b e).2).1], (frame c (frames c b e).2).2) := frames_add c b 1 e

/-- The engine after B frames is FRAME applied B times. -/
theorem frames_engine_eq_repeat (c : Cfg) (b : Nat) (e : Engine) :
    (frames c b e).2 = Nat.repeat (fun x => (frame c x).2) b e := by
  induction b with
  | zero => rfl
  | succ b ih => rw [frames_succ_last, Nat.repeat, ← ih]

/-- Frame number k is emitted from the engine after k frames. -/
theorem frames_outputs_eq_map (c : Cfg) (b : Nat) (e : Engine) :
    (frames c b e).1 = (List.range b).map (fun k => (frame c (Nat.repeat (fun x => (frame c x).2) k e)).1) := by
  induction b with
  | zero => rfl
  | succ b ih =>
    rw [frames_succ_last, List.range_succ, List.map_append, ← ih, frames_engine_eq_repeat]
    rfl

end Sys2Proof.Machine

open Sys2Proof Sys2Proof.Machine Sys2Proof.Safety

/-- Settles O36: each of the four values is a clamp, and binary32 holds its bounds in order. -/
theorem filterClampsBoundItsState : Obligations.FilterClampsBoundItsState := by
  unfold Obligations.FilterClampsBoundItsState
  intro c f x hb m r
  obtain ⟨l, -, hm⟩ := isBinary32_nm hb
  obtain ⟨hterm, hinput⟩ := filter_bounds_ordered hm
  obtain ⟨-, -, -, htap⟩ := literal_bounds_ordered hm
  exact ⟨clamp_within hm hterm _, clamp_within hm hinput _, clamp_within hm htap _, clamp_within hm htap _⟩

/-- Settles O42: the mixer is a fold over its lanes and the reverb one over its stages, filter and delay line are the rules
themselves; B frames are FRAME repeated, by induction with the last frame apart. -/
theorem frameRunsTheChainInOrder : Obligations.FrameRunsTheChainInOrder := by
  unfold Obligations.FrameRunsTheChainInOrder
  refine ⟨fun c e => ?_, fun c e b => ⟨frames_outputs_eq_map c b e, frames_engine_eq_repeat c b e⟩⟩
  intro m f voice outs sum t u y1 y2 stage wet mm
  simp only [frame, mix_eq_lanes, rvProcess_eq_series]
  exact ⟨rfl, rfl⟩

/-- Settles O25: the type selects its closed forms, which BQ_COEFFS divides by a0. -/
theorem coefficientsFollowTopology : Obligations.CoefficientsFollowTopology := by
  unfold Obligations.CoefficientsFollowTopology
  intro c f m w cs alpha a one two m2cs normalised
  exact ⟨fun hlp => bqCoeffs_of_kind hlp c, fun hhp => bqCoeffs_of_kind hhp c, fun hbp => bqCoeffs_of_kind hbp c,
    fun hpk => bqCoeffs_of_kind hpk c⟩
end

section
/-! SUPPORT. A ring-buffer read by its neighbours and its compensation (45_ring_buffer_delay.md R325 to R328), and the crossfade's ends under the binary32 NUM (R340, 46_reverb.md R382 to R384). -/

namespace Sys2Proof.Machine

/-! ### The neighbours of a read (R328, R101) -/

/-- A value already in [0, C) is its own wrap. -/
theorem wrapInt_of_inside {v : Int} {c : Nat} (h0 : 0 ≤ v) (hc : v < c) : (wrapInt v c : Int) = v := by
  rw [wrapInt, Int.emod_eq_of_lt h0 hc, Int.toNat_of_nonneg h0]

theorem ringNeighbours_running {rb : RingBuf} (h : rb.frozen = false) (m : Numerics) (cap : Nat) :
    ringNeighbours m cap rb =
      (wrapInt (m.floor rb.r) cap, wrapInt (m.floor rb.r + 1) cap, m.sub rb.r (m.ofInt (m.floor rb.r))) := by
  simp [ringNeighbours, h]

theorem ringNeighbours_frozen {rb : RingBuf} (h : rb.frozen = true) (m : Numerics) (cap : Nat) :
    ringNeighbours m cap rb =
      (wrapInt ((rb.frzStart : Int) + m.floor rb.frzOff) cap,
        wrapInt ((rb.frzStart : Int) + (wrapInt (m.floor rb.frzOff + 1) rb.frzS : Int)) cap,
        m.sub rb.frzOff (m.ofInt (m.floor rb.frzOff))) := by
  simp [ringNeighbours, h]

/-- Both neighbours are elements of a buffer that has any. -/
theorem ringNeighbours_lt {cap : Nat} (hc : 0 < cap) (m : Numerics) (rb : RingBuf) :
    (ringNeighbours m cap rb).1 < cap ∧ (ringNeighbours m cap rb).2.1 < cap := by
  cases hz : rb.frozen with
  | false =>
    simp only [ringNeighbours_running hz, wrapInt_lt _ hc, and_self]
  | true =>
    simp only [ringNeighbours_frozen hz, wrapInt_lt _ hc, and_self]

/-! ### The value a read answers (R328) -/

/-- What a read remembers is the interpolation of the elements at its neighbours. -/
theorem ringRead_apPrev {m : Numerics} {cap : Nat} {rb : RingBuf} {i0 i1 : Nat} {f : NUM}
    (h : ringNeighbours m cap rb = (i0, i1, f)) :
    (ringRead m cap rb).2.apPrev = interpolate m rb.interp (rb.buf.read i0) (rb.buf.read i1) f rb.apPrev := by
  simp only [ringRead, ringInterpolated, h]

theorem ringRead_compensated {m : Numerics} {rb : RingBuf} (hz : rb.frozen = true) (hs : m.lt rb.step (m.ofNat 1) = true)
    (cap : Nat) : (ringRead m cap rb).1 = m.div (ringRead m cap rb).2.apPrev (m.pow rb.step (m.rat 3 2)) := by
  simp [ringRead, hz, hs]

theorem ringRead_uncompensated {m : Numerics} {rb : RingBuf} (h : rb.frozen = false ∨ m.lt rb.step (m.ofNat 1) = false)
    (cap : Nat) : (ringRead m cap rb).1 = (ringRead m cap rb).2.apPrev := by
  rcases h with hz | hs
  · simp [ringRead, hz]
  · simp [ringRead, hs]

/-! ### A sum that is a value, and the crossfade's ends (R340, R384) -/

/-- A sum of finite values that is exactly a finite value compares equal to it. -/
theorem f32Add_compares_equal {x y z : NUM} (hx : f32IsFinite x = true) (hy : f32IsFinite y = true)
    (hz : f32IsFinite z = true) (h : f32Int x + f32Int y = f32Int z) :
    f32Le (f32Add x y) z = true ∧ f32Le z (f32Add x y) = true := by
  have hs := f32Add_notNaN hx hy
  have hn := (f32IsFinite_not hz).1
  rw [f32Le_iff hs hn, f32Le_iff hn hs]
  exact ⟨f32Add_le hx hy hn h.le, le_f32Add hx hy hn h.ge⟩

/-- A zero of either sign is finite and counts no units. -/
theorem finite_int_of_mag_zero {z : NUM} (h : f32Mag z = 0) : f32IsFinite z = true ∧ f32Int z = 0 := by
  have hu : f32Units z = 0 := f32UnitsOfMag_eq_zero.2 h
  exact ⟨by rw [f32IsFinite, h]; rfl, by simp [f32Int, hu]⟩

section Binary32

variable {m : Numerics} {l : MathsLib}

/-- Fully dry, a crossfade of finite values compares equal to its dry input. -/
theorem xfade_dry (hm : m = binary32 l) {dry wet : NUM} (hd : m.isFinite dry = true) (hw : m.isFinite wet = true) :
    m.le (xfade m dry wet (m.ofNat 0)) dry = true ∧ m.le dry (xfade m dry wet (m.ofNat 0)) = true := by
  subst hm
  have hdf := isFinite_binary32 hd
  obtain ⟨hzf, hzi⟩ := finite_int_of_mag_zero (f32Mul_zero_left (isFinite_binary32 hw))
  rw [binary32_zero, (xfade_ends l dry wet).1, f32Mul_one_left (f32IsFinite_not hdf).1]
  exact f32Add_compares_equal hdf hzf hdf (by rw [hzi, add_zero])

/-- Fully wet, a crossfade of finite values compares equal to its wet input. -/
theorem xfade_wet (hm : m = binary32 l) {dry wet : NUM} (hd : m.isFinite dry = true) (hw : m.isFinite wet = true) :
    m.le (xfade m dry wet (m.ofNat 1)) wet = true ∧ m.le wet (xfade m dry wet (m.ofNat 1)) = true := by
  subst hm
  have hwf := isFinite_binary32 hw
  obtain ⟨hzf, hzi⟩ := finite_int_of_mag_zero (f32Mul_zero_left (isFinite_binary32 hd))
  rw [binary32_one, (xfade_ends l dry wet).2, f32Mul_one_left (f32IsFinite_not hwf).1]
  exact f32Add_compares_equal hzf hwf hwf (by rw [hzi, zero_add])

end Binary32

end Sys2Proof.Machine

open Sys2Proof Sys2Proof.Machine

/-- Settles O38: the neighbours are those of a frozen or a running buffer, wrapped into the buffer; the mode selects the
interpolation of their elements. -/
theorem ringReadInterpolatesNeighbours : Obligations.RingReadInterpolatesNeighbours := by
  unfold Obligations.RingReadInterpolatesNeighbours
  intro m cap rb hc modulo pointer o i0 i1 x0 x1 f raw
  have hn : ringNeighbours m cap rb = (i0, i1, f) := by
    cases hz : rb.frozen with
    | false => simp [ringNeighbours_running hz, i0, i1, f, o, pointer, modulo, hz, wrapInt]
    | true => simp [ringNeighbours_frozen hz, i0, i1, f, o, pointer, modulo, hz, wrapInt]
  have hraw : raw = interpolate m rb.interp x0 x1 f rb.apPrev := ringRead_apPrev hn
  obtain ⟨h0, h1⟩ : i0 < cap ∧ i1 < cap := by simpa only [hn] using ringNeighbours_lt hc m rb
  refine ⟨h0, h1, fun hz hlo hhi => ?_, fun hi => ?_, fun hi => ?_, fun hi => ?_, rfl,
    fun hz hs => ringRead_compensated hz hs cap, fun h => ringRead_uncompensated h cap⟩
  · have hi0 : i0 = wrapInt o cap := if_neg (by simp [hz])
    rw [hi0, wrapInt_of_inside hlo hhi]
  · rw [hraw, hi]; rfl
  · rw [hraw, hi]; rfl
  · rw [hraw, hi]; rfl

/-- Settles O40: RV_PROCESS is the crossfade, whose gains at the two ends are exactly 1 and 0; the other side adds a zero. -/
theorem reverbDryAndWetAreExact : Obligations.ReverbDryAndWetAreExact := by
  unfold Obligations.ReverbDryAndWetAreExact
  intro c rv x hb m wet out hx hwet
  obtain ⟨l, -, hm⟩ := isBinary32_nm hb
  have hout : out = xfade m x wet rv.mix := rfl
  refine ⟨fun hdry => ?_, fun hall => ?_⟩
  · rw [hout, hdry]
    exact xfade_dry hm hx hwet
  · rw [hout, hall]
    exact xfade_wet hm hx hwet

/-- Settles O37: the servo writes the step and the delay alone, each by the two comparisons. -/
theorem servoSnapsOrGlides : Obligations.ServoSnapsOrGlides := by
  unfold Obligations.ServoSnapsOrGlides
  intro m rb near
  have hnear : servoNear m rb = near := rfl
  rw [ringServo_eq, servoStep, servoAct, hnear]
  refine ⟨fun hn => ?_, fun hn hg => ?_, fun hn hg => ?_⟩
  · simp [hn]
  · simp [hn, hg]
  · simp [hn, hg]
end

section
/-! SUPPORT. What a channel keeps of the entries pushed, RENDER over an update that faults, and RESOLVE of q = 0 under the binary32 NUM (20_memory.md R121, 47_parameter_interface.md R402, R405, R420, R447, 48_engine_render.md R460, 60_exceptions.md R504). -/

namespace Sys2Proof.Machine

open Sys2Proof.Safety

/-! ### What a channel keeps (R420, R121) -/

/-- A push on a channel within its depth keeps the newest entries of the old ones and the new one. -/
theorem pushBounded_eq_drop {α : Type} {depth : Nat} (hd : 1 ≤ depth) {q : List α} (hq : q.length ≤ depth) (m : α) :
    pushBounded depth q m = (q ++ [m]).drop (q.length + 1 - depth) := by
  by_cases hfull : q.length = depth
  · rw [pushBounded, if_pos hfull, show q.length + 1 - depth = 1 by omega, List.drop_append_of_le_length (by omega),
      List.drop_one]
  · rw [pushBounded, if_neg hfull, show q.length + 1 - depth = 0 by omega, List.drop_zero]

/-- Pushed in turn on an empty channel, entries leave the newest of them, in their order. -/
theorem foldl_pushBounded {α : Type} {depth : Nat} (hd : 1 ≤ depth) (ms : List α) :
    ms.foldl (fun q m => pushBounded depth q m) [] = ms.drop (ms.length - depth) := by
  induction ms using List.reverseRecOn with
  | nil => simp
  | append_singleton ms m ih =>
    have hkept : (ms.drop (ms.length - depth)).length ≤ depth := by rw [List.length_drop]; omega
    rw [List.foldl_append, ih, List.foldl_cons, List.foldl_nil, pushBounded_eq_drop hd hkept,
      ← List.drop_append_of_le_length (Nat.sub_le ..), List.drop_drop, List.length_drop, List.length_append,
      List.length_singleton]
    congr 1
    omega

/-! ### RENDER over an unknown update under the policy `fault` (R447, R504, R460) -/

/-- The held notes that the note half of RENDER leaves, by what is popped. -/
theorem alloc_of_noteEffect {s t : State} (h : noteEffect s = .next t) :
    (s.noteq = [] → t.engine.alloc = s.engine.alloc) ∧
    (∀ x rest n, s.noteq = x :: rest → decode (.n x) = .ok (.nqNoteOff n) → t.engine.alloc = removeNote n s.engine.alloc) ∧
    (∀ x rest n, s.noteq = x :: rest → decode (.n x) = .ok (.nqNoteOn n) →
      t.engine.alloc = addNote s.cfg.n n s.engine.alloc) ∧
    (∀ x rest e, s.noteq = x :: rest → decode (.n x) = .error e → t.engine.alloc = s.engine.alloc) := by
  refine ⟨fun hn => ?_, fun x rest n hn hd => ?_, fun x rest n hn hd => ?_, fun x rest e hn hd => ?_⟩
  · rw [noteEffect_of_nil hn] at h
    cases h
    rfl
  · rw [noteEffect_of_cons hn, entryEffect_of_decode hd, exec_nqNoteOff] at h
    cases h
    rfl
  · rw [noteEffect_of_cons hn, entryEffect_of_decode hd, exec_nqNoteOn] at h
    cases h
    rfl
  · rw [noteEffect_of_cons hn, entryEffect_of_no_row hd] at h
    cases h
    rfl

/-- An unknown update under the policy `fault` ends RENDER: it is popped, FAULT is set and no frame follows. -/
theorem updateThenFrames_of_fault {s : State} (hf : s.fault = none) {u : Update} {rest : List Update}
    (hq : s.updq = u :: rest) (hk : knownId s.cfg u.id = false) (hp : s.cfg.unknownId = .fault) (b : Nat) :
    updateThenFrames b s = .next { s with updq := rest, fault := some .unknownId } := by
  have hupd : unknownParameter { s with updq := rest } = { s with updq := rest, fault := some .unknownId } :=
    unknownParameter_fault (s := { s with updq := rest }) hp hf
  rw [updateThenFrames, updateEffect_of_unknown hq (by rw [hk]; exact Bool.false_ne_true), andThen_of_next, hupd]
  exact if_neg (Option.some_ne_none _)

/-! ### RESOLVE of q = 0 (R402, R405) -/

/-- 0 / 35 is +0.0. -/
theorem zero_div_steps (l : MathsLib) : (binary32 l).div ((binary32 l).ofNat 0) ((binary32 l).ofNat 35) = NUM.zero := by
  show f32Div (f32OfRat 0 1) (f32OfRat 35 1) = NUM.zero
  decide +kernel

/-- pow(0, y) = 0 for y > 0, in either library (R7). -/
theorem libPow_zero_left (l : MathsLib) {y : NUM} (hy : f32Lt NUM.zero y = true) : libPow l NUM.zero y = NUM.zero := by
  obtain ⟨hn, -, hm⟩ := (f32Lt_pos_iff y).1 hy
  simp [libPow, hn, hm, hy]

/-- Under binary32 the step of q = 0 from the minimum is a zero, whatever the skew and the finite span. -/
theorem resolve_zero (l : MathsLib) {d : Descriptor} (hs : f32Lt NUM.zero d.skew = true) :
    resolve (binary32 l) d 0 = f32Add d.min (f32Mul NUM.zero ((binary32 l).sub d.max d.min)) := by
  rw [resolve, zero_div_steps]
  show f32Add d.min (f32Mul (libPow l NUM.zero d.skew) _) = _
  rw [libPow_zero_left l hs]

end Sys2Proof.Machine

open Sys2Proof Sys2Proof.Machine Sys2Proof.Safety

/-- Settles O19: each push keeps the newest entries of those before it and its own, so all of them keep the newest of all. -/
theorem channelKeepsNewestInOrder : Obligations.ChannelKeepsNewestInOrder := by
  unfold Obligations.ChannelKeepsNewestInOrder
  exact fun ms depth hd => foldl_pushBounded hd ms

/-- Settles O41: (0 / 35)^skew is 0, its product with a finite span is a zero, and the sum with a zero is the minimum. -/
theorem resolveOfZeroIsMinimum : Obligations.ResolveOfZeroIsMinimum := by
  unfold Obligations.ResolveOfZeroIsMinimum
  intro c d hb m hskew hmin hspan
  obtain ⟨l, -, hm⟩ := isBinary32_nm hb
  simp only [m, hm] at hskew hmin hspan ⊢
  have hminf := isFinite_binary32 hmin
  obtain ⟨hzf, hzi⟩ := finite_int_of_mag_zero (f32Mul_zero_left (isFinite_binary32 hspan))
  rw [resolve_zero l hskew]
  exact f32Add_compares_equal hminf hzf hminf (by rw [hzi, add_zero])

/-- Settles O44: the note half changes the held notes alone, and the update that follows it ends the step. -/
theorem renderFaultsOnUnknownUpdate : Obligations.RenderFaultsOnUnknownUpdate := by
  unfold Obligations.RenderFaultsOnUnknownUpdate
  intro s b u q hr hq hk hp
  obtain ⟨held, hnote, -⟩ := drainNote_next s
  rw [drainNote_eq_noteEffect] at hnote
  refine ⟨held, ?_, alloc_of_noteEffect hnote⟩
  have hhead : ∀ w, s.updq.head? = some w → knownId s.cfg w.id = true → w.id ≤ 16 := by
    rw [hq]
    rintro w ⟨⟩ hw
    rw [hk] at hw
    cases hw
  rw [exec_render_eq hr b hhead, hnote, andThen_of_next]
  exact updateThenFrames_of_fault
    (s := withEngine { s.engine with alloc := held } { s with noteq := s.noteq.tail }) hr.1 hq hk hp b
end

section
/-! SUPPORT. The MIDI and register-port instructions of a running block: the channel filter, the notes pushed, and SET, CC and GET by their cases (47_parameter_interface.md R410 to R412, R450 to R454, 60_exceptions.md R507). -/

namespace Sys2Proof.Machine

open Sys2Proof.Safety

/-! ### MIDI messages (R450 to R454) -/

theorem midiStep_running {s : State} (hr : Running s) (k : State) : midiStep s k = .next k := whenRunning_running hr.1 hr.2 _

theorem onChannel_foreign {chan : Nat} {s : State} (h : chan ≠ s.cfg.midiChannel) (k : State) : onChannel chan s k = s :=
  if_neg h

theorem onChannel_own (s k : State) : onChannel s.cfg.midiChannel s k = k := if_pos rfl

theorem midiStep_foreign {chan : Nat} {s : State} (hr : Running s) (h : chan ≠ s.cfg.midiChannel) (k : State) :
    midiStep s (onChannel chan s k) = .next s := by
  rw [midiStep_running hr, onChannel_foreign h]

theorem midiStep_own {s : State} (hr : Running s) (k : State) : midiStep s (onChannel s.cfg.midiChannel s k) = .next k := by
  rw [midiStep_running hr, onChannel_own]

theorem exec_midiCc_own {s : State} (hr : Running s) (index value : Nat) :
    exec (.midiCc s.cfg.midiChannel index value) s = .next (ccSet index value s) := midiStep_own hr _

theorem ccSet_unbound {s : State} {index : Nat} (h : ccBinding s.cfg index = none) (value : Nat) : ccSet index value s = s := by
  rw [ccSet, h]

theorem ccSet_bound {s : State} {index : Nat} {d : Descriptor} (h : ccBinding s.cfg index = some d) (value : Nat) :
    ccSet index value s = setCommit .midi d.id (ccQuantize value) s := by
  rw [ccSet, h]

/-- A rescaled CC value is saturated already. -/
theorem saturateQ_ccQuantize (value : Nat) : saturateQ (ccQuantize value) = min 35 (value * 36 / 127) :=
  Nat.min_eq_left (ccQuantize_le value)

/-! ### SET and GET by their cases (R410, R412) -/

theorem exec_set {s : State} (hr : Running s) (a : HostAgent) (id q : Nat) :
    exec (.set a id q) s = .next (setCommit a id q s) := whenRunning_running hr.1 hr.2 _

theorem exec_get {s : State} (hr : Running s) (a : HostAgent) (id q : Nat) :
    exec (.get a id q) s = .next (getParameter a id s) := whenRunning_running hr.1 hr.2 _

/-- The part of a SET under the lock is the table entry, the pending update and a free LOCK. -/
theorem commitLocked_eq (a : HostAgent) (id q : Nat) (s : State) :
    commitLocked a id q s =
      setPend a (some { id := id, v := resolveId s.cfg id q })
        { s with tbl := s.tbl.map (fun e => if e.id = id then { e with q := q } else e), lock := .free } := by
  cases a <;> rfl

theorem knownId_of_descriptor {c : Cfg} {id : Nat} {d : Descriptor} (h : descriptorOf c id = some d) : knownId c id = true := by
  rw [knownId, h, Option.isSome_some]

theorem resolveId_of_descriptor {c : Cfg} {id : Nat} {d : Descriptor} (h : descriptorOf c id = some d) (q : Nat) :
    resolveId c id q = resolve c.nm d q := by
  rw [resolveId, h]

/-- LOCK is held against MIDI only when UI holds it. -/
theorem lockedAgainst_midi {s : State} (h : s.lock ≠ .held .ui) : lockedAgainst .midi s = false := by
  unfold lockedAgainst
  split
  · rfl
  · next b hb =>
    cases b with
    | midi => rfl
    | ui => exact absurd hb h

/-- A SET of a known id by an agent with nothing pending waits for LOCK. -/
theorem setCommit_waits {a : HostAgent} {id : Nat} {s : State} (hp : pendOf a s = none) (hk : knownId s.cfg id = true)
    (hl : lockedAgainst a s = true) (q : Nat) : setCommit a id q s = s := by
  simp [setCommit, setPush_of_none hp, hk, hl]

theorem setCommit_unknown {a : HostAgent} {id : Nat} {s : State} (hp : pendOf a s = none) (hk : knownId s.cfg id = false)
    (q : Nat) : setCommit a id q s = unknownParameter s := by
  simp [setCommit, setPush_of_none hp, hk]

/-- A SET begins with the push of an update still pending. -/
theorem setCommit_setPush (a : HostAgent) (id q : Nat) (s : State) : setCommit a id q (setPush a s) = setCommit a id q s := by
  rw [setCommit, setPush_of_none (pendOf_setPush_same a s), setCommit]

theorem getParameter_waits {a : HostAgent} {id : Nat} {s : State} (hk : knownId s.cfg id = true)
    (hl : lockedAgainst a s = true) : getParameter a id s = s := by
  simp [getParameter, hk, hl]

theorem getParameter_unknown {id : Nat} {s : State} (hk : knownId s.cfg id = false) (a : HostAgent) :
    getParameter a id s = unknownParameter s := by
  simp [getParameter, hk]

theorem setPush_running {s : State} (hr : Running s) (a : HostAgent) : Running (setPush a s) :=
  ⟨(setPush_fault a s).trans hr.1, (setPush_shut a s).trans hr.2⟩

theorem stepSchedule_of_push {s : State} {a : HostAgent} {rest : List Event} (hi : s.inbox = .push a :: rest) :
    stepSchedule s = .next (setPush a { s with inbox := rest }) := by
  rw [stepSchedule, hi]

/-- In a sound block a known id has a table value of at most 35. -/
theorem readTable_of_known {s : State} (hh : HostOk s) {id : Nat} (hk : knownId s.cfg id = true) :
    ∃ q, q ≤ QMAX ∧ readTable id s = some q := by
  obtain ⟨d, hd, hdid⟩ := List.find?_isSome.1 hk
  have hmem : id ∈ s.tbl.map (fun e => e.id) := by
    rw [hh.ids, ← eq_of_beq hdid]
    exact List.mem_map_of_mem hd
  obtain ⟨e, he, heid⟩ := List.mem_map.1 hmem
  obtain ⟨e', he'⟩ : ∃ e', s.tbl.find? (fun e => e.id == id) = some e' :=
    Option.isSome_iff_exists.1 (List.find?_isSome.2 ⟨e, he, beq_iff_eq.2 heid⟩)
  exact ⟨e'.q, hh.quantized e' (List.mem_of_find?_eq_some he'), by rw [readTable, he', Option.map_some]⟩

end Sys2Proof.Machine

open Sys2Proof Sys2Proof.Machine Sys2Proof.Safety

/-- Settles O9: the three rows the block decodes are stopped by the channel filter, the other four do nothing anyway. -/
theorem foreignChannelMessageIsIgnored : Obligations.ForeignChannelMessageIsIgnored := by
  unfold Obligations.ForeignChannelMessageIsIgnored
  intro s chan x y hr hc
  simp only [List.forall_mem_cons, List.not_mem_nil, false_implies, implies_true, and_true]
  exact ⟨midiStep_foreign hr hc _, midiStep_foreign hr hc _, midiStep_running hr s, midiStep_foreign hr hc _,
    midiStep_running hr s, midiStep_running hr s, midiStep_running hr s⟩

/-- Settles O10: a note message of the block's channel is the push of its word. -/
theorem noteMessagesPushNoteEntries : Obligations.NoteMessagesPushNoteEntries := by
  unfold Obligations.NoteMessagesPushNoteEntries
  intro s note vel hr _ room
  exact ⟨midiStep_own hr (pushNote (noteOffWord note) s), midiStep_own hr (pushNote (noteOnWord note) s)⟩

/-- Settles O11: a bound CC is a SET by MIDI of its descriptor's id, which is known. -/
theorem controlChangeCommitsItsValue : Obligations.ControlChangeCommitsItsValue := by
  unfold Obligations.ControlChangeCommitsItsValue
  refine fun s index value hr _ => ⟨fun hb => ?_, fun d hb hp hl => ?_⟩
  · rw [exec_midiCc_own hr, ccSet_unbound hb]
  · rw [exec_midiCc_own hr, ccSet_bound hb,
      setCommit_known (a := .midi) hp (knownId_of_ccBinding hb) (lockedAgainst_midi hl), saturateQ_ccQuantize,
      commitLocked_eq]
    rfl

/-- Settles O12: each of the six rows is a MIDI step that ends in the same state. -/
theorem ignoredStatusesChangeNothing : Obligations.IgnoredStatusesChangeNothing := by
  unfold Obligations.IgnoredStatusesChangeNothing
  intro s x y z hr
  simp only [List.forall_mem_cons, List.not_mem_nil, false_implies, implies_true, and_true]
  exact ⟨midiStep_running hr s, midiStep_running hr s, midiStep_running hr s, midiStep_running hr s,
    midiStep_running hr s, midiStep_running hr s⟩

/-- Settles O13: an id with a descriptor is known, so the SET is the write under the lock. -/
theorem setCommitsAndLeavesUpdatePending : Obligations.SetCommitsAndLeavesUpdatePending := by
  unfold Obligations.SetCommitsAndLeavesUpdatePending
  intro s a id q d hr hp hl hd m qe
  rw [exec_set hr, setCommit_known hp (knownId_of_descriptor hd) hl, commitLocked_eq, resolveId_of_descriptor hd]
  rfl

/-- Settles O14: the step is the SET-push of the pending update. -/
theorem setPushQueuesPendingUpdate : Obligations.SetPushQueuesPendingUpdate := by
  unfold Obligations.SetPushQueuesPendingUpdate
  intro s a u rest hr hi hp
  have hp' : pendOf a { s with inbox := rest } = some u := by cases a <;> exact hp
  rw [step_of_running hr, stepSchedule_of_push hi, setPush_of_some hp']
  rfl

/-- Settles O15: with LOCK free a GET of a table value answers it, and a sound table has an entry of every known id. -/
theorem getAnswersTableValue : Obligations.GetAnswersTableValue := by
  unfold Obligations.GetAnswersTableValue
  refine ⟨fun s a id q ignored hr hl hk hq => ?_, fun s id hinv hk => readTable_of_known hinv.host hk⟩
  rw [exec_get hr, getParameter_answers hk hl hq]

/-- Settles O16: SET begins with the push, and a bound CC is a SET; while LOCK is held against the agent, SET, GET and CC
leave the state as it is. -/
theorem hostStepPushesFirstAndWaits : Obligations.HostStepPushesFirstAndWaits := by
  unfold Obligations.HostStepPushesFirstAndWaits
  refine fun s a u id q hr => ⟨fun _ => ?_, fun _ ⟨d, hb⟩ => ?_, fun hp hk hl => ?_, fun hp hl => ?_⟩
  · rw [exec_set hr, exec_set (setPush_running hr a), setCommit_setPush]
  · have hb' : ccBinding (setPush .midi s).cfg id = some d := by rw [setPush_cfg, hb]
    have hpushed := exec_midiCc_own (setPush_running hr .midi) id q
    rw [setPush_cfg] at hpushed
    rw [exec_midiCc_own hr, hpushed, ccSet_bound hb, ccSet_bound hb', setCommit_setPush]
  · rw [exec_set hr, exec_get hr, setCommit_waits hp hk hl, getParameter_waits hk hl]
    exact ⟨rfl, rfl⟩
  · rw [exec_midiCc_own hr]
    cases hb : ccBinding s.cfg id with
    | none => rw [ccSet_unbound hb]
    | some d => rw [ccSet_bound hb, setCommit_waits hp (knownId_of_ccBinding hb) hl]

/-- Settles O17: SET and GET of an unknown id are both the unknown-id policy. -/
theorem unknownIdFollowsPolicy : Obligations.UnknownIdFollowsPolicy := by
  unfold Obligations.UnknownIdFollowsPolicy
  intro s a id q hr hp hk
  rw [exec_set hr, exec_get hr, setCommit_unknown hp hk, getParameter_unknown hk]
  refine ⟨fun hfault => ?_, fun hignore => ?_⟩
  · rw [unknownParameter_fault hfault hr.1]
    exact ⟨rfl, rfl⟩
  · rw [unknownParameter_ignore hignore]
    exact ⟨rfl, rfl⟩
end

section
/-! SUPPORT. DISC by its cases, and the update entries of the oscillator, the filter, the delay line and the reverb (47_parameter_interface.md R406, R432 to R446, 45_ring_buffer_delay.md R331 to R333, 46_reverb.md R381). -/

namespace Sys2Proof.Machine

/-! ### DISC by its cases (R406) -/

theorem disc_of_nan {m : Numerics} {v : NUM} (h : m.le v v = false) (lo hi : Nat) : disc m v lo hi = lo :=
  if_pos (by rw [Numerics.isNaN, h, Bool.not_false])

/-- A value below `lo` gives `lo`; a NaN, if the NUM lets one compare below it, gives it too. -/
theorem disc_of_below {m : Numerics} {v : NUM} {lo : Nat} (h : m.lt v (m.ofNat lo) = true) (hi : Nat) : disc m v lo hi = lo := by
  rw [disc, if_pos h, ite_self]

/-- A number that is not below `lo` gives `hi` when it is above `hi`, and otherwise its rounded value kept within the two. -/
theorem disc_of_number {m : Numerics} {v : NUM} {lo : Nat} (hn : m.le v v = true) (hlo : m.lt v (m.ofNat lo) = false)
    (hi : Nat) :
    disc m v lo hi =
      if m.lt (m.ofNat hi) v = true then hi
      else if m.roundHalfUp v < (lo : Int) then lo
      else if (hi : Int) < m.roundHalfUp v then hi else (m.roundHalfUp v).toNat := by
  simp [disc, Numerics.isNaN, hn, hlo]

theorem disc_of_above {m : Numerics} {v : NUM} {lo hi : Nat} (hn : m.le v v = true) (hlo : m.lt v (m.ofNat lo) = false)
    (hhi : m.lt (m.ofNat hi) v = true) : disc m v lo hi = hi := by
  rw [disc_of_number hn hlo, if_pos hhi]

/-- A number between the bounds that rounds to a code between them gives that code. -/
theorem disc_of_between {m : Numerics} {v : NUM} {lo hi : Nat} (hn : m.le v v = true) (hlo : m.lt v (m.ofNat lo) = false)
    (hhi : m.lt (m.ofNat hi) v = false) {k : Nat} (hk : lo ≤ k ∧ k ≤ hi) (hz : m.roundHalfUp v = k) : disc m v lo hi = k := by
  rw [disc_of_number hn hlo, hhi, hz, if_neg Bool.false_ne_true, if_neg (by omega), if_neg (by omega), Int.toNat_natCast]

/-! ### The entries of the oscillator and the filter (R432 to R437) -/

theorem exec_updHarmSpacing (v : NUM) (s : State) :
    exec (.updHarmSpacing v) s = .next (withEngine (setHarmSpacing s.cfg v s.engine) s) := rfl

theorem exec_updHarmExponent (v : NUM) (s : State) :
    exec (.updHarmExponent v) s = .next (withEngine (setHarmExponent s.cfg v s.engine) s) := rfl

theorem exec_updFilterCutoff (v : NUM) (s : State) :
    exec (.updFilterCutoff v) s = .next (withEngine (recomputeFilter s.cfg (setFilterCutoff s.cfg v s.engine)) s) := rfl

theorem exec_updFilterResonance (v : NUM) (s : State) :
    exec (.updFilterResonance v) s = .next (withEngine (recomputeFilter s.cfg (setFilterResonance s.cfg v s.engine)) s) := rfl

theorem exec_updFilterGainDb (v : NUM) (s : State) :
    exec (.updFilterGainDb v) s = .next (withEngine (recomputeFilter s.cfg (setFilterGainDb s.cfg v s.engine)) s) := rfl

theorem exec_updFilterType (v : NUM) (s : State) :
    exec (.updFilterType v) s = .next (withEngine (recomputeFilter s.cfg (setFilterType s.cfg v s.engine)) s) := rfl

/-- The filter types in the order of their codes. -/
theorem filterTypeFlag_code (m : Numerics) (v : NUM) :
    [FilterType.lp, .hp, .bp, .pk][disc m v 0 3]? = some (filterTypeFlag m v) := by
  have hle := (disc_bounds m v (show 0 ≤ 3 by decide)).2
  rw [filterTypeFlag]
  interval_cases disc m v 0 3 <;> rfl

/-! ### The entries of the delay line (R438 to R444) -/

theorem exec_updDelayTimeS (v : NUM) (s : State) :
    exec (.updDelayTimeS v) s = .next (withEngine (setDelayTime s.cfg v s.engine) s) := rfl

theorem exec_updDelayFeedback (v : NUM) (s : State) :
    exec (.updDelayFeedback v) s = .next (withEngine (setDelayFeedback v s.engine) s) := rfl

theorem exec_updDelayMix (v : NUM) (s : State) :
    exec (.updDelayMix v) s = .next (withEngine (setDelayMix s.cfg v s.engine) s) := rfl

theorem exec_updDelayFreeze (v : NUM) (s : State) :
    exec (.updDelayFreeze v) s = .next (withEngine (setDelayFreeze s.cfg v s.engine) s) := rfl

theorem exec_updDelayReverse (v : NUM) (s : State) :
    exec (.updDelayReverse v) s = .next (withEngine (setDelayReverse s.cfg v s.engine) s) := rfl

theorem exec_updDelayInterp (v : NUM) (s : State) :
    exec (.updDelayInterp v) s = .next (withEngine (setDelayInterp s.cfg v s.engine) s) := rfl

theorem exec_updDelayTopology (v : NUM) (s : State) :
    exec (.updDelayTopology v) s = .next (withEngine (setDelayTopology s.cfg v s.engine) s) := rfl

/-- The interpolation modes in the order of their codes. -/
theorem interpFlag_code (m : Numerics) (v : NUM) :
    [Interp.none, .linear, .allpass][disc m v 0 2]? = some (interpFlag m v) := by
  have hle := (disc_bounds m v (show 0 ≤ 2 by decide)).2
  rw [interpFlag]
  interval_cases disc m v 0 2 <;> rfl

/-- The topologies in the order of their codes. -/
theorem topologyFlag_code (m : Numerics) (v : NUM) :
    [Topology.plain, .allpass, .comb][disc m v 0 2]? = some (topologyFlag m v) := by
  have hle := (disc_bounds m v (show 0 ≤ 2 by decide)).2
  rw [topologyFlag]
  interval_cases disc m v 0 2 <;> rfl

/-- Code 1 of the freeze entry is RB_FREEZE. -/
theorem exec_updDelayFreeze_one {s : State} {v : NUM} (h : disc s.cfg.nm v 0 1 = 1) :
    exec (.updDelayFreeze v) s =
      .next (withEngine { s.engine with dl := { s.engine.dl with
        rb := ringFreeze s.cfg.nm (cMain s.cfg) s.engine.dl.rb } } s) := by
  have hb : boolFlag s.cfg.nm v = true := by rw [boolFlag, h, beq_self_eq_true]
  rw [exec_updDelayFreeze, setDelayFreeze, if_pos hb]

/-- Code 0 of the freeze entry is RB_UNFREEZE. -/
theorem exec_updDelayFreeze_zero {s : State} {v : NUM} (h : disc s.cfg.nm v 0 1 = 0) :
    exec (.updDelayFreeze v) s =
      .next (withEngine { s.engine with dl := { s.engine.dl with
        rb := ringUnfreeze s.cfg.nm (cMain s.cfg) s.engine.dl.rb } } s) := by
  have hb : boolFlag s.cfg.nm v = false := by rw [boolFlag, h]; rfl
  rw [exec_updDelayFreeze, setDelayFreeze, hb, if_neg Bool.false_ne_true]

theorem ringFreeze_running {rb : RingBuf} (h : rb.frozen = false) (m : Numerics) (cap : Nat) :
    ringFreeze m cap rb =
      { rb with
        frzS := m.floorNat rb.act
        frzStart := wrapInt ((rb.w : Int) - (m.floorNat rb.act : Int)) cap
        frzOff := NUM.zero
        r := m.ofNat (wrapInt ((rb.w : Int) - (m.floorNat rb.act : Int)) cap)
        frozen := true } := by
  rw [ringFreeze, h, if_neg Bool.false_ne_true]

theorem ringFreeze_frozen {rb : RingBuf} (h : rb.frozen = true) (m : Numerics) (cap : Nat) : ringFreeze m cap rb = rb :=
  if_pos h

theorem ringUnfreeze_frozen {rb : RingBuf} (h : rb.frozen = true) (m : Numerics) (cap : Nat) :
    ringUnfreeze m cap rb = { rb with frozen := false, r := readBehind m cap rb rb.act } :=
  if_pos h

theorem ringUnfreeze_running {rb : RingBuf} (h : rb.frozen = false) (m : Numerics) (cap : Nat) :
    ringUnfreeze m cap rb = rb := by
  rw [ringUnfreeze, h, if_neg Bool.false_ne_true]

/-- RB_SET_REVERSE writes the flag, and the read pointer only when it leaves reverse while not frozen (R333). -/
theorem ringSetReverse_eq (m : Numerics) (cap : Nat) (b : Bool) (rb : RingBuf) :
    ringSetReverse m cap b rb =
      { rb with
        rev := b
        r := if rb.rev = true ∧ b = false ∧ rb.frozen = false then readBehind m cap rb rb.act else rb.r } := by
  by_cases hleave : rb.rev = true ∧ b = false ∧ rb.frozen = false
  · obtain ⟨hrev, hb, hz⟩ := hleave
    simp [ringSetReverse, hrev, hb, hz]
  · have hstay : (rb.rev && !b && !rb.frozen) = false := by
      rw [Bool.eq_false_iff]
      simpa [and_assoc] using hleave
    rw [ringSetReverse, hstay, if_neg Bool.false_ne_true, if_neg hleave]

/-! ### The entries of the reverb (R445, R446) -/

theorem exec_updReverbRt60S (v : NUM) (s : State) :
    exec (.updReverbRt60S v) s = .next (withEngine (setReverbRt60 s.cfg v s.engine) s) := rfl

theorem exec_updReverbMix (v : NUM) (s : State) :
    exec (.updReverbMix v) s = .next (withEngine (setReverbMix s.cfg v s.engine) s) := rfl

/-- With a delay for each stage, every stage takes the gain of its own delay (R381). -/
theorem setStageGains_eq_zipWith (m : Numerics) (rt60 : NUM) {delays : List NUM} {sts : List Stage}
    (h : delays.length = sts.length) :
    setStageGains m rt60 delays sts = List.zipWith (fun ms st => { st with g := stageGain m rt60 ms }) delays sts := by
  induction delays generalizing sts with
  | nil =>
    rw [List.eq_nil_of_length_eq_zero h.symm]
    rfl
  | cons ms delays ih =>
    cases sts with
    | nil => cases h
    | cons st sts => rw [setStageGains, ih (Nat.succ.inj h), List.zipWith_cons_cons]

end Sys2Proof.Machine

open Sys2Proof Sys2Proof.Machine

/-- Settles O23: each entry writes one register of the oscillator. -/
theorem oscillatorUpdatesSetRegisters : Obligations.OscillatorUpdatesSetRegisters := by
  unfold Obligations.OscillatorUpdatesSetRegisters
  exact fun s v => ⟨exec_updHarmSpacing v s, exec_updHarmExponent v s⟩

/-- Settles O24: each entry writes its register and then runs BQ_COEFFS; every code of DISC(v, 0, 3) has its type. -/
theorem filterUpdatesRecomputeCoefficients : Obligations.FilterUpdatesRecomputeCoefficients := by
  unfold Obligations.FilterUpdatesRecomputeCoefficients
  intro s v m f put
  have hcode := filterTypeFlag_code m v
  refine ⟨exec_updFilterCutoff v s, exec_updFilterResonance v s, exec_updFilterGainDb v s, fun k hk => ?_,
    ⟨_, hcode⟩, fun g => ⟨rfl, rfl, rfl⟩⟩
  rw [← Option.some.inj (hcode.symm.trans hk)]
  exact exec_updFilterType v s

/-- Settles O26: each entry writes one field of the delay line; every code of DISC(v, 0, 2) has its mode and its topology. -/
theorem delayUpdatesWriteOneField : Obligations.DelayUpdatesWriteOneField := by
  unfold Obligations.DelayUpdatesWriteOneField
  intro s v m dl put
  have hinterp := interpFlag_code m v
  have htopo := topologyFlag_code m v
  refine ⟨exec_updDelayTimeS v s, exec_updDelayFeedback v s, exec_updDelayMix v s, fun k hk => ?_, fun k hk => ?_,
    ⟨_, hinterp⟩, ⟨_, htopo⟩⟩
  · rw [← Option.some.inj (hinterp.symm.trans hk)]
    exact exec_updDelayInterp v s
  · rw [← Option.some.inj (htopo.symm.trans hk)]
    exact exec_updDelayTopology v s

/-- Settles O27: code 1 freezes a running buffer, code 0 thaws a frozen one, and each keeps a buffer that is so already. -/
theorem freezeUpdateCapturesWindow : Obligations.FreezeUpdateCapturesWindow := by
  unfold Obligations.FreezeUpdateCapturesWindow
  intro s v m cap rb put start
  have hbit := (disc_bounds m v (show 0 ≤ 1 by decide)).2
  refine ⟨fun h1 hz => ?_, fun h1 hz => ?_, fun h0 hz => ?_, fun h0 hz => ?_, by omega⟩
  · rw [exec_updDelayFreeze_one h1, ringFreeze_running hz]
    rfl
  · rw [exec_updDelayFreeze_one h1, ringFreeze_frozen hz]
    rfl
  · rw [exec_updDelayFreeze_zero h0, ringUnfreeze_frozen hz]
    rfl
  · rw [exec_updDelayFreeze_zero h0, ringUnfreeze_running hz]
    rfl

/-- Settles O28: the entry is RB_SET_REVERSE of the delay line's ring buffer. -/
theorem reverseUpdateResynchronises : Obligations.ReverseUpdateResynchronises := by
  unfold Obligations.ReverseUpdateResynchronises
  intro s v m rb b
  rw [exec_updDelayReverse, setDelayReverse, ringSetReverse_eq]
  rfl

/-- Settles O29: six delays for six stages give each stage the gain of its delay. -/
theorem reverbUpdatesSetGainsAndMix : Obligations.ReverbUpdatesSetGainsAndMix := by
  unfold Obligations.ReverbUpdatesSetGainsAndMix
  intro s v hdelays hstages m rt60 gain
  refine ⟨?_, exec_updReverbMix v s⟩
  rw [exec_updReverbRt60S, setReverbRt60, rvSetRt60, setStageGains_eq_zipWith _ _ (hdelays.trans hstages.symm)]
  rfl

/-- Settles O30: the clauses are DISC's cases in the order in which it tests them. -/
theorem discRoundsHalfUpWithinBounds : Obligations.DiscRoundsHalfUpWithinBounds := by
  unfold Obligations.DiscRoundsHalfUpWithinBounds
  intro m v lo hi hle
  obtain ⟨hlower, hupper⟩ := disc_bounds m v hle
  exact ⟨hlower, hupper, fun hn => disc_of_nan hn lo hi, fun hb => disc_of_below hb hi,
    fun hn hlo hhi => disc_of_above hn hlo hhi, fun hn hlo hhi k hk hk' hz => disc_of_between hn hlo hhi ⟨hk, hk'⟩ hz⟩
end

section
/-! SUPPORT. The frames of one RENDER as one outcome, RENDER over empty channels and over an update that is known or ignored, and the voice gate by the voice's note before and after (48_engine_render.md R460 to R462, R468). -/

namespace Sys2Proof.Machine

open Sys2Proof.Safety

/-! ### Blocks that do not run -/

/-- A block that is halted or shut down answers one fault, whatever its step would do (R503, R514). -/
theorem whenRunning_not_running {s : State} (hr : ¬ Running s) : ∃ f, ∀ k, whenRunning s k = .fault f := by
  cases hf : s.fault with
  | some c => exact ⟨.halted c, whenRunning_halted hf⟩
  | none =>
    have hs : s.shut = true := eq_true_of_ne_false fun h => hr ⟨hf, h⟩
    exact ⟨.shutDown, fun k => by simp [whenRunning, hf, hs]⟩

/-- What follows an outcome need only be known in the next state it answers. -/
theorem andThen_congr {o : Host.Outcome State Fault Refusal} {k k' : State → Host.Outcome State Fault Refusal}
    (h : ∀ t, o = .next t → k t = k' t) : andThen o k = andThen o k' := by
  cases o with
  | next t => exact h t rfl
  | fault f => rfl
  | refused r => rfl

/-! ### The frames of one RENDER -/

theorem emitFrames_zero (s : State) : emitFrames 0 s = .next s := rfl

theorem emitFrames_without_memories {s : State} (hm : memoriesExist s.cfg = false) {b : Nat} (hb : b ≠ 0) :
    emitFrames b s = .fault .sampleIndex := by
  rw [emitFrames, if_neg hb, hm]
  rfl

theorem emitFrames_eq {s : State} (hm : memoriesExist s.cfg = true) (b : Nat) :
    emitFrames b s = .next (emitAll (frames s.cfg b s.engine).1 (withEngine (frames s.cfg b s.engine).2 s)) := by
  obtain ⟨t, ht⟩ := emitFrames_of_memories hm b
  rw [ht, emitFrames_next ht]

/-- A + B frames are A frames and then B frames from the engine they leave; without memories the first frame, in whichever
part it is, is the fault (R461). -/
theorem emitFrames_add (a b : Nat) (s : State) : emitFrames (a + b) s = andThen (emitFrames a s) (emitFrames b) := by
  cases hm : memoriesExist s.cfg with
  | true =>
    rw [emitFrames_eq hm a, andThen_of_next, emitFrames_eq hm (a + b), frames_add, emitFrames_eq (by exact hm) b]
    simp only [emitAll, withEngine, List.append_assoc]
  | false =>
    by_cases ha : a = 0
    · rw [ha, Nat.zero_add, emitFrames_zero, andThen_of_next]
    · rw [emitFrames_without_memories hm ha, emitFrames_without_memories hm (by omega)]
      rfl

/-! ### RENDER by what its channels hold -/

theorem exec_render_of_empty {s : State} (hr : Running s) (hn : s.noteq = []) (hq : s.updq = []) (b : Nat) :
    exec (.render b) s = emitFrames b s := by
  rw [exec_render_eq hr b (by simp [hq]), noteEffect_of_nil hn, andThen_of_next, updateThenFrames_of_nil hr.1 hq]

/-- An update that is known or ignored changes the engine alone, besides being popped. -/
theorem updateEffect_next {s : State} (hle : ∀ u, s.updq.head? = some u → knownId s.cfg u.id = true → u.id ≤ 16)
    (hu : ∀ u, s.updq.head? = some u → knownId s.cfg u.id = true ∨ s.cfg.unknownId = .ignore) :
    ∃ e, updateEffect s = .next (withEngine e { s with updq := s.updq.tail }) := by
  cases hq : s.updq with
  | nil =>
    refine ⟨s.engine, ?_⟩
    rw [updateEffect_of_nil hq, List.tail_nil, ← hq]
    rfl
  | cons u rest =>
    have hhead : s.updq.head? = some u := by rw [hq, List.head?_cons]
    by_cases hk : knownId s.cfg u.id = true
    · obtain ⟨i, hd, hi, -⟩ := applyKnown_eq_exec (hle u hhead hk) s
      rw [updateEffect_of_known hq hk, entryEffect_of_decode hd]
      exact exec_channelInstr hi _
    · have hignore := (hu u hhead).resolve_left hk
      refine ⟨s.engine, ?_⟩
      rw [updateEffect_of_unknown hq hk, unknownParameter_ignore (by exact hignore)]
      rfl

/-- What follows an update that raised no fault is the frames. -/
theorem updateThenFrames_of_effect {s t : State} (h : updateEffect s = .next t) (hf : t.fault = none) (b : Nat) :
    updateThenFrames b s = emitFrames b t := by
  rw [updateThenFrames, h, andThen_of_next, if_pos hf]

/-! ### The voice gate (R462) -/

theorem voiceGate_some_new {n : Nat} {v : Voice} (h : v.lastNote ≠ some n) (m : Numerics) :
    voiceGate m (some n) v = { v with envState := .attack, freq := mtof m n, lastNote := some n } := by
  simp only [voiceGate, if_neg h]
  rfl

theorem voiceGate_some_same {n : Nat} {v : Voice} (h : v.lastNote = some n) (m : Numerics) :
    voiceGate m (some n) v = { v with freq := mtof m n } := by
  simp only [voiceGate, if_pos h]
  rw [← h]

theorem voiceGate_none_silent {v : Voice} (h : v.lastNote = none) (m : Numerics) : voiceGate m none v = v := by
  simp only [voiceGate, if_pos h]
  rw [← h]

theorem envNoteOffState_eq (k : EnvState) :
    envNoteOffState k = if k = .attack ∨ k = .sustain then .release else k := by cases k <;> rfl

theorem voiceGate_none_released {v : Voice} (h : v.lastNote ≠ none) (m : Numerics) :
    voiceGate m none v = { v with
      envState := if v.envState = .attack ∨ v.envState = .sustain then .release else v.envState
      lastNote := none } := by
  simp only [voiceGate, if_neg h, envNoteOff, envNoteOffState_eq]

end Sys2Proof.Machine

open Sys2Proof Sys2Proof.Machine Sys2Proof.Safety

/-- Settles O43: neither entry raises a fault or touches OUT, so the frames follow from the engine they make. -/
theorem renderEmitsExactlyItsFrames : Obligations.RenderEmitsExactlyItsFrames := by
  unfold Obligations.RenderEmitsExactlyItsFrames
  intro s b hinv hr hu
  have hle : ∀ u, s.updq.head? = some u → knownId s.cfg u.id = true → u.id ≤ 16 :=
    fun _ _ hk => id_le_of_known hinv.table hk
  obtain ⟨al, hnote, -⟩ := drainNote_next s
  rw [drainNote_eq_noteEffect] at hnote
  obtain ⟨e, hupd⟩ :=
    updateEffect_next (s := withEngine { s.engine with alloc := al } { s with noteq := s.noteq.tail }) hle hu
  have hboth := (congrArg (andThen · updateEffect) hnote).trans hupd
  refine ⟨_, hboth, ?_, frames_length .., fun hn hq => ?_⟩
  · rw [exec_render_eq hr b hle, hnote, andThen_of_next, updateThenFrames_of_effect hupd hr.1]
    exact emitFrames_eq (by exact memoriesExist_of_legal hinv.legal) b
  · rw [noteEffect_of_nil hn, andThen_of_next, updateEffect_of_nil hq] at hboth
    rw [← Host.Outcome.next.inj hboth]

/-- Settles O45: over empty channels RENDER is its frames alone, which leave the channels empty and the block running; a
block that does not run answers the fault of the first RENDER. -/
theorem renderSplitsIntoBuffers : Obligations.RenderSplitsIntoBuffers := by
  unfold Obligations.RenderSplitsIntoBuffers
  intro s a b hn hq
  by_cases hr : Running s
  · rw [exec_render_of_empty hr hn hq, exec_render_of_empty hr hn hq, emitFrames_add]
    refine andThen_congr fun t ht => ?_
    obtain ⟨hrun, hnotes, hupds⟩ : Running t ∧ t.noteq = [] ∧ t.updq = [] := by
      rw [emitFrames_next ht]
      exact ⟨hr, hn, hq⟩
    exact (exec_render_of_empty hrun hnotes hupds b).symm
  · obtain ⟨f, hf⟩ := whenRunning_not_running hr
    have hstop : ∀ c, exec (.render c) s = .fault f := fun _ => hf _
    rw [hstop, hstop]
    rfl

/-- Settles O31: one equation of the gate for each pair of notes before and after. -/
theorem voiceGateFollowsNoteEdges : Obligations.VoiceGateFollowsNoteEdges := by
  unfold Obligations.VoiceGateFollowsNoteEdges
  exact fun m _ _ => ⟨fun h => voiceGate_some_new h m, fun h => voiceGate_some_same h m, fun h => voiceGate_none_silent h m,
    fun h => voiceGate_none_released h m⟩
end

section
/-! SUPPORT. Faults of a running block: the state a step can leave with F_UNKNOWN_ID, and the blocks that have no step (60_exceptions.md R500, R503, R504, R507, R514). -/

namespace Sys2Proof.Machine

open Sys2Proof.Safety

/-! ### The one fault a step can raise -/

/-- `t` follows `s` without a fault, or with F_UNKNOWN_ID under the policy `fault`, no frame emitted and no entry of the
table written (R504, R507). -/
def FaultsOnlyUnknownId (s t : State) : Prop :=
  t.fault = none ∨ (t.fault = some .unknownId ∧ s.cfg.unknownId = .fault ∧ t.out = s.out ∧ t.tbl = s.tbl)

/-- What comes before the fault may change any register but the configuration, OUT and the table. -/
theorem FaultsOnlyUnknownId.after {s s' t : State} (h : FaultsOnlyUnknownId s' t) (hc : s'.cfg = s.cfg)
    (ho : s'.out = s.out) (ht : s'.tbl = s.tbl) : FaultsOnlyUnknownId s t := by
  unfold FaultsOnlyUnknownId at h ⊢
  rwa [hc, ho, ht] at h

theorem unknownParameter_faults {s : State} (hf : s.fault = none) : FaultsOnlyUnknownId s (unknownParameter s) := by
  cases hp : s.cfg.unknownId with
  | ignore => exact .inl (by rw [unknownParameter_ignore hp, hf])
  | fault =>
    rw [unknownParameter_fault hp hf]
    exact .inr ⟨rfl, hp, rfl, rfl⟩

/-- SET of an unknown id faults after the SET-push, which leaves OUT and the table alone (R410). -/
theorem setCommit_faults {s : State} (hf : s.fault = none) (a : HostAgent) (id q : Nat) :
    FaultsOnlyUnknownId s (setCommit a id q s) := by
  rcases setCommit_cases a id q s with ⟨-, h⟩ | ⟨hk, -, -⟩ | ⟨hk, -, -⟩
  · rw [h]
    exact (unknownParameter_faults ((setPush_fault a s).trans hf)).after (setPush_cfg ..) (setPush_out ..) (setPush_tbl ..)
  · exact .inl ((setCommit_fault_of_known hk a q).trans hf)
  · exact .inl ((setCommit_fault_of_known hk a q).trans hf)

theorem getParameter_faults {s : State} (hf : s.fault = none) (a : HostAgent) (id : Nat) :
    FaultsOnlyUnknownId s (getParameter a id s) := by
  rcases getParameter_cases a id s with ⟨-, h⟩ | ⟨-, h⟩ | ⟨q, -, -, -, h⟩ <;> rw [h]
  · exact unknownParameter_faults hf
  · exact .inl hf
  · exact .inl hf

theorem HostEffect.faults {s t : State} {i : Instr} (h : HostEffect s i t) (hf : s.fault = none) :
    FaultsOnlyUnknownId s t := by
  cases h with
  | nothing | noteOff | noteOn => exact .inl hf
  | cc | set => exact setCommit_faults hf ..
  | get => exact getParameter_faults hf ..

theorem HostStep.faults {s t : State} (h : HostStep s t) (hf : s.fault = none) : FaultsOnlyUnknownId s t := by
  cases h with
  | stay | note | update => exact .inl hf
  | push a => exact .inl ((setPush_fault a s).trans hf)
  | instr i t effect => exact effect.faults hf

/-- The update half of RENDER faults on an unknown id alone (R447). -/
theorem drainUpdate_faults {s t : State} (h : drainUpdate s = .next t) (hf : s.fault = none) : FaultsOnlyUnknownId s t := by
  unfold drainUpdate popUpdate at h
  cases hq : s.updq with
  | nil =>
    simp only [hq] at h
    cases h
    exact .inl hf
  | cons u rest =>
    have hunknown : FaultsOnlyUnknownId s (unknownParameter { s with updq := rest }) :=
      (unknownParameter_faults (s := { s with updq := rest }) hf).after rfl rfl rfl
    simp only [hq, applyUpdate] at h
    split at h
    · rcases applyKnown_cases h with ⟨e, -, rfl⟩ | rfl
      · exact .inl hf
      · exact hunknown
    · cases h
      exact hunknown

/-- RENDER ends with the fault of its update, or emits its frames, which raise none (R460, R504). -/
theorem execRender_faults {b : Nat} {s t : State} (h : execRender b s = .next t) : FaultsOnlyUnknownId s t := by
  obtain ⟨hf, -, s1, s2, hnote, hupd, hend⟩ := execRender_cases h
  obtain ⟨al, hn, -⟩ := drainNote_next s
  cases hn.symm.trans hnote
  rcases hend with ⟨c, -, rfl⟩ | ⟨hnone, hframes⟩
  · exact (drainUpdate_faults hupd hf).after rfl rfl rfl
  · rw [emitFrames_next hframes]
    exact .inl hnone

/-! ### Blocks without a step -/

theorem whenRunning_shut {s : State} (hf : s.fault = none) (hs : s.shut = true) (k : Host.Outcome State Fault Refusal) :
    whenRunning s k = .fault .shutDown := by simp [whenRunning, hf, hs]

/-- Every instruction of a port is a step of an agent, which a halted block does not have (R503). -/
theorem exec_halted {s : State} {c : FaultCode} (hf : s.fault = some c) {i : Instr} (hi : isChannelInstr i = false) :
    exec i s = .fault (.halted c) := by
  cases i with
  | midiNoteOff | midiNoteOn | midiCc | midiPolyPressure | midiProgram | midiChannelPressure | midiPitchBend | midiSystem
  | midiNoStatus | set | get | render => exact whenRunning_halted hf _
  | _ => cases hi

theorem stepSchedule_of_shutdown {s : State} {rest : List Event} (hi : s.inbox = .shutdown :: rest) :
    stepSchedule s = .next { s with inbox := rest, shut := true } := by
  unfold stepSchedule
  rw [hi]

end Sys2Proof.Machine

open Sys2Proof Sys2Proof.Machine Sys2Proof.Safety

/-- Settles O51: a step is a RENDER or a step of the host side, begun without a fault, and either reaches FAULT through the
unknown-id policy alone. -/
theorem onlyUnknownIdFaults : Obligations.OnlyUnknownIdFaults := by
  unfold Obligations.OnlyUnknownIdFaults
  intro s t h
  obtain ⟨hf, -⟩ := step_cases h
  refine ⟨hf, ?_⟩
  rcases step_render_or_host h with ⟨x, rest, -, hr⟩ | ⟨rest, b, hs⟩
  · exact (execRender_faults hr).after rfl rfl rfl
  · exact (hs.faults hf).after rfl rfl rfl

/-- Settles O8: every step and every port instruction goes through `whenRunning`, which answers for a block that is halted
or shut down. -/
theorem haltedOrShutBlockHasNoStep : Obligations.HaltedOrShutBlockHasNoStep := by
  unfold Obligations.HaltedOrShutBlockHasNoStep
  refine ⟨fun s c hf => ⟨whenRunning_halted hf _, fun i hi => exec_halted hf hi, fun d => raiseFault_of_some hf d⟩,
    fun s rest hr hi => ?_, fun s hf hs => whenRunning_shut hf hs _⟩
  rw [step_of_running hr, stepSchedule_of_shutdown hi]
end

section
/-! SUPPORT. What construction leaves in the ring buffers of any configuration, and the resolved defaults of the reference configuration (70_reset_and_hazards.md R560, R561, 45_ring_buffer_delay.md R321, R322, 47_parameter_interface.md R401). -/

namespace Sys2Proof.Machine

/-! ### Ring buffers that have not ticked -/

/-- A ring buffer without history: nothing written, the write pointer at 0, step 1 and the ALLPASS register at 0 (R321, R322). -/
structure RingFresh (m : Numerics) (rb : RingBuf) : Prop where
  memory : rb.buf = []
  write_pointer : rb.w = 0
  step : rb.step = m.ofNat 1
  allpass : rb.apPrev = NUM.zero

theorem RingFresh.read_eq_zero {m : Numerics} {rb : RingBuf} (h : RingFresh m rb) (i : Nat) : rb.buf.read i = NUM.zero := by
  rw [h.memory, Memory.read_nil]

theorem ringRaw_fresh (m : Numerics) (cap : Nat) : RingFresh m (ringRaw m cap) := ⟨rfl, rfl, rfl, rfl⟩

theorem ringInit_fresh {m : Numerics} {rb : RingBuf} (h : RingFresh m rb) (cap : Nat) (g : NUM) :
    RingFresh m (ringInit m cap g rb) := { h with step := rfl }

theorem ringFreeze_fresh {m : Numerics} {rb : RingBuf} (h : RingFresh m rb) (cap : Nat) :
    RingFresh m (ringFreeze m cap rb) := by
  unfold ringFreeze
  split <;> exact { h with }

theorem ringUnfreeze_fresh {m : Numerics} {rb : RingBuf} (h : RingFresh m rb) (cap : Nat) :
    RingFresh m (ringUnfreeze m cap rb) := by
  unfold ringUnfreeze
  split <;> exact { h with }

theorem ringSetReverse_fresh {m : Numerics} {rb : RingBuf} (h : RingFresh m rb) (cap : Nat) (b : Bool) :
    RingFresh m (ringSetReverse m cap b rb) := by
  unfold ringSetReverse
  split <;> exact { h with }

theorem builtDelayRing_fresh (c : Cfg) : RingFresh c.nm (builtDelayRing c) :=
  builtDelayRing_induction (ringInit_fresh (ringRaw_fresh ..) ..) (fun _ h => ringFreeze_fresh h _)
    (fun _ h => ringUnfreeze_fresh h _) (fun _ b h => ringSetReverse_fresh h _ b) (fun _ _ h => { h with })

/-- With the defaults of FREEZE and REVERSE off, the delay line is RB_INIT of its delay time and a mode (R560 step 8). -/
theorem builtDelayRing_running {c : Cfg} (hfreeze : boolFlag c.nm (resolvedDefault c 11) = false)
    (hreverse : boolFlag c.nm (resolvedDefault c 12) = false) :
    builtDelayRing c =
      ringSetInterp (interpFlag c.nm (resolvedDefault c 13))
        (ringInit c.nm (cMain c) (c.nm.mul (resolvedDefault c 8) c.fs) (ringRaw c.nm (cMain c))) := by
  rw [builtDelayRing, hfreeze, hreverse]
  rfl

/-! ### The reverb's stages -/

/-- A property that RB_INIT with LINEAR keeps holds of every stage after step 9, however many base delays there are. -/
theorem initStages_induction {P : RingBuf → Prop} {c : Cfg}
    (start : ∀ ms rb, P rb → P { ringInit c.nm (cRev c) (msToSamples c ms) rb with interp := .linear })
    {delays : List NUM} {sts : List Stage} (h : ∀ st ∈ sts, P st.rb) : ∀ st ∈ initStages c delays sts, P st.rb := by
  induction delays generalizing sts with
  | nil => cases sts <;> exact h
  | cons ms delays ih => cases sts with
    | nil => exact h
    | cons st sts =>
      obtain ⟨hst, hsts⟩ := List.forall_mem_cons.1 h
      exact List.forall_mem_cons.2 ⟨start ms st.rb hst, ih hsts⟩

theorem builtStages_induction {P : RingBuf → Prop} {c : Cfg} (raw : P (ringRaw c.nm (cRev c)))
    (start : ∀ ms rb, P rb → P { ringInit c.nm (cRev c) (msToSamples c ms) rb with interp := .linear }) :
    ∀ st ∈ builtStages c, P st.rb := by
  refine initStages_induction start fun st hst => ?_
  obtain ⟨st0, hst0, g, rfl⟩ := setStageGains_mem hst
  obtain rfl := List.eq_of_mem_replicate hst0
  exact raw

/-- No step of construction freezes or reverses a stage (R560 step 9). -/
theorem builtStages_fresh (c : Cfg) :
    ∀ st ∈ builtStages c, RingFresh c.nm st.rb ∧ st.rb.frozen = false ∧ st.rb.rev = false :=
  builtStages_induction (P := fun rb => RingFresh c.nm rb ∧ rb.frozen = false ∧ rb.rev = false)
    ⟨ringRaw_fresh .., rfl, rfl⟩ (fun ms _ h => ⟨{ ringInit_fresh h.1 (cRev c) (msToSamples c ms) with }, h.2⟩)

theorem builtStages_settled {c : Cfg} (hl : c.reverbDelaysMs.length = NSTAGES) {st : Stage} (h : st ∈ builtStages c) :
    st.rb.interp = .linear ∧ st.rb.act = st.rb.goal := by
  obtain ⟨ms, -, he⟩ := builtStages_mem hl h
  rw [he]
  exact ⟨rfl, rfl⟩

/-! ### The reference configuration -/

/-- RESOLVE of the default of each id 0..16 of the reference table (R401). -/
def referenceDefaults : List NUM :=
  [0x42272F06#32, 0x43A3B979#32, 0x3F800000#32, 0x3F800000#32, 0x469C4000#32, 0x3F31A1F6#32, 0x36000000#32, NUM.zero,
    0x3EA8240C#32, 0x3EC28F5C#32, NUM.zero, NUM.zero, NUM.zero, 0x3F78AF8B#32, NUM.zero, 0x3FD78D51#32, NUM.zero]

theorem resolvedDefault_reference :
    ∀ id ≤ MAX_ID, resolvedDefault referenceCfg id = referenceDefaults.getD id NUM.zero := by decide +kernel

/-- The codes of the defaults that are read as one (R432, R437, R441 to R444). -/
theorem referenceCfg_codes :
    let m := referenceCfg.nm
    spacingFlag m (resolvedDefault referenceCfg 2) = 1 ∧
    filterTypeFlag m (resolvedDefault referenceCfg 7) = .lp ∧
    boolFlag m (resolvedDefault referenceCfg 11) = false ∧
    boolFlag m (resolvedDefault referenceCfg 12) = false ∧
    interpFlag m (resolvedDefault referenceCfg 13) = .linear ∧
    topologyFlag m (resolvedDefault referenceCfg 14) = .plain := by
  simp (disch := decide) only [resolvedDefault_reference]
  decide +kernel

/-- The clamped defaults: each is within its bounds and stays as it is (R433 to R436, R440, R445, R446). -/
theorem referenceCfg_clamps :
    let m := referenceCfg.nm
    m.max (resolvedDefault referenceCfg 3) (m.ofNat 0) = 0x3F800000#32 ∧
    legalCutoff referenceCfg (resolvedDefault referenceCfg 4) = f32OfRat 20000 1 ∧
    legalResonance referenceCfg (resolvedDefault referenceCfg 5) = 0x3F31A1F6#32 ∧
    legalGainDb referenceCfg (resolvedDefault referenceCfg 6) = 0x36000000#32 ∧
    m.clamp (resolvedDefault referenceCfg 10) (m.ofNat 0) (m.ofNat 1) = NUM.zero ∧
    builtRt60 referenceCfg = 0x3FD78D51#32 ∧
    m.clamp (resolvedDefault referenceCfg 16) (m.ofNat 0) (m.ofNat 1) = NUM.zero := by
  simp (disch := decide) only [builtRt60, resolvedDefault_reference]
  decide +kernel

/-- RB_INIT puts the read pointer the default delay time behind write pointer 0 (R322). -/
theorem referenceCfg_readPointer :
    (ringSetInterp .linear (ringInit referenceCfg.nm (cMain referenceCfg)
      (referenceCfg.nm.mul (resolvedDefault referenceCfg 8) referenceCfg.fs) (ringRaw referenceCfg.nm (cMain referenceCfg)))).r =
      f32OfRat 80236796875 1000000 := by
  rw [resolvedDefault_reference 8 (by decide)]
  decide +kernel

end Sys2Proof.Machine

open Sys2Proof Sys2Proof.Machine

/-- Settles O55: what step 8 and 9 write is no part of the history, and the ring buffers they start stay as R321 left them. -/
theorem constructionLeavesNoHistory : Obligations.ConstructionLeavesNoHistory := by
  unfold Obligations.ConstructionLeavesNoHistory
  intro c s
  have hdelay := builtDelayRing_fresh c
  refine ⟨rfl, rfl, rfl, rfl, rfl, rfl, rfl, rfl, rfl, rfl, rfl, rfl, rfl, hdelay.write_pointer, hdelay.step, hdelay.allpass,
    hdelay.read_eq_zero, builtStages_length c, fun st hst => ?_⟩
  obtain ⟨hfresh, hfrozen, hrev⟩ := builtStages_fresh c st hst
  exact ⟨hfresh.write_pointer, hfresh.allpass, hfrozen, hrev, hfresh.read_eq_zero⟩

/-- Settles O56: each register of `buildEngine_eq` is its resolved default, or what the code or the clamp of its update makes
of that; the ring buffers are the ones RB_INIT leaves. -/
theorem resetRegistersHoldSpecValues : Obligations.ResetRegistersHoldSpecValues := by
  unfold Obligations.ResetRegistersHoldSpecValues
  intro e
  have he : e = _ := buildEngine_eq referenceCfg
  have hd := resolvedDefault_reference
  obtain ⟨hspacing, hkind, hfreeze, hreverse, hinterp, htopo⟩ := referenceCfg_codes
  obtain ⟨hexponent, hcutoff, hresonance, hgain, hdelayMix, hdecay, hreverbMix⟩ := referenceCfg_clamps
  rw [he, builtDelayRing_running hfreeze hreverse, hspacing, hexponent, hinterp]
  dsimp only
  refine ⟨by decide, hd 0 (by decide), hd 1 (by decide), rfl, hkind, hcutoff, hresonance, hgain, hd 9 (by decide), hdelayMix,
    htopo, rfl, rfl, rfl, rfl, referenceCfg_readPointer, hdecay, hreverbMix, List.all_eq_true.2 fun st hst => ?_⟩
  obtain ⟨hlinear, hact⟩ := builtStages_settled (c := referenceCfg) rfl hst
  simp [hlinear, hact]
end
